-- ==== Sys2Proof/Word.lean ====
section
/-! DEFINITION. The unit of storage of the System Ten: the six-bit character (10_state.md R20). -/

namespace Sys2Proof

/-- A character: bit-7, bit-5, bit-4, bit-3, bit-2, bit-1 from most to least significant
(00_scope.md R8), packed as `code(c)` of R9. -/
abbrev Character := BitVec 6

/-- The numeric portion of a character: bit-4 to bit-1, weights 8, 4, 2, 1 (00_scope.md R8). -/
abbrev Numeric := BitVec 4

end Sys2Proof
end

