-- ==== Sys2Proof/Config.lean ====
section
/-! DEFINITION. What an installation fixes (00_scope.md R6), what the outside world supplies
(49_read_write.md R321), and the free values: opaque constants with no body, about which nothing
can be proved. -/

namespace Sys2Proof

/-- Whether a FAC or IOC operation ended with Error, Normal, Flag or Fault: the four Condition Codes
of Read and Write (49_read_write.md R327). "Fault" is the device's word. -/
inductive DeviceOutcome where
  | error
  | normal
  | flag
  | fault
  deriving DecidableEq, Repr, Inhabited

/-- The outcomes an operation may be ended with before its count is reached (49_read_write.md
R327(b)): Normal is not among them. -/
inductive AbnormalEnd where
  | error
  | flag
  | fault
  deriving DecidableEq, Repr, Inhabited

/-- What an IOC holds for the CPU (10_state.md R43(a) and (d)): a character in its one-character
buffer with the signal "character ready", the Unit Separator likewise, the signal "ready to accept a
character", or the end of the operation. Each carries the outcome the device reports if the
operation ends with it (49_read_write.md R321(c)). -/
inductive IocSignal where
  | character (c : Character) (outcome : DeviceOutcome)
  | unitSeparator (outcome : DeviceOutcome)
  | ready (outcome : DeviceOutcome)
  | ended (how : AbnormalEnd)
  deriving DecidableEq, Repr, Inhabited

/-- One act of a device (49_read_write.md R321(a) to (c), (f)): it gives the IOC of a partition a
signal, or some of its devices request service. -/
inductive DeviceEvent where
  | signal (partition : Nat) (signal : IocSignal)
  | request (partition : Nat) (devices : List Nat)
  deriving DecidableEq, Repr, Inhabited

/-- What the device on the File Access Channel answers to a Read or Write (49_read_write.md R321(d)
and (e)): whether a disc access must wait, the characters it delivers (Read), how many characters it
takes when the transfer stops early (Write), and the outcome. -/
structure FacAnswer where
  wait : Bool
  delivered : List Character
  taken : Nat
  outcome : DeviceOutcome
  deriving DecidableEq, Repr, Inhabited

/-- What happens at one instruction boundary (60_exceptions.md R367). `elapsed` is the time, in
hundredths of a microsecond, since the boundary before. `early` arrives in time for the service of this
boundary, `late` after it. `order` is the order in which the CPU serves the channels ("in any order");
partitions it does not name follow in numerical order. `fac` is what the FAC answers to the next
instruction. -/
structure BoundaryInput where
  elapsed : Nat
  early : List DeviceEvent
  order : List Nat
  late : List DeviceEvent
  fac : Option FacAnswer
  deriving DecidableEq, Repr, Inhabited

/-- A boundary at which nothing happens and no time passes. -/
def BoundaryInput.quiet : BoundaryInput :=
  { elapsed := 0, early := [], order := [], late := [], fac := none }

/-- An outcome of an unspecified result: one flag of the Condition Code (40_add_subtract.md R146). -/
inductive FlagNumber where
  | one
  | two
  | three
  | four
  deriving DecidableEq, Repr, Inhabited

/-- One of the flags 1, 2, 3: the outcomes of an unspecified edit (44_edit.md R229). -/
inductive SignFlag where
  | minus
  | zero
  | plus
  deriving DecidableEq, Repr, Inhabited

/-- ZONE_LAYOUT (30_encoding.md R103): the numbers of the characters whose bit-7 holds IA1, IA0, IB1, IB0
and BC. F3 to F0 and AC are fixed by R102. -/
structure ZoneLayout where
  ia1 : Nat
  ia0 : Nat
  ib1 : Nat
  ib0 : Nat
  bc : Nat
  deriving DecidableEq, Repr

/-- The default layout of 30_encoding.md R103. -/
def ZoneLayout.default : ZoneLayout := { ia1 := 5, ia0 := 6, ib1 := 7, ib0 := 8, bc := 9 }

/-- The five fields of the right half stand in five different characters among 5 to 9. -/
abbrev ZoneLayout.Legal (lay : ZoneLayout) : Prop :=
  (∀ k ∈ [lay.ia1, lay.ia0, lay.ib1, lay.ib0, lay.bc], 5 ≤ k ∧ k ≤ 9) ∧
    [lay.ia1, lay.ia0, lay.ib1, lay.ib0, lay.bc].Nodup

/-- The parameters of 00_scope.md R6 that belong to the whole machine. NPART is the number of
partitions that State lists. -/
structure Installation where
  /-- NMODULES. -/
  modules : Nat
  /-- COMMONSIZE. -/
  commonSize : Nat
  /-- PRIVBASE. -/
  privBase : Option Nat
  /-- ISDISC: the FAC device addresses that are discs. -/
  discs : List Nat
  /-- ZONE_LAYOUT. -/
  layout : ZoneLayout
  deriving DecidableEq, Repr

/-- TIMESLICE (70_reset_and_hazards.md R433): 37.5 milliseconds, in hundredths of a microsecond. -/
def Config.timeSlice : Nat := 3750000

/-- The lowest Common location a program can store into: the Protected Area is 0 to 299
(20_memory.md R71). -/
def Config.protectedEnd : Nat := 300

/-- A four-digit address reaches 0000 to 9999: no space has more locations (00_scope.md R6). -/
def Config.spaceLimit : Nat := 10000

/-- A free character (`draw(Character)`): by draw, by who draws (0 the instruction, q + 1 the IOC of
partition q), by position. Log 17, 18, 22, 37. -/
opaque Config.freeCharacter : Nat → Nat → Nat → Character

/-- A free bit (`draw(Bit)`, `draw(Bool)`): the sign of a zero sum, the sign of a Form Numeric with a
hyphen and no digit, the switch of a Link with LB = 8. Log 16, 20, 23. -/
opaque Config.freeBit : Nat → Bool

/-- The free flag of an unspecified result (40_add_subtract.md R146). Log 17. -/
opaque Config.freeFlag : Nat → FlagNumber

/-- The free flag of an unspecified edit (44_edit.md R229). Log 17. -/
opaque Config.freeSign : Nat → SignFlag

/-- The free answer of a FAC device. Log 29. -/
opaque Config.freeFac : Nat → FacAnswer

/-- The free events of an instruction boundary. Log 27. -/
opaque Config.freeBoundary : Nat → BoundaryInput

/-- Whether a length digit 0 counts as 10 (and 00 as 100) in the execution-time formulas: the source
does not say (70_reset_and_hazards.md R420). Log 39. -/
opaque Config.zeroLengthCountsFull : Bool

end Sys2Proof
end

