-- ==== Sys2Proof/Machine/Character.lean ====
section
/-! DEFINITION. The bits of a character, the characters the rules name, and decimal digits
(00_scope.md R8, R9, R11; 10_state.md R21 to R24). -/

namespace Sys2Proof.Machine

/-- bit-7, the upper zone bit (00_scope.md R9). -/
def bit7 (c : Character) : Bool := c.getLsbD 5

/-- bit-5, the lower zone bit (00_scope.md R9). -/
def bit5 (c : Character) : Bool := c.getLsbD 4

/-- The numeric portion as bits. -/
def numeric (c : Character) : Numeric := c.setWidth 4

/-- `num(c)`: the numeric portion as a number 0 to 15 (00_scope.md R9). -/
def num (c : Character) : Nat := (numeric c).toNat

/-- The character with these zone bits and this numeric portion. -/
def character (z7 z5 : Bool) (n : Numeric) : Character :=
  (BitVec.ofBool z7 ++ BitVec.ofBool z5 ++ n).cast (by decide)

/-- The character `mk(z7, z5, n)` (00_scope.md R9). -/
def mkChar (z7 z5 : Bool) (n : Nat) : Character := character z7 z5 (BitVec.ofNat 4 n)

/-- BLANK (10_state.md R23). -/
def BLANK : Character := 0
/-- COMMA (10_state.md R23). -/
def COMMA : Character := 12
/-- HYPHEN (10_state.md R23). -/
def HYPHEN : Character := 13
/-- PERIOD (10_state.md R23). -/
def PERIOD : Character := 14
/-- SLASH (10_state.md R23). -/
def SLASH : Character := 15
/-- ZERO, the graphic 0 (10_state.md R23). -/
def ZERO : Character := 16
/-- AT, the at sign (10_state.md R23). -/
def AT : Character := 32

/-- The graphics 0 to 9: codes 16 to 25 (46_form_numeric.md R252). -/
def isDigit (c : Character) : Bool := decide (16 ≤ c.toNat ∧ c.toNat ≤ 25)

/-- The characters P thru Y: codes 48 to 57 (46_form_numeric.md R251). -/
def isMinusDigit (c : Character) : Bool := decide (48 ≤ c.toNat ∧ c.toNat ≤ 57)

/-- The at sign of a control field (44_edit.md R222). -/
def isAt (c : Character) : Bool := c == AT

/-- Comma, period, hyphen or slash (44_edit.md R222). -/
def isPunct (c : Character) : Bool := c == COMMA || c == PERIOD || c == HYPHEN || c == SLASH

/-- Any character other than the at sign and punctuation (44_edit.md R222). -/
def isFiller (c : Character) : Bool := !(isAt c || isPunct c)

/-- `dec(L)`: the decimal value of digits, leftmost most significant (00_scope.md R11). -/
def dec (ds : List Nat) : Nat := ds.foldl (fun v d => 10 * v + d) 0

/-- `digits_n(v)`: the n decimal digits of v mod 10^n, leftmost most significant (00_scope.md R11). -/
def digits : Nat → Nat → List Nat
  | 0, _ => []
  | n + 1, v => v / 10 ^ n % 10 :: digits n v

/-- The sign of a numeric field: bit-7 of its rightmost character (10_state.md R24). -/
def signOf (field : List Character) : Bool := bit7 (field.getLastD BLANK)

/-- Every numeric portion is 0 to 9. -/
def allDecimal (field : List Character) : Bool := field.all (fun c => decide (num c < 10))

/-- The magnitude of a numeric field (10_state.md R24). -/
def magnitude (field : List Character) : Nat := dec (field.map num)

/-- The signed value of a numeric field (10_state.md R24). -/
def signedValue (field : List Character) : Int :=
  if signOf field then -(magnitude field : Int) else magnitude field

end Sys2Proof.Machine
end

