-- ==== Sys2Proof/Syntax.lean ====
section
/-! DEFINITION. The instructions: one constructor of `Instr` for each row of spec/opcode_table.json. -/

namespace Sys2Proof

/-- What IA or IB selects (30_encoding.md R107, Table G1-1). -/
inductive Index where
  | unindexed
  | one
  | two
  | three
  deriving DecidableEq, Repr

/-- An operand address of every instruction but Branch (20_memory.md R62): the C bit, the four-digit
address and the index register. -/
structure Operand where
  common : Bool
  addr : Nat
  index : Index
  deriving DecidableEq, Repr

/-- The numeric portions of four address characters, leftmost first, 0 to 15 each. -/
structure AddressDigits where
  d3 : Numeric
  d2 : Numeric
  d1 : Numeric
  d0 : Numeric
  deriving DecidableEq, Repr

/-- Address-A or Address-B of a Branch (41_branch.md R160): not indexed, and its digits are looked at
only when the half is used (R163(e)), so that the raw numeric portions are kept. -/
structure BranchAddress where
  common : Bool
  digits : AddressDigits
  deriving DecidableEq, Repr

/-- LB bit-1 of Read and Write (49_read_write.md R311): 0 the FAC, 1 the IOC. -/
inductive Channel where
  | fac
  | ioc
  deriving DecidableEq, Repr

/-- LB bit-4 of Read (49_read_write.md R311). -/
inductive FillMode where
  | fill
  | nonfill
  deriving DecidableEq, Repr

/-- LB bit-2 of Write (49_read_write.md R311). -/
inductive WriteKind where
  | plain
  | control
  deriving DecidableEq, Repr

/-- One constructor per row of spec/opcode_table.json. `la` and `lb` are the digits LA and LB;
the Branch rows have LA fixed and keep LB as its raw numeric portion. -/
inductive Instr where
  /-- F = 0 (49_read_write.md R330). -/
  | read (device : Nat) (channel : Channel) (mode : FillMode) (a b : Operand)
  /-- F = 1 (49_read_write.md R340). -/
  | write (device : Nat) (channel : Channel) (kind : WriteKind) (a b : Operand)
  /-- F = 2, not assigned (30_encoding.md R112). -/
  | unassigned2
  /-- F = 3, not assigned (30_encoding.md R112). -/
  | unassigned3
  /-- F = 4 (40_add_subtract.md R141). -/
  | add (la lb : Nat) (a b : Operand)
  /-- F = 5 (43_divide.md R201). -/
  | divide (la lb : Nat) (a b : Operand)
  /-- F = 6 (48_multiply.md R291). -/
  | multiply (la lb : Nat) (a b : Operand)
  /-- F = 7 (40_add_subtract.md R150). -/
  | subtract (la lb : Nat) (a b : Operand)
  /-- F = 8 (47_move.md R271). -/
  | moveCharacter (la lb : Nat) (a b : Operand)
  /-- F = 9 (47_move.md R280). -/
  | moveNumeric (la lb : Nat) (a b : Operand)
  /-- F = 10, not assigned (30_encoding.md R112). -/
  | unassigned10
  /-- F = 11, LA = 0: the left half never branches (41_branch.md R165). -/
  | branch0 (lb : Numeric) (a b : BranchAddress)
  /-- F = 11, LA = 1: branch to Address-A on flag 1 (41_branch.md R166). -/
  | branch1 (lb : Numeric) (a b : BranchAddress)
  /-- F = 11, LA = 2: on flag 2. -/
  | branch2 (lb : Numeric) (a b : BranchAddress)
  /-- F = 11, LA = 3: on flag 3. -/
  | branch3 (lb : Numeric) (a b : BranchAddress)
  /-- F = 11, LA = 4: on flag 4. -/
  | branch4 (lb : Numeric) (a b : BranchAddress)
  /-- F = 11, LA = 5: unconditionally (41_branch.md R167). -/
  | branch5 (lb : Numeric) (a b : BranchAddress)
  /-- F = 11, LA = 6: Link (41_branch.md R171). -/
  | link (lb : Numeric) (a b : BranchAddress)
  /-- F = 11, LA = 7: Branch on Service Request (41_branch.md R174). -/
  | serviceRequest (lb : Numeric) (a b : BranchAddress)
  /-- F = 11, LA = 8: branch and switch partitions (41_branch.md R168). -/
  | branch8 (lb : Numeric) (a b : BranchAddress)
  /-- F = 11, LA = 9: the left half never branches (41_branch.md R165). -/
  | branch9 (lb : Numeric) (a b : BranchAddress)
  /-- F = 12 (44_edit.md R221). -/
  | edit (la lb : Nat) (a b : Operand)
  /-- F = 13 (46_form_numeric.md R251). -/
  | formNumeric (la lb : Nat) (a b : Operand)
  /-- F = 14 (42_compare.md R191). -/
  | compare (la lb : Nat) (a b : Operand)
  /-- F = 15 (45_exchange.md R241). -/
  | exchange (la lb : Nat) (a b : Operand)
  deriving DecidableEq, Repr

end Sys2Proof
end

