-- ==== Sys2Proof/Decode.lean ====
section
/-! DEFINITION. The ten characters of an instruction, its fields, the decoder and the encoder
(30_encoding.md R100 to R122; 41_branch.md R163; 49_read_write.md R311, R312). -/

namespace Sys2Proof

open Sys2Proof.Machine

/-- The fields whose encoding can be rejected, in the order in which they are checked
(60_exceptions.md R362). -/
inductive EncodingField where
  | la
  | lb
  | aAddress
  | bAddress
  deriving DecidableEq, Repr

/-- Why the decoder rejects characters. -/
inductive DecodeError where
  /-- The list does not hold ten characters; an instruction that was fetched always does. -/
  | notTenCharacters
  /-- A field holds a value the source gives no meaning (30_encoding.md R113). -/
  | reservedEncoding (field : EncodingField)
  deriving DecidableEq, Repr

/-- The fields of an instruction (30_encoding.md R101, R102): numeric portions as they stand. -/
structure Fields where
  f : Numeric
  la : Numeric
  a : AddressDigits
  lb : Numeric
  b : AddressDigits
  ac : Bool
  bc : Bool
  ia : Index
  ib : Index
  deriving DecidableEq, Repr

/-- Table G1-1 (30_encoding.md R107): the register IA1 IA0 selects. -/
def Index.ofBits : Bool → Bool → Index
  | false, false => .unindexed
  | false, true => .one
  | true, false => .two
  | true, true => .three

/-- IA1 or IB1. -/
def Index.upper : Index → Bool
  | .unindexed => false
  | .one => false
  | .two => true
  | .three => true

/-- IA0 or IB0. -/
def Index.lower : Index → Bool
  | .unindexed => false
  | .one => true
  | .two => false
  | .three => true

/-- F = F3 F2 F1 F0 (30_encoding.md R102). -/
def operationCode (f3 f2 f1 f0 : Bool) : Numeric :=
  (BitVec.ofBool f3 ++ BitVec.ofBool f2 ++ BitVec.ofBool f1 ++ BitVec.ofBool f0).cast (by decide)

/-- The fields of ten characters under a zone layout (30_encoding.md R109). bit-5 is ignored (R104). -/
def fieldsOf (lay : ZoneLayout) (chars : List Character) : Option Fields :=
  match chars with
  | [c0, c1, c2, c3, c4, c5, c6, c7, c8, c9] =>
    let zone := fun k => bit7 (chars.getD k BLANK)
    some
      { f := operationCode (bit7 c0) (bit7 c1) (bit7 c2) (bit7 c3)
        la := numeric c0
        a := { d3 := numeric c1, d2 := numeric c2, d1 := numeric c3, d0 := numeric c4 }
        lb := numeric c5
        b := { d3 := numeric c6, d2 := numeric c7, d1 := numeric c8, d0 := numeric c9 }
        ac := bit7 c4
        bc := zone lay.bc
        ia := Index.ofBits (zone lay.ia1) (zone lay.ia0)
        ib := Index.ofBits (zone lay.ib1) (zone lay.ib0) }
  | _ => none

/-- The four digits as a decimal number (30_encoding.md R105). -/
def AddressDigits.value (d : AddressDigits) : Nat :=
  1000 * d.d3.toNat + 100 * d.d2.toNat + 10 * d.d1.toNat + d.d0.toNat

/-- Every digit is 0 to 9 (30_encoding.md R105). -/
def AddressDigits.decimal (d : AddressDigits) : Bool :=
  decide (d.d3.toNat < 10 ∧ d.d2.toNat < 10 ∧ d.d1.toNat < 10 ∧ d.d0.toNat < 10)

/-- LA or LB as a digit (30_encoding.md R106). -/
def checkDigit (field : EncodingField) (n : Numeric) : Except DecodeError Nat :=
  if n.toNat < 10 then .ok n.toNat else .error (.reservedEncoding field)

/-- An operand address, its digits checked (30_encoding.md R105). -/
def checkOperand (field : EncodingField) (common : Bool) (d : AddressDigits) (index : Index) :
    Except DecodeError Operand :=
  if d.decimal then .ok { common := common, addr := d.value, index := index }
  else .error (.reservedEncoding field)

/-- An instruction with the digits LA and LB and two operands: the checks of 30_encoding.md R105, R106
in the order of 60_exceptions.md R362. -/
def decodeLengths (build : Nat → Nat → Operand → Operand → Instr) (fl : Fields) :
    Except DecodeError Instr := do
  let la ← checkDigit .la fl.la
  let lb ← checkDigit .lb fl.lb
  let a ← checkOperand .aAddress fl.ac fl.a fl.ia
  let b ← checkOperand .bAddress fl.bc fl.b fl.ib
  return build la lb a b

/-- LB bit-1 of Read and Write (49_read_write.md R311). -/
def channelOf (lb : Numeric) : Channel := if lb.getLsbD 0 then .ioc else .fac

/-- Read: LB bit-2 and bit-3 have no meaning (49_read_write.md R312). -/
def decodeRead (fl : Fields) : Except DecodeError Instr := do
  let device ← checkDigit .la fl.la
  if 2 ≤ fl.lb.toNat % 8 then .error (.reservedEncoding .lb)
  else
    let a ← checkOperand .aAddress fl.ac fl.a fl.ia
    let b ← checkOperand .bAddress fl.bc fl.b fl.ib
    return .read device (channelOf fl.lb) (if fl.lb.getLsbD 3 then .nonfill else .fill) a b

/-- Write: LB bit-3 and bit-4 have no meaning (49_read_write.md R312). -/
def decodeWrite (fl : Fields) : Except DecodeError Instr := do
  let device ← checkDigit .la fl.la
  if 4 ≤ fl.lb.toNat then .error (.reservedEncoding .lb)
  else
    let a ← checkOperand .aAddress fl.ac fl.a fl.ia
    let b ← checkOperand .bAddress fl.bc fl.b fl.ib
    return .write device (channelOf fl.lb) (if fl.lb.getLsbD 1 then .control else .plain) a b

/-- Branch: LA selects the variant, 10 to 15 has no meaning (41_branch.md R163(a)); everything else is
looked at when the instruction runs (R163(b) to (e)). -/
def decodeBranch (fl : Fields) : Except DecodeError Instr :=
  let a : BranchAddress := { common := fl.ac, digits := fl.a }
  let b : BranchAddress := { common := fl.bc, digits := fl.b }
  match fl.la.toNat with
  | 0 => .ok (.branch0 fl.lb a b)
  | 1 => .ok (.branch1 fl.lb a b)
  | 2 => .ok (.branch2 fl.lb a b)
  | 3 => .ok (.branch3 fl.lb a b)
  | 4 => .ok (.branch4 fl.lb a b)
  | 5 => .ok (.branch5 fl.lb a b)
  | 6 => .ok (.link fl.lb a b)
  | 7 => .ok (.serviceRequest fl.lb a b)
  | 8 => .ok (.branch8 fl.lb a b)
  | 9 => .ok (.branch9 fl.lb a b)
  | _ => .error (.reservedEncoding .la)

/-- The operation-code map (30_encoding.md R110). F is examined first; for F = 2, 3, 10 nothing else is
checked (R109). F has four bits, so that the last arm is F = 15. -/
def instrOf (fl : Fields) : Except DecodeError Instr :=
  match fl.f.toNat with
  | 0 => decodeRead fl
  | 1 => decodeWrite fl
  | 2 => .ok .unassigned2
  | 3 => .ok .unassigned3
  | 4 => decodeLengths .add fl
  | 5 => decodeLengths .divide fl
  | 6 => decodeLengths .multiply fl
  | 7 => decodeLengths .subtract fl
  | 8 => decodeLengths .moveCharacter fl
  | 9 => decodeLengths .moveNumeric fl
  | 10 => .ok .unassigned10
  | 11 => decodeBranch fl
  | 12 => decodeLengths .edit fl
  | 13 => decodeLengths .formNumeric fl
  | 14 => decodeLengths .compare fl
  | _ => decodeLengths .exchange fl

/-- The decoder: total on any characters. -/
def decode (lay : ZoneLayout) (chars : List Character) : Except DecodeError Instr :=
  match fieldsOf lay chars with
  | none => .error .notTenCharacters
  | some fl => instrOf fl

/-! The encoder. -/

/-- bit-7 of character k of the right half under a zone layout (30_encoding.md R103). -/
def rightZone (lay : ZoneLayout) (fl : Fields) (k : Nat) : Bool :=
  if k = lay.ia1 then fl.ia.upper
  else if k = lay.ia0 then fl.ia.lower
  else if k = lay.ib1 then fl.ib.upper
  else if k = lay.ib0 then fl.ib.lower
  else if k = lay.bc then fl.bc
  else false

/-- The ten characters of the fields; every bit-5 is written as 1 (30_encoding.md R104, R121). -/
def charactersOf (lay : ZoneLayout) (fl : Fields) : List Character :=
  [ character (fl.f.getLsbD 3) true fl.la,
    character (fl.f.getLsbD 2) true fl.a.d3,
    character (fl.f.getLsbD 1) true fl.a.d2,
    character (fl.f.getLsbD 0) true fl.a.d1,
    character fl.ac true fl.a.d0,
    character (rightZone lay fl 5) true fl.lb,
    character (rightZone lay fl 6) true fl.b.d3,
    character (rightZone lay fl 7) true fl.b.d2,
    character (rightZone lay fl 8) true fl.b.d1,
    character (rightZone lay fl 9) true fl.b.d0 ]

/-- The four digits of an address (30_encoding.md R105). -/
def AddressDigits.ofNat (n : Nat) : AddressDigits :=
  { d3 := BitVec.ofNat 4 (n / 1000 % 10)
    d2 := BitVec.ofNat 4 (n / 100 % 10)
    d1 := BitVec.ofNat 4 (n / 10 % 10)
    d0 := BitVec.ofNat 4 (n % 10) }

/-- The fields of an instruction with operands. -/
def operandFields (f la lb : Numeric) (a b : Operand) : Fields :=
  { f := f
    la := la
    a := AddressDigits.ofNat a.addr
    lb := lb
    b := AddressDigits.ofNat b.addr
    ac := a.common
    bc := b.common
    ia := a.index
    ib := b.index }

/-- The fields of an instruction with the digits LA and LB and two operands. -/
def lengthFields (f : Numeric) (la lb : Nat) (a b : Operand) : Fields :=
  operandFields f (BitVec.ofNat 4 la) (BitVec.ofNat 4 lb) a b

/-- The fields of a Branch: F = 11, IA and IB ignored and written as 0 (41_branch.md R160). -/
def branchFields (la lb : Numeric) (a b : BranchAddress) : Fields :=
  { f := 11, la := la, a := a.digits, lb := lb, b := b.digits, ac := a.common, bc := b.common,
    ia := .unindexed, ib := .unindexed }

/-- The fields of an unassigned operation code, everything but F zero (30_encoding.md R112). -/
def bareFields (f : Numeric) : Fields :=
  { f := f, la := 0, a := AddressDigits.ofNat 0, lb := 0, b := AddressDigits.ofNat 0,
    ac := false, bc := false, ia := .unindexed, ib := .unindexed }

/-- LB of Read: bit-1 the channel, bit-4 the fill mode (49_read_write.md R311). -/
def readModeBits (channel : Channel) (mode : FillMode) : Numeric :=
  match channel, mode with
  | .fac, .fill => 0
  | .ioc, .fill => 1
  | .fac, .nonfill => 8
  | .ioc, .nonfill => 9

/-- LB of Write: bit-1 the channel, bit-2 write control (49_read_write.md R311). -/
def writeModeBits (channel : Channel) (kind : WriteKind) : Numeric :=
  match channel, kind with
  | .fac, .plain => 0
  | .ioc, .plain => 1
  | .fac, .control => 2
  | .ioc, .control => 3

/-- The fields of an instruction (30_encoding.md R110, R111). -/
def Instr.fields : Instr → Fields
  | .read device channel mode a b =>
    operandFields 0 (BitVec.ofNat 4 device) (readModeBits channel mode) a b
  | .write device channel kind a b =>
    operandFields 1 (BitVec.ofNat 4 device) (writeModeBits channel kind) a b
  | .unassigned2 => bareFields 2
  | .unassigned3 => bareFields 3
  | .add la lb a b => lengthFields 4 la lb a b
  | .divide la lb a b => lengthFields 5 la lb a b
  | .multiply la lb a b => lengthFields 6 la lb a b
  | .subtract la lb a b => lengthFields 7 la lb a b
  | .moveCharacter la lb a b => lengthFields 8 la lb a b
  | .moveNumeric la lb a b => lengthFields 9 la lb a b
  | .unassigned10 => bareFields 10
  | .branch0 lb a b => branchFields 0 lb a b
  | .branch1 lb a b => branchFields 1 lb a b
  | .branch2 lb a b => branchFields 2 lb a b
  | .branch3 lb a b => branchFields 3 lb a b
  | .branch4 lb a b => branchFields 4 lb a b
  | .branch5 lb a b => branchFields 5 lb a b
  | .link lb a b => branchFields 6 lb a b
  | .serviceRequest lb a b => branchFields 7 lb a b
  | .branch8 lb a b => branchFields 8 lb a b
  | .branch9 lb a b => branchFields 9 lb a b
  | .edit la lb a b => lengthFields 12 la lb a b
  | .formNumeric la lb a b => lengthFields 13 la lb a b
  | .compare la lb a b => lengthFields 14 la lb a b
  | .exchange la lb a b => lengthFields 15 la lb a b

/-- The encoder: the ten characters of an instruction (30_encoding.md R121). -/
def encode (lay : ZoneLayout) (i : Instr) : List Character := charactersOf lay i.fields

/-! The 60-bit word of spec/opcode_table.json. -/

/-- Character k of the 60-bit word (30_encoding.md R122): word bits 59-6k to 54-6k. -/
def wordCharacter (w k : Nat) : Character := BitVec.ofNat 6 (w / 2 ^ (54 - 6 * k))

/-- The ten characters of a word of which the table gives `nbits` bits, the bits above them 0. -/
def wordCharacters (nbits w : Nat) : List Character :=
  let v := w % 2 ^ nbits
  [wordCharacter v 0, wordCharacter v 1, wordCharacter v 2, wordCharacter v 3, wordCharacter v 4,
    wordCharacter v 5, wordCharacter v 6, wordCharacter v 7, wordCharacter v 8, wordCharacter v 9]

/-- The instruction the decoder reads from a word of spec/opcode_table.json (default ZONE_LAYOUT). -/
def decodeTableWord (nbits w : Nat) : Option Instr :=
  match decode ZoneLayout.default (wordCharacters nbits w) with
  | .ok i => some i
  | .error _ => none

end Sys2Proof
end

