-- ==== Sys2Proof/Machine/State.lean ====
section
/-! DEFINITION. The state of the machine (10_state.md), its faults (60_exceptions.md R361) and the state at
reset (10_state.md R50, 70_reset_and_hazards.md R401). -/

namespace Sys2Proof.Machine

/-- Main Memory: pairs of a location key and a character, keys strictly rising, no BLANK listed. The key
of a location is `Space.key`. -/
abbrev Memory := List Host.Cell

/-- A space of Main Memory (10_state.md R25): Common, or the storage of one partition. -/
inductive Space where
  | common
  | part (q : Nat)
  deriving DecidableEq, Repr

/-- A location of a space. -/
structure Place where
  space : Space
  loc : Nat
  deriving DecidableEq, Repr

/-- The instruction address of a partition (10_state.md R35): in Common or in the partition itself. -/
structure InstrAddress where
  common : Bool
  loc : Nat
  deriving DecidableEq, Repr

/-- The Condition Code (10_state.md R38): four flags, not a number. -/
structure ConditionCode where
  one : Bool
  two : Bool
  three : Bool
  four : Bool
  deriving DecidableEq, Repr

/-- The direction and mode of an IOC operation (49_read_write.md R322). -/
inductive Direction where
  | read (mode : FillMode)
  | write (kind : WriteKind)
  deriving DecidableEq, Repr

/-- The record of an IOC operation in progress (10_state.md R42, 49_read_write.md R322). -/
structure IocOperation where
  direction : Direction
  device : Nat
  /-- the area is in Common -/
  common : Bool
  /-- register A: the location of the next character -/
  next : Nat
  /-- register B: the characters still to transfer -/
  left : Nat
  /-- the leftmost location of the area as issued -/
  first : Nat
  /-- the count as issued -/
  total : Nat
  /-- the outcome, once the transfer has ended -/
  done : Option DeviceOutcome
  deriving DecidableEq, Repr

/-- What the installation fixes for a partition (00_scope.md R6), and STOP (60_exceptions.md R386). -/
structure PartitionSetting where
  size : Nat
  privileged : Bool
  stop : List InstrAddress
  deriving DecidableEq, Repr

/-- A partition with its IOC (60_exceptions.md R374). -/
structure Partition where
  setting : PartitionSetting
  /-- P -/
  pc : InstrAddress
  /-- the Condition Code -/
  cc : ConditionCode
  /-- IO: the operation in progress -/
  io : Option IocOperation
  /-- the IOC's buffer and its signal to the CPU -/
  signal : Option IocSignal
  /-- SRQ: the device number held for Branch on Service Request -/
  srq : Option Nat
  /-- POLL: where polling resumes -/
  poll : Nat
  deriving DecidableEq, Repr

/-- A bound disc (10_state.md R44): named by the FAC device address and the device digit of the disc
address (49_read_write.md R319), and the partition it is bound to. -/
structure DiscBinding where
  device : Nat
  unit : Nat
  partition : Nat
  deriving DecidableEq, Repr

/-- An output event (49_read_write.md R345): a character from the IOC of a partition, a character from the
FAC, or a disc record with its six address characters. -/
inductive OutputEvent where
  | ioc (partition device : Nat) (kind : WriteKind) (c : Character)
  | fac (device : Nat) (kind : WriteKind) (c : Character)
  | disc (device unit : Nat) (address : List Character) (record : List Character)
  deriving DecidableEq, Repr

/-- The state of the whole machine. -/
structure State where
  /-- the installation's settings; no step changes them -/
  inst : Installation
  /-- the partitions, numbered from 0; NPART is their number -/
  parts : List Partition
  /-- HOST: the partition in control -/
  host : Nat
  /-- the control timer, hundredths of a microsecond -/
  timer : Nat
  /-- Main Memory -/
  mem : Memory
  /-- BOUND: the discs that are bound -/
  bound : List DiscBinding
  /-- what the FAC answers to the coming instruction; set by the boundary before it; the model's own -/
  fac : Option FacAnswer
  /-- the output events, oldest first; the model's observation -/
  outputs : List OutputEvent
  /-- what the outside world does at the coming boundaries; the model's own -/
  inputs : List BoundaryInput
  /-- the counter of the free values; the model's own -/
  draws : Nat
  deriving DecidableEq, Repr

/-- Where a fault is raised: the host partition and its P (60_exceptions.md R361). -/
structure FaultSite where
  partition : Nat
  pc : InstrAddress
  deriving DecidableEq, Repr

/-- The model faults of 60_exceptions.md R361: terminal and precise (R363). The source does not say what
the hardware does in these cases, so that stopping is safe: nothing can be proved of what follows. -/
inductive Fault where
  /-- Code 1. An instruction with F = 2, 3 or 10 is executed (30_encoding.md R112). Safe. -/
  | illegalOpcode (site : FaultSite)
  /-- Code 2. Decoding, a Branch half that is used, Read, Write: a field value without a stated meaning
  (30_encoding.md R105, R106; 41_branch.md R163; 49_read_write.md R312). Safe. -/
  | reservedEncoding (site : FaultSite)
  /-- Code 3. Fetch and every instruction: an address or count above 9999 after indexing, a field outside
  the installed space, a return address above 9999 (20_memory.md R64, R74; 10_state.md R37;
  41_branch.md R171; 49_read_write.md R314). Safe. -/
  | addressRange (site : FaultSite)
  /-- Code 4. Every instruction that stores: a store into Common 0 to 299 (20_memory.md R71). Safe. -/
  | protectedStore (site : FaultSite)
  /-- Code 5. Fetch and every instruction: a partition that is not privileged touches the Privileged Area
  (20_memory.md R72). Safe. -/
  | privilegedAccess (site : FaultSite)
  /-- Code 6. Fetch: the location is not a multiple of 10 (10_state.md R37). Safe. -/
  | misalignedInstruction (site : FaultSite)
  /-- Code 7. An indexed operand: the index register holds a numeric portion of 10 to 15
  (10_state.md R31). Safe. -/
  | nonDecimalDigit (site : FaultSite)
  /-- Code 8. Read and Write through the FAC with device 5, 6, 7 or 9 (49_read_write.md R313). Safe. -/
  | deviceUnknown (site : FaultSite)
  deriving DecidableEq, Repr

/-- The kinds of model fault, as the table of 60_exceptions.md R361 names them. -/
inductive FaultKind where
  | illegalOpcode
  | reservedEncoding
  | addressRange
  | protectedStore
  | privilegedAccess
  | misalignedInstruction
  | nonDecimalDigit
  | deviceUnknown
  deriving DecidableEq, Repr

/-- Refusals. Every instruction has its meaning, so that none is raised. -/
inductive Refusal where
  /-- An instruction without a meaning in this model, raised by exec only. Safe. -/
  | notModelled (mnemonic : String)
  deriving DecidableEq, Repr

/-- The partition of the reset state. Log 1 to 4. -/
def Partition.reset : Partition :=
  { setting := { size := 10000, privileged := false, stop := [] }
    pc := { common := false, loc := 0 }
    cc := { one := false, two := false, three := false, four := false }
    io := none
    signal := none
    srq := none
    poll := 0 }

/-- The machine right after reset. The source gives no reset value for any state (10_state.md R50) and takes
the launch state as a parameter; `io` and `bound` are as R50 says, memory lists nothing, every other
field has the value its log entry names (log 1 to 5, 7, 26, 27, 29, 38, 41). -/
def State.reset : State :=
  { inst :=
      { modules := 2, commonSize := 10000, privBase := none, discs := [0],
        layout := ZoneLayout.default }
    parts := [Partition.reset]
    host := 0
    timer := 0
    mem := []
    bound := []
    fac := none
    outputs := []
    inputs := []
    draws := 0 }

end Sys2Proof.Machine
end

