-- ==== Sys2Proof/Machine/Flags.lean ====
section
/-! DEFINITION. The sets of Condition Code flags the instructions write (10_state.md R38, R39, Table G3-1). -/

namespace Sys2Proof.Machine

/-- Flag k of the Condition Code. -/
def ConditionCode.flag (cc : ConditionCode) : FlagNumber → Bool
  | .one => cc.one
  | .two => cc.two
  | .three => cc.three
  | .four => cc.four

/-- The code with exactly one flag ON. -/
def ConditionCode.only : FlagNumber → ConditionCode
  | .one => { one := true, two := false, three := false, four := false }
  | .two => { one := false, two := true, three := false, four := false }
  | .three => { one := false, two := false, three := true, four := false }
  | .four => { one := false, two := false, three := false, four := true }

/-- Flags 2 and 4: Compare found the operands identical (42_compare.md R191). -/
def ConditionCode.equal : ConditionCode := { one := false, two := true, three := false, four := true }

/-- Flags 3 and 4: Compare found Operand-A greater (42_compare.md R191). -/
def ConditionCode.greater : ConditionCode := { one := false, two := false, three := true, four := true }

/-- MINUS, ZERO, PLUS of a result whose sign does not depend on its being zero (Edit, Form Numeric,
Multiply, Divide). -/
def ConditionCode.ofSign (zero negative : Bool) : ConditionCode :=
  if zero then .only .two else if negative then .only .one else .only .three

/-- MINUS, ZERO, PLUS of a signed number (Add, Subtract). -/
def ConditionCode.ofInt (r : Int) : ConditionCode := ConditionCode.ofSign (decide (r = 0)) (decide (r < 0))

/-- ERROR, NORMAL, FLAG, FAULT of Read and Write (49_read_write.md R327). -/
def outcomeFlag : DeviceOutcome → FlagNumber
  | .error => .one
  | .normal => .two
  | .flag => .three
  | .fault => .four

/-- An abnormal end as an outcome. -/
def abnormalOutcome : AbnormalEnd → DeviceOutcome
  | .error => .error
  | .flag => .flag
  | .fault => .fault

/-- The flag of an unspecified edit (44_edit.md R229). -/
def editFlag : SignFlag → FlagNumber
  | .minus => .one
  | .zero => .two
  | .plus => .three

end Sys2Proof.Machine
end

