-- ==== Sys2Proof/Machine/Memory.lean ====
section
/-! DEFINITION. Main Memory as data: reading and writing one character and one field, and the canonical
form (10_state.md R20, R25; 20_memory.md R60, R61). -/

namespace Sys2Proof.Machine

/-- What a location reads as that nothing has written: BLANK. The source gives no contents after power-on;
log 5. -/
def Memory.unwritten : Character := BLANK

/-- The key of a location. The spaces are disjoint (10_state.md R25) and no space has more than 10,000
locations; log 6. -/
def Space.key : Space → Nat → Nat
  | .common, a => a
  | .part q, a => Config.spaceLimit * (q + 1) + a

/-- The key of a place. -/
def Place.key (p : Place) : Nat := p.space.key p.loc

/-- One character at a key. -/
def Memory.read : Memory → Nat → Character
  | [], _ => Memory.unwritten
  | (a, b) :: rest, k => if a = k then b.setWidth 6 else Memory.read rest k

/-- One character stored at a key; the canonical form is kept. -/
def Memory.write : Memory → Nat → Character → Memory
  | [], k, c => if c = Memory.unwritten then [] else [(k, c.setWidth 8)]
  | (a, b) :: rest, k, c =>
    if k < a then
      if c = Memory.unwritten then (a, b) :: rest else (k, c.setWidth 8) :: (a, b) :: rest
    else if k = a then
      if c = Memory.unwritten then rest else (k, c.setWidth 8) :: rest
    else (a, b) :: Memory.write rest k c

/-- The n characters from a key on, leftmost first (20_memory.md R61). -/
def Memory.readField (m : Memory) : Nat → Nat → List Character
  | _, 0 => []
  | k, n + 1 => m.read k :: Memory.readField m (k + 1) n

/-- A list of characters stored from a key on, leftmost first. -/
def Memory.writeField : Memory → Nat → List Character → Memory
  | m, _, [] => m
  | m, k, c :: cs => Memory.writeField (m.write k c) (k + 1) cs

/-- The canonical form from a least key on: keys strictly rising, every entry a character other than what
an unlisted location reads as. -/
def Memory.wfFrom : Nat → Memory → Bool
  | _, [] => true
  | least, (a, b) :: rest =>
    decide (least ≤ a) && decide (b.toNat < 64) && decide (b.setWidth 6 ≠ Memory.unwritten) &&
      Memory.wfFrom (a + 1) rest

/-- The canonical form of a memory. -/
def Memory.wf (m : Memory) : Bool := Memory.wfFrom 0 m

end Sys2Proof.Machine
end

