-- ==== Sys2Proof/Machine/Ops.lean ====
section
/-! DEFINITION. The shared operations: partitions, access checks, fields of memory, finishing an instruction,
raising a fault, switching partitions. -/

namespace Sys2Proof.Machine

/-! Partitions. -/

/-- What stands for a partition that the installation does not have: no storage, no operation. -/
def Partition.absent : Partition :=
  { Partition.reset with setting := { size := 0, privileged := false, stop := [] } }

/-- Partition q. -/
def State.part (s : State) (q : Nat) : Partition := s.parts.getD q Partition.absent

/-- The host partition (10_state.md R46). -/
def State.me (s : State) : Partition := s.part s.host

/-- A change of partition q; nothing if there is no such partition. -/
def State.modifyPart (s : State) (q : Nat) (f : Partition → Partition) : State :=
  { s with parts := s.parts.modify q f }

/-- A change of the host partition. -/
def State.modifyMe (s : State) (f : Partition → Partition) : State := s.modifyPart s.host f

/-- `sp(c)` for the host partition (00_scope.md R11). -/
def State.space (s : State) (common : Bool) : Space := if common then .common else .part s.host

/-- A place named by a C bit and a location, for the host partition. -/
def State.place (s : State) (common : Bool) (loc : Nat) : Place := { space := s.space common, loc := loc }

/-! Bounds, protection and privilege (20_memory.md R71 to R75). -/

/-- The number of locations of a space: COMMONSIZE or PARTSIZE, at most 10,000 (00_scope.md R6; log 42). -/
def State.sizeOf (s : State) : Space → Nat
  | .common => min s.inst.commonSize Config.spaceLimit
  | .part q => min (s.part q).setting.size Config.spaceLimit

/-- The n characters at the place all exist (20_memory.md R74). -/
abbrev State.InRange (s : State) (p : Place) (n : Nat) : Prop := p.loc + n ≤ s.sizeOf p.space

/-- None of the n characters at the place lies in the Protected Area (20_memory.md R71). -/
abbrev State.Storable (_ : State) (p : Place) : Prop :=
  ¬ (p.space = .common ∧ p.loc < Config.protectedEnd)

/-- None of the n characters at the place lies in the Privileged Area, or the host partition is privileged
(20_memory.md R72). -/
abbrev State.Accessible (s : State) (p : Place) (n : Nat) : Prop :=
  ¬ (p.space = .common ∧ s.inst.privBase.any (fun base => decide (base < p.loc + n)) = true ∧
      s.me.setting.privileged = false)

/-- Everything that a read of n characters needs (20_memory.md R75). -/
abbrev State.CanRead (s : State) (p : Place) (n : Nat) : Prop := s.InRange p n ∧ s.Accessible p n

/-- Everything that a store of n characters needs (20_memory.md R75). -/
abbrev State.CanWrite (s : State) (p : Place) (n : Nat) : Prop :=
  s.InRange p n ∧ s.Storable p ∧ s.Accessible p n

/-- The checks of MemRead, in the order of 60_exceptions.md R362. -/
def State.checkRead (s : State) (p : Place) (n : Nat) : Except FaultKind Unit :=
  if ¬ s.InRange p n then .error .addressRange
  else if ¬ s.Accessible p n then .error .privilegedAccess
  else .ok ()

/-- The checks of MemWrite, in the order of 60_exceptions.md R362. -/
def State.checkWrite (s : State) (p : Place) (n : Nat) : Except FaultKind Unit :=
  if ¬ s.InRange p n then .error .addressRange
  else if ¬ s.Storable p then .error .protectedStore
  else if ¬ s.Accessible p n then .error .privilegedAccess
  else .ok ()

/-! Fields of memory. -/

/-- The n characters at a place, leftmost first (20_memory.md R61). -/
def State.field (s : State) (p : Place) (n : Nat) : List Character := s.mem.readField p.key n

/-- Main Memory with characters stored at a place, leftmost first. -/
def State.stored (s : State) (p : Place) (chars : List Character) : Memory := s.mem.writeField p.key chars

/-- Two fields share a location (20_memory.md R78). -/
def overlap (p : Place) (n : Nat) (q : Place) (m : Nat) : Bool :=
  decide (p.space = q.space ∧ p.loc < q.loc + m ∧ q.loc < p.loc + n)

/-- n free characters of the instruction in execution (`draw(list of n characters)`). -/
def freeField (draw n : Nat) : List Character := (List.range n).map (Config.freeCharacter draw 0)

/-! Finishing an instruction. -/

/-- The next sequential instruction (10_state.md R36). -/
def InstrAddress.next (p : InstrAddress) : InstrAddress := { p with loc := p.loc + 10 }

/-- P passes to an instruction address. -/
def State.goto (s : State) (p : InstrAddress) : State := s.modifyMe (fun h => { h with pc := p })

/-- P passes to the next sequential instruction (10_state.md R36). -/
def State.advance (s : State) : State := s.goto s.me.pc.next

/-- `CC <- S` (00_scope.md R11): all four flags replaced. -/
def State.setCC (s : State) (cc : ConditionCode) : State := s.modifyMe (fun h => { h with cc := cc })

/-- Main Memory replaced. -/
def State.setMem (s : State) (m : Memory) : State := { s with mem := m }

/-- Output events appended (49_read_write.md R345). -/
def State.emit (s : State) (events : List OutputEvent) : State := { s with outputs := s.outputs ++ events }

/-- The end of every instruction but Branch and the channel instructions: memory as stored, the Condition
Code written, P advanced (10_state.md R36, R39). -/
def State.finish (s : State) (m : Memory) (cc : ConditionCode) : State :=
  ((s.setMem m).setCC cc).advance

/-! Faults: the one way an instruction stops (60_exceptions.md R361 to R363). -/

/-- A fault of a kind at a site. -/
def FaultKind.at (kind : FaultKind) (site : FaultSite) : Fault :=
  match kind with
  | .illegalOpcode => .illegalOpcode site
  | .reservedEncoding => .reservedEncoding site
  | .addressRange => .addressRange site
  | .protectedStore => .protectedStore site
  | .privilegedAccess => .privilegedAccess site
  | .misalignedInstruction => .misalignedInstruction site
  | .nonDecimalDigit => .nonDecimalDigit site
  | .deviceUnknown => .deviceUnknown site

/-- The code numbers of 60_exceptions.md R361. -/
def Fault.code : Fault → Nat
  | .illegalOpcode _ => 1
  | .reservedEncoding _ => 2
  | .addressRange _ => 3
  | .protectedStore _ => 4
  | .privilegedAccess _ => 5
  | .misalignedInstruction _ => 6
  | .nonDecimalDigit _ => 7
  | .deviceUnknown _ => 8

/-- `raise Fault(kind)`: the machine stops, the fault records the host partition and its P, and no state is
changed (60_exceptions.md R361, R363). There is no handler and no return (R364). -/
def State.raise (s : State) (kind : FaultKind) : Host.Outcome State Fault Refusal :=
  .fault (kind.at { partition := s.host, pc := s.me.pc })

/-- The outcome of an instruction whose checks and effect were computed. -/
def State.outcome (s : State) : Except FaultKind State → Host.Outcome State Fault Refusal
  | .ok t => .next t
  | .error kind => s.raise kind

/-! Partition switching (60_exceptions.md R370 to R376). -/

/-- The next partition in round-robin sequence (60_exceptions.md R373). -/
def State.nextPartition (s : State) : Nat := (s.host + 1) % s.parts.length

/-- Control passes to the next partition, whose continuous control begins (60_exceptions.md R372, R375). Its P
and Condition Code are its own fields, so that nothing is copied. The rest of the loop of R372 (the
boundary, and passing on from a partition that waits) is the step's. -/
def State.switchPartition (s : State) : State := { s with host := s.nextPartition, timer := 0 }

/-- The host partition has been in continuous control for more than 37.5 milliseconds (41_branch.md R177). -/
def State.sliceOver (s : State) : Bool := decide (Config.timeSlice < s.timer)

end Sys2Proof.Machine
end

