-- ==== Sys2Proof/Machine/Operands.lean ====
section
/-! DEFINITION. Operand forms: lengths, index registers, effective addresses, counts and branch targets. -/

namespace Sys2Proof.Machine

/-- `len1(d)`: a one-digit length, 0 meaning 10 (00_scope.md R11, 30_encoding.md R106). -/
def len1 (d : Nat) : Nat := if d = 0 then 10 else d

/-- `len2(t, u)`: a two-digit length, 00 meaning 100 (00_scope.md R11, 30_encoding.md R106). -/
def len2 (t u : Nat) : Nat := if 10 * t + u = 0 then 100 else 10 * t + u

/-- The number of an index register, 0 for none (30_encoding.md R107). -/
def Index.number : Index → Nat
  | .unindexed => 0
  | .one => 1
  | .two => 2
  | .three => 3

/-- Where index register i of the host partition lies: locations 10i+1 to 10i+4 (10_state.md R30). -/
def State.indexPlace (s : State) (i : Index) : Place :=
  { space := .part s.host, loc := 10 * Index.number i + 1 }

/-- `x[i]` (10_state.md R31): the four numeric portions as a decimal number, zone bits ignored; 0 without
indexing. A register outside the installed partition is an AddressRange, ranked with the NonDecimalDigit of the
same register: the register of IA before that of IB (DESIGN CHOICE, safe: log 46; 60_exceptions.md R362 does not
rank it). -/
def State.indexValue (s : State) (i : Index) : Except FaultKind Nat :=
  match i with
  | .unindexed => .ok 0
  | _ =>
    if ¬ s.InRange (s.indexPlace i) 4 then .error .addressRange
    else if allDecimal (s.field (s.indexPlace i) 4) then .ok (magnitude (s.field (s.indexPlace i) 4))
    else .error .nonDecimalDigit

/-- An address or count plus an index register: at most 9999 (20_memory.md R64, 49_read_write.md R314). -/
def addressSum (a x : Nat) : Except FaultKind Nat :=
  if a + x ≤ 9999 then .ok (a + x) else .error .addressRange

/-- EA_A and EA_B (20_memory.md R62), both formed before any operand is touched (R63), the checks in the order
of 60_exceptions.md R362. -/
def State.effective (s : State) (a b : Operand) : Except FaultKind (Place × Place) := do
  let xa ← s.indexValue a.index
  let xb ← s.indexValue b.index
  let ea ← addressSum a.addr xa
  let eb ← addressSum b.addr xb
  return (s.place a.common ea, s.place b.common eb)

/-- The effective count of Read and Write: 0000 is 10,000 (49_read_write.md R314). -/
def countOf (sum : Nat) : Nat := if sum = 0 then 10000 else sum

/-- Four address digits of a Branch half that is used, checked now (30_encoding.md R105, 41_branch.md
R163(e)). -/
def branchLocation (a : BranchAddress) : Except FaultKind Nat :=
  if a.digits.decimal then .ok a.digits.value else .error .reservedEncoding

/-- The instruction address a Branch half names (41_branch.md R160): not indexed. -/
def branchTarget (a : BranchAddress) : Except FaultKind InstrAddress := do
  let loc ← branchLocation a
  return { common := a.common, loc := loc }

end Sys2Proof.Machine
end

