-- ==== Sys2Proof/Machine/Arithmetic.lean ====
section
/-! DEFINITION. Add, Subtract, Multiply, Divide (40_add_subtract.md, 48_multiply.md, 43_divide.md). -/

namespace Sys2Proof.Machine

/-- What an instruction leaves: the characters of its destination field and the Condition Code. -/
structure FieldResult where
  chars : List Character
  cc : ConditionCode
  deriving DecidableEq, Repr

/-- `unspecified_result` (40_add_subtract.md R146, R147; 70_reset_and_hazards.md R411): every character of the
destination free, one free flag. -/
def unspecifiedResult (draw n : Nat) : FieldResult :=
  { chars := freeField draw n, cc := .only (Config.freeFlag draw) }

/-- New digits in an old field: zones kept, but the rightmost character gets the sign and bit-5 ON
(40_add_subtract.md R143, 43_divide.md R203). -/
def putDigits : List Character → List Nat → Bool → List Character
  | [_], [d], negative => [mkChar negative true d]
  | c :: cs, d :: ds, negative => mkChar (bit7 c) (bit5 c) d :: putDigits cs ds negative
  | _, _, _ => []

/-- A field of digit characters, the rightmost with the sign (48_multiply.md R294, 43_divide.md R203). -/
def digitField : List Nat → Bool → List Character
  | [], _ => []
  | [d], negative => [mkChar negative true d]
  | d :: ds, negative => mkChar false true d :: digitField ds negative

/-- The rightmost characters of Operand-A that a shorter Operand-B leaves in use (40_add_subtract.md R142). -/
def usedPart (a b : List Character) : List Character := a.drop (a.length - min a.length b.length)

/-- The two operands of Add or Subtract as a signed sum: Subtract acts as though the sign of Operand-A were
reversed (40_add_subtract.md R150). -/
def signedSum (reverse : Bool) (a b : List Character) : Int :=
  (if signOf a ^^ reverse then -(magnitude (usedPart a b) : Int) else magnitude (usedPart a b)) +
    signedValue b

/-- The sum of decimal operands that do not overlap (40_add_subtract.md R141): low-order digits and common sign
with flag 4 on overflow (R144), a free sign for a zero sum (R145). -/
def sumResult (draw : Nat) (reverse : Bool) (a b : List Character) : FieldResult :=
  let r := signedSum reverse a b
  let n := b.length
  if 10 ^ n ≤ r.natAbs then
    { chars := putDigits b (digits n r.natAbs) (signOf b), cc := .only .four }
  else
    { chars := putDigits b (digits n r.natAbs)
        (if r = 0 then Config.freeBit draw else decide (r < 0))
      cc := .ofInt r }

/-- Add and Subtract on the fields A and B (40_add_subtract.md R141, R147, R150). -/
def addFields (draw : Nat) (reverse : Bool) (a b : List Character) : FieldResult :=
  if allDecimal (usedPart a b) && allDecimal b then sumResult draw reverse a b
  else unspecifiedResult draw b.length

/-- The product field of decimal operands (48_multiply.md R291): `b` is the whole product field, the multiplier
its leftmost positions. -/
def productResult (a b : List Character) : FieldResult :=
  let multiplier := b.take (b.length - a.length)
  let product := magnitude a * magnitude multiplier
  let negative := signOf a ^^ signOf multiplier
  { chars := digitField (digits b.length product) negative
    cc := .ofSign (decide (product = 0)) negative }

/-- Multiply on the multiplicand A and the product field B (48_multiply.md R291, R297). -/
def multiplyFields (draw : Nat) (a b : List Character) : FieldResult :=
  if allDecimal a && allDecimal (b.take (b.length - a.length)) then productResult a b
  else unspecifiedResult draw b.length

/-- The quotient and remainder (43_divide.md R201 to R203): divisor `a`, dividend field `b`, the quotient in
the leftmost `n` positions. -/
def quotientResult (a b : List Character) (n : Nat) : FieldResult :=
  let quotient := magnitude b / magnitude a
  let negative := signOf a ^^ signOf b
  { chars := digitField (digits n quotient) negative ++
      putDigits (b.drop n) (digits a.length (magnitude b % magnitude a)) (signOf b)
    cc := .ofSign (decide (quotient = 0)) negative }

/-- Divide on decimal operands: by zero leaves the dividend (43_divide.md R206), overflow leaves it free (R205). -/
def divideDecimal (draw : Nat) (a b : List Character) (n : Nat) : FieldResult :=
  if magnitude a = 0 then { chars := b, cc := .only .four }
  else if magnitude a ≤ magnitude b / 10 ^ n then
    { chars := freeField draw b.length, cc := .only .four }
  else quotientResult a b n

/-- Divide on the divisor A and the dividend field B, quotient length `n` (43_divide.md R201, R208). -/
def divideFields (draw : Nat) (a b : List Character) (n : Nat) : FieldResult :=
  if allDecimal a && allDecimal b then divideDecimal draw a b n
  else unspecifiedResult draw b.length

/-- The frame of the four instructions: A a field of `la` characters that is read, B a field of `lb` characters
that is read and written; overlapped operands give an unspecified result (40_add_subtract.md R146,
43_divide.md R207, 48_multiply.md R296). -/
def State.arithmetic (s : State) (la lb : Nat) (a b : Operand)
    (result : List Character → List Character → FieldResult) : Except FaultKind State := do
  let (pa, pb) ← s.effective a b
  s.checkRead pa la
  s.checkWrite pb lb
  let r :=
    if overlap pa la pb lb then unspecifiedResult s.draws lb
    else result (s.field pa la) (s.field pb lb)
  return s.finish (s.stored pb r.chars) r.cc

/-- Add (40_add_subtract.md R141). -/
def execAdd (la lb : Nat) (a b : Operand) (s : State) : Host.Outcome State Fault Refusal :=
  s.outcome (s.arithmetic (len1 la) (len1 lb) a b (addFields s.draws false))

/-- Subtract (40_add_subtract.md R150). -/
def execSubtract (la lb : Nat) (a b : Operand) (s : State) : Host.Outcome State Fault Refusal :=
  s.outcome (s.arithmetic (len1 la) (len1 lb) a b (addFields s.draws true))

/-- Multiply (48_multiply.md R291): the product field has the length of both operands together. -/
def execMultiply (la lb : Nat) (a b : Operand) (s : State) : Host.Outcome State Fault Refusal :=
  s.outcome (s.arithmetic (len1 la) (len1 lb + len1 la) a b (multiplyFields s.draws))

/-- Divide (43_divide.md R201): the dividend field has the length of divisor and quotient together. -/
def execDivide (la lb : Nat) (a b : Operand) (s : State) : Host.Outcome State Fault Refusal :=
  s.outcome (s.arithmetic (len1 la) (len1 la + len1 lb) a b
    (fun x y => divideFields s.draws x y (len1 lb)))

end Sys2Proof.Machine
end

