-- ==== Sys2Proof/Machine/Branch.lean ====
section
/-! DEFINITION. Branch, Link, Branch on Service Request (41_branch.md). -/

namespace Sys2Proof.Machine

/-- `req(d)`: the variant digit requires a branch under the Condition Code (41_branch.md R162, R164). -/
def branchRequired (cc : ConditionCode) (d : Nat) : Bool :=
  match d with
  | 1 => cc.one
  | 2 => cc.two
  | 3 => cc.three
  | 4 => cc.four
  | 5 => true
  | 8 => true
  | _ => false

/-- The digit has no meaning in LB: 6, 7, 10 to 15 (41_branch.md R163(b), (c)). -/
def reservedVariant (d : Nat) : Bool := d == 6 || d == 7 || decide (9 < d)

/-- `taken(s, a, forced)` (41_branch.md R164): P becomes the target, then control passes to the next partition if
the switch is forced or the host partition has had more than 37.5 milliseconds (R177). -/
def State.taken (s : State) (target : InstrAddress) (forced : Bool) : State :=
  if forced || s.sliceOver then (s.goto target).switchPartition else s.goto target

/-- Branch with LA the digit `variant` (41_branch.md R161, R164): the left half first; LB is examined only if the
left half does not branch. -/
def State.branch (s : State) (variant : Nat) (lb : Numeric) (a b : BranchAddress) :
    Except FaultKind State :=
  if branchRequired s.me.cc variant then do
    let target ← branchTarget a
    return s.taken target (variant == 8)
  else if reservedVariant lb.toNat then .error .reservedEncoding
  else if branchRequired s.me.cc lb.toNat then do
    let target ← branchTarget b
    return s.taken target (lb.toNat == 8)
  else .ok s.advance

/-- LA = 0, no operation in the left half (41_branch.md R165). -/
def execBranch0 (lb : Numeric) (a b : BranchAddress) (s : State) : Host.Outcome State Fault Refusal :=
  s.outcome (s.branch 0 lb a b)

/-- LA = 1, on flag 1 (41_branch.md R166). -/
def execBranch1 (lb : Numeric) (a b : BranchAddress) (s : State) : Host.Outcome State Fault Refusal :=
  s.outcome (s.branch 1 lb a b)

/-- LA = 2, on flag 2 (41_branch.md R166). -/
def execBranch2 (lb : Numeric) (a b : BranchAddress) (s : State) : Host.Outcome State Fault Refusal :=
  s.outcome (s.branch 2 lb a b)

/-- LA = 3, on flag 3 (41_branch.md R166). -/
def execBranch3 (lb : Numeric) (a b : BranchAddress) (s : State) : Host.Outcome State Fault Refusal :=
  s.outcome (s.branch 3 lb a b)

/-- LA = 4, on flag 4 (41_branch.md R166). -/
def execBranch4 (lb : Numeric) (a b : BranchAddress) (s : State) : Host.Outcome State Fault Refusal :=
  s.outcome (s.branch 4 lb a b)

/-- LA = 5, unconditionally (41_branch.md R167). -/
def execBranch5 (lb : Numeric) (a b : BranchAddress) (s : State) : Host.Outcome State Fault Refusal :=
  s.outcome (s.branch 5 lb a b)

/-- LA = 8, branch and switch partitions (41_branch.md R168). -/
def execBranch8 (lb : Numeric) (a b : BranchAddress) (s : State) : Host.Outcome State Fault Refusal :=
  s.outcome (s.branch 8 lb a b)

/-- LA = 9, no operation in the left half (41_branch.md R165). -/
def execBranch9 (lb : Numeric) (a b : BranchAddress) (s : State) : Host.Outcome State Fault Refusal :=
  s.outcome (s.branch 9 lb a b)

/-- The four characters that hold a return address (41_branch.md R172): the digits in the numeric portions, zones
kept but for the rightmost, whose bit-5 is ON and whose bit-7 tells Common. -/
def returnCharacters (old : List Character) (ret : InstrAddress) : List Character :=
  putReturn old (digits 4 ret.loc) ret.common
where
  putReturn : List Character → List Nat → Bool → List Character
    | [_], [d], common => [mkChar common true d]
    | c :: cs, d :: ds, common => mkChar (bit7 c) (bit5 c) d :: putReturn cs ds common
    | _, _, _ => []

/-- Link (41_branch.md R170, R171). With LB = 8 the source does not say whether the switch is forced: a free bit
(R173). A return address above 9999 ranks after the digits of both addresses and before the checks of the field at
Address-A, which 60_exceptions.md R362 does not say (DESIGN CHOICE, safe: log 49). -/
def State.link (s : State) (lb : Numeric) (a b : BranchAddress) : Except FaultKind State :=
  if reservedVariant lb.toNat then .error .reservedEncoding
  else if branchRequired s.me.cc lb.toNat then do
    let loc ← branchLocation a
    let target ← branchTarget b
    let ret := s.me.pc.next
    if 9999 < ret.loc then throw .addressRange
    let p := s.place a.common loc
    s.checkWrite p 4
    let linked := s.setMem (s.stored p (returnCharacters (s.field p 4) ret))
    return linked.taken target (lb.toNat == 8 && Config.freeBit s.draws)
  else .ok s.advance

/-- LA = 6, Link (41_branch.md R171). -/
def execLink (lb : Numeric) (a b : BranchAddress) (s : State) : Host.Outcome State Fault Refusal :=
  s.outcome (s.link lb a b)

/-- Branch on Service Request (41_branch.md R174): without a request held, no effect; else the device number goes
into the numeric portion of the character at Address-A, zones kept (R175), and polling resumes. -/
def State.serviceRequest (s : State) (lb : Numeric) (a b : BranchAddress) : Except FaultKind State :=
  if ¬ (lb.toNat = 0 ∨ lb.toNat = 9) then .error .reservedEncoding
  else
    match s.me.srq with
    | none => .ok s.advance
    | some d => do
      let loc ← branchLocation a
      let target ← branchTarget b
      let p := s.place a.common loc
      s.checkWrite p 1
      let c := s.mem.read p.key
      let stored := s.setMem (s.mem.write p.key (mkChar (bit7 c) (bit5 c) d))
      let polled := stored.modifyMe (fun h => { h with srq := none, poll := (d + 1) % 10 })
      return polled.taken target false

/-- LA = 7, Branch on Service Request (41_branch.md R174). -/
def execServiceRequest (lb : Numeric) (a b : BranchAddress) (s : State) :
    Host.Outcome State Fault Refusal :=
  s.outcome (s.serviceRequest lb a b)

end Sys2Proof.Machine
end

