-- ==== Sys2Proof/Machine/EditForm.lean ====
section
/-! DEFINITION. Edit and Form Numeric (44_edit.md, 46_form_numeric.md). -/

namespace Sys2Proof.Machine

/-- `control_length` (44_edit.md R223): the number of positions up to the n-th filler and the sign position,
scanning from a key with so many locations left in the space; none if the space ends first. -/
def controlLength (m : Memory) : Nat → Nat → Nat → Option Nat
  | _, 0, _ => none
  | _, _ + 1, 0 => some 1
  | k, room + 1, n + 1 =>
    if isFiller (m.read k) then (controlLength m (k + 1) room n).map (· + 1)
    else (controlLength m (k + 1) room (n + 1)).map (· + 1)

/-- The edited control field (44_edit.md R221): `left` is the neighbour on the left as edited, `significant`
whether significance has started, `keepSign` whether the sign position keeps its character. -/
def editField (keepSign : Bool) : List Character → List Nat → Character → Bool → List Character
  | [], _, _, _ => []
  | c :: _, [], _, _ => [if keepSign then c else BLANK]
  | c :: cs, d :: ds, left, significant =>
    if isAt c then BLANK :: editField keepSign cs (d :: ds) BLANK significant
    else if isPunct c then
      if significant then c :: editField keepSign cs (d :: ds) c true
      else left :: editField keepSign cs (d :: ds) left false
    else if significant || d != 0 then
      mkChar false true d :: editField keepSign cs ds (mkChar false true d) true
    else c :: editField keepSign cs ds c (c == ZERO)

/-- Every digit of Operand-A is 0. -/
def allZero (a : List Character) : Bool := a.all (fun c => num c == 0)

/-- Edit on the numeric field A and the control field B (44_edit.md R221); a control field that begins with
punctuation gets a free character in front (R228). -/
def editFields (draw : Nat) (a b : List Character) : FieldResult :=
  let negative := signOf a && !allZero a
  { chars := editField negative b (a.map num) (Config.freeCharacter draw 0 0) false
    cc := .ofSign (allZero a) (signOf a) }

/-- `unspecified_edit` (44_edit.md R229). -/
def unspecifiedEdit (draw n : Nat) : FieldResult :=
  { chars := freeField draw n, cc := .only (editFlag (Config.freeSign draw)) }

/-- Edit with its checks (44_edit.md R221, R223, R229). -/
def State.edit (s : State) (n : Nat) (a b : Operand) : Except FaultKind State := do
  let (pa, pb) ← s.effective a b
  s.checkRead pa n
  match controlLength s.mem pb.key (s.sizeOf pb.space - pb.loc) n with
  | none => throw .addressRange
  | some m =>
    s.checkWrite pb m
    let r :=
      if overlap pa n pb m then unspecifiedEdit s.draws m
      else editFields s.draws (s.field pa n) (s.field pb m)
    return s.finish (s.stored pb r.chars) r.cc

/-- Edit (44_edit.md R221). -/
def execEdit (la lb : Nat) (a b : Operand) (s : State) : Host.Outcome State Fault Refusal :=
  s.outcome (s.edit (len2 la lb) a b)

/-- The digits Form Numeric moves, units first, whether the result is negative, and whether a hyphen was seen
with no digit to move (46_form_numeric.md R251, R253, R257). -/
structure FormedDigits where
  out : List Character
  negative : Bool
  hyphenOnly : Bool
  deriving DecidableEq, Repr

/-- The right-to-left search of Form Numeric over Operand-A reversed (46_form_numeric.md R251 to R253). -/
def formDigits (reversed : List Character) : FormedDigits :=
  match reversed.dropWhile (fun c => c == BLANK) with
  | [] => { out := [], negative := false, hyphenOnly := false }
  | c :: rest =>
    if isDigit c then { out := c :: rest.filter isDigit, negative := false, hyphenOnly := false }
    else if isMinusDigit c then
      { out := c :: rest.filter isDigit, negative := true, hyphenOnly := false }
    else
      match rest.filter isDigit with
      | [] => { out := [], negative := false, hyphenOnly := c == HYPHEN }
      | d :: ds =>
        { out := (if c == HYPHEN then mkChar true true (num d) else d) :: ds
          negative := c == HYPHEN
          hyphenOnly := false }

/-- The characters of Operand-B, units first: digits, then zeros (46_form_numeric.md R254, R256, R257). -/
def filledUnitsFirst (draw : Nat) (f : FormedDigits) (n : Nat) : List Character :=
  match f.hyphenOnly, f.out ++ List.replicate (n - f.out.length) ZERO with
  | true, _ :: cs => mkChar (Config.freeBit draw) true 0 :: cs
  | _, cs => cs

/-- Form Numeric into n positions (46_form_numeric.md R251): overflow keeps the n rightmost digits (R255). -/
def formFields (draw : Nat) (a : List Character) (n : Nat) : FieldResult :=
  let f := formDigits a.reverse
  if n < f.out.length then { chars := (f.out.take n).reverse, cc := .only .four }
  else
    { chars := (filledUnitsFirst draw f n).reverse
      cc := .ofSign (allZero f.out) f.negative }

/-- Form Numeric (46_form_numeric.md R251, R258). -/
def execFormNumeric (la lb : Nat) (a b : Operand) (s : State) : Host.Outcome State Fault Refusal :=
  s.outcome (s.arithmetic (len1 la) (len1 lb) a b (fun x y => formFields s.draws x y.length))

end Sys2Proof.Machine
end

