-- ==== Sys2Proof/Machine/Channels.lean ====
section
/-! DEFINITION. The instruction boundary: what devices do, the service of the Input/Output Channels, service
requests, and resuming a partition (49_read_write.md R320 to R327; 60_exceptions.md R366, R367, R372). -/

namespace Sys2Proof.Machine

/-! What arrives from the devices. -/

/-- A signal that belongs to an operation of this direction (49_read_write.md R321(a) to (c)). -/
def signalFits : Direction → IocSignal → Bool
  | .read _, .character _ _ => true
  | .read _, .unitSeparator _ => true
  | .read _, .ended _ => true
  | .write _, .ready _ => true
  | .write _, .ended _ => true
  | _, _ => false

/-- The operation of a partition has not ended (49_read_write.md R323). -/
def Partition.waiting (p : Partition) : Bool := p.io.any (fun o => o.done.isNone)

/-- The IOC takes a signal: an operation in progress asked for it and the buffer is empty (49_read_write.md
R325 steps 1 and 2, R326 step 1). -/
def Partition.accepts (p : Partition) (x : IocSignal) : Bool :=
  p.signal.isNone && p.io.any (fun o => o.done.isNone && signalFits o.direction x)

/-- The first device in the cyclic order from POLL on that requests service (60_exceptions.md R366). -/
def firstRequest (poll : Nat) (devices : List Nat) : Option Nat :=
  ((List.range 10).map (fun i => (poll + i) % 10)).find? (fun d => devices.contains d)

/-- One act of a device (49_read_write.md R321, 60_exceptions.md R366). A signal that the IOC does not take, and a
request while one is held, change nothing. -/
def State.arriveOne (s : State) (e : DeviceEvent) : State :=
  match e with
  | .signal q x =>
    s.modifyPart q (fun p => { p with signal := if p.accepts x then some x else p.signal })
  | .request q devices =>
    s.modifyPart q (fun p =>
      { p with srq := if p.srq.isNone then firstRequest p.poll devices else p.srq })

/-- Several acts in order. -/
def State.arrive (s : State) (events : List DeviceEvent) : State := events.foldl State.arriveOne s

/-! The service of one IOC (49_read_write.md R325, R326). -/

/-- The place of the next character of an operation of partition q. -/
def IocOperation.place (o : IocOperation) (q : Nat) : Place :=
  { space := if o.common then .common else .part q, loc := o.next }

/-- The operation after one character. -/
def IocOperation.step (o : IocOperation) : IocOperation :=
  { o with next := o.next + 1, left := o.left - 1 }

/-- The operation and the signal of partition q after a service step. -/
def State.setOperation (s : State) (q : Nat) (o : IocOperation) : State :=
  s.modifyPart q (fun p => { p with io := some o, signal := none })

/-- n free characters of the IOC of partition q (49_read_write.md R327(b)). -/
def freeInput (draw q n : Nat) : List Character := (List.range n).map (Config.freeCharacter draw (q + 1))

/-- One service step of a Read (49_read_write.md R324, R325, R327, R331). A Unit Separator leaves the rest of the area
undisturbed in the non-fill mode whatever the outcome it brings, as R324 and the pseudocode of R325 have it; decision
D36 would have it free when the outcome is not Normal (DESIGN CHOICE, unsafe: log 50). -/
def State.serviceRead (s : State) (q : Nat) (mode : FillMode) (o : IocOperation) (x : IocSignal) : State :=
  match x with
  | .character c outcome =>
    (s.setMem (s.mem.write (o.place q).key c)).setOperation q
      { o.step with done := if o.step.left = 0 then some outcome else none }
  | .unitSeparator outcome =>
    (match mode with
      | .fill => s.setMem (s.stored (o.place q) (List.replicate o.left BLANK))
      | .nonfill => s).setOperation q { o with done := some outcome }
  | .ended how =>
    (s.setMem (s.stored (o.place q) (freeInput s.draws q o.left))).setOperation q
      { o with done := some (abnormalOutcome how) }
  | .ready _ => s

/-- One service step of a Write (49_read_write.md R326, R327): the character sent is the one in the output area
now. -/
def State.serviceWrite (s : State) (q : Nat) (kind : WriteKind) (o : IocOperation) (x : IocSignal) : State :=
  match x with
  | .ready outcome =>
    if o.left = 0 then s.setOperation q { o with done := some outcome }
    else
      (s.emit [OutputEvent.ioc q o.device kind (s.mem.read (o.place q).key)]).setOperation q o.step
  | .ended how => s.setOperation q { o with done := some (abnormalOutcome how) }
  | .character _ _ => s
  | .unitSeparator _ => s

/-- The service of the IOC of partition q: nothing without a signal for an operation in progress. -/
def State.service (s : State) (q : Nat) : State :=
  match (s.part q).io, (s.part q).signal with
  | some o, some x =>
    if o.done.isNone then
      match o.direction with
      | .read mode => s.serviceRead q mode o x
      | .write kind => s.serviceWrite q kind o x
    else s
  | _, _ => s

/-- The order in which the CPU serves the n channels: the partitions named, then the others; each once. -/
def serviceOrder (named : List Nat) (n : Nat) : List Nat :=
  let first := (named.filter (fun q => decide (q < n))).eraseDups
  first ++ (List.range n).filter (fun q => !first.contains q)

/-- The service of every IOC. -/
def State.serviceAll (s : State) (order : List Nat) : State := order.foldl State.service s

/-! The boundary (60_exceptions.md R367). -/

/-- What happens at this boundary: the head of `inputs`, or a free value. -/
def State.nextInput (s : State) : BoundaryInput :=
  match s.inputs with
  | b :: _ => b
  | [] => Config.freeBoundary s.draws

/-- The model's own bookkeeping at a boundary: the timer has advanced, the FAC answer of the coming
instruction is known, the input is used up, the next free values are new. -/
def State.tick (s : State) (b : BoundaryInput) : State :=
  { s with timer := s.timer + b.elapsed, fac := b.fac, inputs := s.inputs.tail, draws := s.draws + 1 }

/-- A boundary with a given input: devices act, the CPU serves every IOC once, devices act again. -/
def State.boundaryWith (s : State) (b : BoundaryInput) : State :=
  let early := s.arrive b.early
  let served := early.serviceAll (serviceOrder b.order s.parts.length)
  (served.arrive b.late).tick b

/-- The instruction boundary (60_exceptions.md R367). -/
def State.boundary (s : State) : State := s.boundaryWith s.nextInput

/-! Passing on and resuming (60_exceptions.md R372, R386; 49_read_write.md R323). -/

/-- A partition whose IOC operation has ended gets the outcome as its Condition Code, and the operation is over
(49_read_write.md R323). -/
def Partition.collect (p : Partition) : Partition :=
  match p.io with
  | some o =>
    match o.done with
    | some outcome => { p with io := none, cc := .only (outcomeFlag outcome) }
    | none => p
  | none => p

/-- The host partition collects the end of its operation before its next instruction (49_read_write.md R323). -/
def State.resume (s : State) : State := s.modifyMe Partition.collect

/-- The host partition, about to fetch, is finished: its P is a stop address (60_exceptions.md R386). -/
def State.finished (s : State) : Bool := s.me.setting.stop.contains s.me.pc

end Sys2Proof.Machine
end

