-- ==== Sys2Proof/Machine/InputOutput.lean ====
section
/-! DEFINITION. Read and Write (49_read_write.md). -/

namespace Sys2Proof.Machine

/-- The FAC has a device at the address: 0 to 4 and 8 (49_read_write.md R313). -/
def facDevice (device : Nat) : Bool := decide (device < 5) || device == 8

/-- What the six characters of a disc address hold (49_read_write.md R318). -/
structure DiscAddress where
  device : Nat
  arm : Nat
  track : Nat
  sector : Nat
  deriving DecidableEq, Repr

/-- The disc address in six characters; only numeric portions are used (49_read_write.md R318). Nothing is
validated (R319). -/
def discAddress (chars : List Character) : DiscAddress :=
  let n := fun k => num (chars.getD k BLANK)
  { device := n 0
    arm := n 1 / 2
    track := 100 * (n 1 % 2) + 10 * n 2 + n 3
    sector := 10 * n 4 + n 5 }

/-- The FAC device at the address is a disc (49_read_write.md R315). -/
def State.isDisc (s : State) (device : Nat) : Bool := s.inst.discs.contains device

/-- What a Read or Write does after its checks: an area, its length, and for a disc the disc address. -/
structure Transfer where
  area : Place
  count : Nat
  disc : Option (List Character)
  deriving DecidableEq, Repr

/-- The decoding of Read or Write (49_read_write.md R313 to R317, R330, R340): device, effective address and count
or disc address, and the check of the whole area. -/
def State.transferOf (s : State) (device : Nat) (channel : Channel) (a b : Operand)
    (check : Place → Nat → Except FaultKind Unit) : Except FaultKind Transfer := do
  if channel == .fac && !facDevice device then throw .deviceUnknown
  let (pa, pb) ← s.effective a b
  if channel == .fac && s.isDisc device then
    check pa 100
    s.checkRead pb 6
    return { area := pa, count := 100, disc := some (s.field pb 6) }
  else
    check pa (countOf pb.loc)
    return { area := pa, count := countOf pb.loc, disc := none }

/-- An IOC operation is issued (49_read_write.md R322): the parameters are set, P is advanced, control is
relinquished. -/
def State.issue (s : State) (direction : Direction) (device : Nat) (common : Bool) (t : Transfer) : State :=
  let o : IocOperation :=
    { direction := direction, device := device, common := common, next := t.area.loc, left := t.count,
      first := t.area.loc, total := t.count, done := none }
  (s.modifyMe (fun h => { h with io := some o, pc := h.pc.next })).switchPartition

/-- What the device on the FAC answers: given, or a free value (49_read_write.md R321(d), (e)). -/
def State.facAnswer (s : State) : FacAnswer := s.fac.getD (Config.freeFac s.draws)

/-- The n characters that a FAC Read leaves in its area: those delivered, and free ones where the answer gives
none. With outcome Normal the device has delivered all of them; else the rest is a free choice (49_read_write.md
R327(b), R328). -/
def State.facInput (s : State) (answer : FacAnswer) (n : Nat) : List Character :=
  (List.range n).map (fun j => answer.delivered.getD j (Config.freeCharacter s.draws 0 j))

/-- The end of a FAC transfer: one flag, P advanced (49_read_write.md R327, R328). -/
def State.facDone (s : State) (outcome : DeviceOutcome) : State :=
  s.finish s.mem (.only (outcomeFlag outcome))

/-- How many characters a FAC Write sends: all with outcome Normal, else at most those taken (49_read_write.md
R327(a), R328). -/
def facSent (answer : FacAnswer) (n : Nat) : Nat :=
  if answer.outcome = .normal then n else min answer.taken n

/-- A Read through the FAC, the whole transfer inside the instruction (49_read_write.md R328). -/
def State.facRead (s : State) (t : Transfer) : State :=
  (s.setMem (s.stored t.area (s.facInput s.facAnswer t.count))).facDone s.facAnswer.outcome

/-- The events of a Write through the FAC (49_read_write.md R345): one for each character, or one for a disc
record. -/
def facEvents (device : Nat) (kind : WriteKind) (disc : Option (List Character)) (sent : List Character) :
    List OutputEvent :=
  match disc with
  | some address => [OutputEvent.disc device (discAddress address).device address sent]
  | none => sent.map (OutputEvent.fac device kind)

/-- A Write through the FAC (49_read_write.md R328). -/
def State.facWrite (s : State) (device : Nat) (kind : WriteKind) (t : Transfer) : State :=
  let sent := (s.field t.area t.count).take (facSent s.facAnswer t.count)
  (s.emit (facEvents device kind t.disc sent)).facDone s.facAnswer.outcome

/-- The partition a disc is bound to (10_state.md R44). -/
def State.boundTo (s : State) (device unit : Nat) : Option Nat :=
  (s.bound.find? (fun d => d.device == device && d.unit == unit)).map (·.partition)

/-- The disc is free. -/
def State.unbind (s : State) (device unit : Nat) : State :=
  { s with bound := s.bound.filter (fun d => !(d.device == device && d.unit == unit)) }

/-- The disc is bound to the host partition. -/
def State.bindDisc (s : State) (device unit : Nat) : State :=
  { s with bound := { device := device, unit := unit, partition := s.host } ::
      (s.unbind device unit).bound }

/-- One attempt of a disc access (49_read_write.md R329): a disc bound to another partition, or heads that must
move, pass control on with P unchanged; else 100 characters are transferred and the disc is free. -/
def State.discAttempt (s : State) (device unit : Nat) (transfer : State → State) : State :=
  if (s.boundTo device unit).any (fun q => q != s.host) then s.switchPartition
  else
    let seeking := s.bindDisc device unit
    if s.facAnswer.wait then seeking.switchPartition
    else (transfer seeking).unbind device unit

/-- The end of Read and Write on their channel (49_read_write.md R330, R340). -/
def State.onChannel (s : State) (direction : Direction) (device : Nat) (channel : Channel) (common : Bool)
    (t : Transfer) (transfer : State → State) : State :=
  match channel, t.disc with
  | .ioc, _ => s.issue direction device common t
  | .fac, some address => s.discAttempt device (discAddress address).device transfer
  | .fac, none => transfer s

/-- Read (49_read_write.md R330). -/
def execRead (device : Nat) (channel : Channel) (mode : FillMode) (a b : Operand) (s : State) :
    Host.Outcome State Fault Refusal :=
  s.outcome do
    let t ← s.transferOf device channel a b s.checkWrite
    return s.onChannel (.read mode) device channel a.common t (fun u => u.facRead t)

/-- Write (49_read_write.md R340). -/
def execWrite (device : Nat) (channel : Channel) (kind : WriteKind) (a b : Operand) (s : State) :
    Host.Outcome State Fault Refusal :=
  s.outcome do
    let t ← s.transferOf device channel a b s.checkRead
    return s.onChannel (.write kind) device channel a.common t (fun u => u.facWrite device kind t)

end Sys2Proof.Machine
end

