-- ==== Sys2Proof/Machine/MoveCompare.lean ====
section
/-! DEFINITION. Compare, Exchange, Move Character, Move Numeric (42_compare.md, 45_exchange.md, 47_move.md). -/

namespace Sys2Proof.Machine

/-- The Condition Code of Compare: left to right, the first difference decides (42_compare.md R191). -/
def compareFields : List Character → List Character → ConditionCode
  | x :: xs, y :: ys =>
    if x.toNat < y.toNat then .only .one
    else if y.toNat < x.toNat then .greater
    else compareFields xs ys
  | _, _ => .equal

/-- Exchange, one character at a time from left to right (45_exchange.md R241). -/
def exchangeLoop : Memory → Nat → Nat → Nat → Memory
  | m, _, _, 0 => m
  | m, ka, kb, n + 1 =>
    let held := m.read kb
    exchangeLoop ((m.write kb (m.read ka)).write ka held) (ka + 1) (kb + 1) n

/-- Move Character, one position at a time from left to right (47_move.md R271). -/
def moveLoop : Memory → Nat → Nat → Nat → Memory
  | m, _, _, 0 => m
  | m, ka, kb, n + 1 => moveLoop (m.write kb (m.read ka)) (ka + 1) (kb + 1) n

/-- The character of B with the numeric portion of A (47_move.md R280). -/
def withNumeric (a b : Character) : Character := character (bit7 b) (bit5 b) (numeric a)

/-- Move Numeric, one position at a time from left to right (47_move.md R280). -/
def moveNumericLoop : Memory → Nat → Nat → Nat → Memory
  | m, _, _, 0 => m
  | m, ka, kb, n + 1 =>
    moveNumericLoop (m.write kb (withNumeric (m.read ka) (m.read kb))) (ka + 1) (kb + 1) n

/-- The frame of the moves: A is read, B is written, flag 2 is set. -/
def State.move (s : State) (n : Nat) (a b : Operand) (loop : Memory → Nat → Nat → Nat → Memory) :
    Except FaultKind State := do
  let (pa, pb) ← s.effective a b
  s.checkRead pa n
  s.checkWrite pb n
  return s.finish (loop s.mem pa.key pb.key n) (.only .two)

/-- Move Character (47_move.md R271). -/
def execMoveCharacter (la lb : Nat) (a b : Operand) (s : State) : Host.Outcome State Fault Refusal :=
  s.outcome (s.move (len2 la lb) a b moveLoop)

/-- Move Numeric (47_move.md R280). -/
def execMoveNumeric (la lb : Nat) (a b : Operand) (s : State) : Host.Outcome State Fault Refusal :=
  s.outcome (s.move (len2 la lb) a b moveNumericLoop)

/-- Exchange with its checks: both fields are written (45_exchange.md R241). -/
def State.exchange (s : State) (n : Nat) (a b : Operand) : Except FaultKind State := do
  let (pa, pb) ← s.effective a b
  s.checkWrite pa n
  s.checkWrite pb n
  return s.finish (exchangeLoop s.mem pa.key pb.key n) (.only .two)

/-- Exchange (45_exchange.md R241). -/
def execExchange (la lb : Nat) (a b : Operand) (s : State) : Host.Outcome State Fault Refusal :=
  s.outcome (s.exchange (len2 la lb) a b)

/-- Compare with its checks: both fields are read whole (42_compare.md R191, R192). -/
def State.compare (s : State) (n : Nat) (a b : Operand) : Except FaultKind State := do
  let (pa, pb) ← s.effective a b
  s.checkRead pa n
  s.checkRead pb n
  return s.finish s.mem (compareFields (s.field pa n) (s.field pb n))

/-- Compare (42_compare.md R191). -/
def execCompare (la lb : Nat) (a b : Operand) (s : State) : Host.Outcome State Fault Refusal :=
  s.outcome (s.compare (len2 la lb) a b)

end Sys2Proof.Machine
end

