-- ==== Sys2Proof/Machine/Unassigned.lean ====
section
/-! DEFINITION. The operation codes 2, 3 and 10, which the source does not assign (30_encoding.md R112). -/

namespace Sys2Proof.Machine

/-- F = 2: `Fault(IllegalOpcode)` (30_encoding.md R112). -/
def execUnassigned2 (s : State) : Host.Outcome State Fault Refusal := s.raise .illegalOpcode

/-- F = 3: `Fault(IllegalOpcode)` (30_encoding.md R112). -/
def execUnassigned3 (s : State) : Host.Outcome State Fault Refusal := s.raise .illegalOpcode

/-- F = 10: `Fault(IllegalOpcode)` (30_encoding.md R112). -/
def execUnassigned10 (s : State) : Host.Outcome State Fault Refusal := s.raise .illegalOpcode

end Sys2Proof.Machine
end

