-- ==== Sys2Proof/Machine/Dispatch.lean ====
section
/-! DEFINITION. The meaning of each instruction, one arm per constructor. -/

namespace Sys2Proof.Machine

def exec (i : Instr) (s : State) : Host.Outcome State Fault Refusal :=
  match i with
  | .read device channel mode a b => Sys2Proof.Machine.execRead device channel mode a b s
  | .write device channel kind a b => Sys2Proof.Machine.execWrite device channel kind a b s
  | .unassigned2 => Sys2Proof.Machine.execUnassigned2 s
  | .unassigned3 => Sys2Proof.Machine.execUnassigned3 s
  | .add la lb a b => Sys2Proof.Machine.execAdd la lb a b s
  | .divide la lb a b => Sys2Proof.Machine.execDivide la lb a b s
  | .multiply la lb a b => Sys2Proof.Machine.execMultiply la lb a b s
  | .subtract la lb a b => Sys2Proof.Machine.execSubtract la lb a b s
  | .moveCharacter la lb a b => Sys2Proof.Machine.execMoveCharacter la lb a b s
  | .moveNumeric la lb a b => Sys2Proof.Machine.execMoveNumeric la lb a b s
  | .unassigned10 => Sys2Proof.Machine.execUnassigned10 s
  | .branch0 lb a b => Sys2Proof.Machine.execBranch0 lb a b s
  | .branch1 lb a b => Sys2Proof.Machine.execBranch1 lb a b s
  | .branch2 lb a b => Sys2Proof.Machine.execBranch2 lb a b s
  | .branch3 lb a b => Sys2Proof.Machine.execBranch3 lb a b s
  | .branch4 lb a b => Sys2Proof.Machine.execBranch4 lb a b s
  | .branch5 lb a b => Sys2Proof.Machine.execBranch5 lb a b s
  | .link lb a b => Sys2Proof.Machine.execLink lb a b s
  | .serviceRequest lb a b => Sys2Proof.Machine.execServiceRequest lb a b s
  | .branch8 lb a b => Sys2Proof.Machine.execBranch8 lb a b s
  | .branch9 lb a b => Sys2Proof.Machine.execBranch9 lb a b s
  | .edit la lb a b => Sys2Proof.Machine.execEdit la lb a b s
  | .formNumeric la lb a b => Sys2Proof.Machine.execFormNumeric la lb a b s
  | .compare la lb a b => Sys2Proof.Machine.execCompare la lb a b s
  | .exchange la lb a b => Sys2Proof.Machine.execExchange la lb a b s

end Sys2Proof.Machine
end

