-- ==== Sys2Proof/Machine/Fetch.lean ====
section
/-! DEFINITION. Fetching an instruction (10_state.md R37; 20_memory.md R70, R72, R84; 60_exceptions.md R362), and
storing one where the next fetch finds it. -/

namespace Sys2Proof.Machine

/-- Where the host partition's next instruction lies. -/
def State.fetchPlace (s : State) : Place := s.place s.me.pc.common s.me.pc.loc

/-- A rejection by the decoder as a model fault (60_exceptions.md R361 code 2). -/
def decodeFault : DecodeError → FaultKind
  | .notTenCharacters => .reservedEncoding
  | .reservedEncoding _ => .reservedEncoding

/-- The checks of a fetch, in the order of 60_exceptions.md R362: alignment, bounds, privilege. -/
def State.checkFetch (s : State) : Except FaultKind Unit :=
  if s.me.pc.loc % 10 ≠ 0 then .error .misalignedInstruction else s.checkRead s.fetchPlace 10

/-- The instruction at P, as it stands in memory now (20_memory.md R84). -/
def State.fetch (s : State) : Except FaultKind Instr := do
  s.checkFetch
  match decode s.inst.layout (s.field s.fetchPlace 10) with
  | .ok i => return i
  | .error e => throw (decodeFault e)

/-- Characters stored where the next fetch reads them; nothing else changes. -/
def State.placeInstruction (s : State) (chars : List Character) : State :=
  s.setMem (s.stored s.fetchPlace chars)

end Sys2Proof.Machine
end

