-- ==== Sys2Proof/Machine/Control.lean ====
section
/-! DEFINITION. What the partition in control does between two instruction boundaries (60_exceptions.md R372;
49_read_write.md R323). -/

namespace Sys2Proof.Machine

/-- The instruction at P of the host partition, fetched and executed. -/
def State.runInstruction (s : State) : Host.Outcome State Fault Refusal :=
  match s.fetch with
  | .ok i => exec i s
  | .error kind => s.raise kind

/-- The host partition about to fetch: at a stop address it is finished and passes control on (60_exceptions.md
R386); else its next instruction runs. -/
def State.proceed (s : State) : Host.Outcome State Fault Refusal :=
  if s.finished then .next s.switchPartition else s.runInstruction

/-- After a boundary: a host partition that waits for its IOC operation passes control on (one turn of the loop of
60_exceptions.md R372); else it collects the end of its operation, if it has one (49_read_write.md R323), and is about
to fetch. -/
def State.act (s : State) : Host.Outcome State Fault Refusal :=
  if s.me.waiting then .next s.switchPartition else s.resume.proceed

/-- Characters stored where the next step fetches its instruction. The boundary before that instruction is made
quiet (log 32), so that the fetch does not depend on what devices do. -/
def State.withNextInstruction (s : State) (chars : List Character) : State :=
  { s.placeInstruction chars with inputs := BoundaryInput.quiet :: s.inputs }

end Sys2Proof.Machine
end

