-- ==== Sys2Proof/Machine/Step.lean ====
section
/-! DEFINITION. One step: the instruction boundary, and then one instruction of the host partition, or passing on from
a host partition that waits or is finished (60_exceptions.md R367, R372). -/

namespace Sys2Proof.Machine

/-- One step. The first action of a run is the boundary, then the fetch at P of the host partition
(70_reset_and_hazards.md R401). -/
def step (s : State) : Host.Outcome State Fault Refusal := s.boundary.act

/-- s with the instruction whose table word is w stored where step fetches its next instruction. -/
def State.withFetchWord (s : State) (nbits w : Nat) : State := s.withNextInstruction (wordCharacters nbits w)

end Sys2Proof.Machine
end

