-- ==== Sys2Proof/Machine/External.lean ====
section
/-! DEFINITION. The external, device-side codes of what Write sends (49_read_write.md R336, R337). The step records
internal characters with their mode (R345); nothing in it depends on these codes. -/

namespace Sys2Proof.Machine

/-- A seven-bit USASCII code, bit 7 the most significant. -/
abbrev ExternalCode := BitVec 7

/-- An external code from its bits 7, 6 and 5 to 1. -/
def externalBits (b7 b6 : Bool) (low : BitVec 5) : ExternalCode :=
  (BitVec.ofBool b7 ++ BitVec.ofBool b6 ++ low).cast (by decide)

/-- Bit-5 to bit-1 of a character. -/
def lowBits (c : Character) : BitVec 5 := c.setWidth 5

/-- The code a character is sent as: under write control bit 7 is 0 and bit 6 is NOT bit-7 (Table G14-1,
49_read_write.md R336); under a normal Write the USASCII code of its graphic (R337; log 40). -/
def externalCode (kind : WriteKind) (c : Character) : ExternalCode :=
  match kind with
  | .control => externalBits false (!bit7 c) (lowBits c)
  | .plain => externalBits (bit7 c) (!bit7 c) (lowBits c)

/-- The external codes of an output event, in order (49_read_write.md R345). A disc record is sent as it stands:
the source gives no code for it. -/
def OutputEvent.codes : OutputEvent → List ExternalCode
  | .ioc _ _ kind c => [externalCode kind c]
  | .fac _ kind c => [externalCode kind c]
  | .disc _ _ _ _ => []

end Sys2Proof.Machine
end

