-- ==== Sys2Proof/Machine/Timing.lean ====
section
/-! DEFINITION. The execution-time formulas (70_reset_and_hazards.md R420 to R431), in hundredths of a
microsecond. No step uses them (R420): they are the source's statement of ACU time for one instruction. -/

namespace Sys2Proof.Machine

/-- A length digit as it enters a formula; whether 0 counts as 10 is open (70_reset_and_hazards.md R420). -/
def timedDigit (d : Nat) : Nat := if d = 0 ∧ Config.zeroLengthCountsFull = true then 10 else d

/-- 10LA + LB as it enters a formula; whether 00 counts as 100 is open (70_reset_and_hazards.md R420). -/
def timedLength (la lb : Nat) : Nat :=
  if 10 * la + lb = 0 ∧ Config.zeroLengthCountsFull = true then 100 else 10 * la + lb

/-- TIX (70_reset_and_hazards.md R431). -/
def indexTime (a b : Operand) : Nat :=
  match a.index, b.index with
  | .unindexed, .unindexed => 0
  | .unindexed, _ => 3110
  | _, .unindexed => 3110
  | _, _ => 5890

/-- The sum of the decimal digits of a field. -/
def digitSum (field : List Character) : Nat := (field.map num).sum

/-- An overdraft of Add or Subtract: the magnitude of Operand-A exceeds that of Operand-B and the effective signs
are unlike (70_reset_and_hazards.md R421). -/
def overdraft (reverse : Bool) (a b : List Character) : Bool :=
  decide (magnitude b < magnitude (usedPart a b)) && ((signOf a ^^ reverse) != signOf b)

/-- Add and Subtract (70_reset_and_hazards.md R421), without TIX. -/
def sumTime (la lb : Nat) (overdrawn : Bool) : Nat :=
  (if la ≤ lb then 4220 + 330 * la + 1000 * lb else 4220 + 1100 * la + 1220 * lb) +
    if overdrawn then 1000 * lb else 0

/-- Multiply (70_reset_and_hazards.md R429), without TIX. -/
def multiplyTime (la lb sum : Nat) : Nat := 4780 + 667 * la + 1000 * lb + (1000 + 1110 * la) * sum

/-- Divide (70_reset_and_hazards.md R424), without TIX. -/
def divideTime (la lb sum : Nat) : Nat :=
  4667 + 111 * la + 2667 * lb + 2222 * (la * lb) + (1000 + 1110 * la) * sum

/-- The number of equal comparisons of Compare (70_reset_and_hazards.md R423). -/
def equalComparisons : List Character → List Character → Nat
  | x :: xs, y :: ys => if x = y then equalComparisons xs ys + 1 else 0
  | _, _ => 0

/-- Compare (70_reset_and_hazards.md R423), without TIX. -/
def compareTime (n : Nat) (a b : List Character) : Nat :=
  if a = b then 4000 + 778 * n else 4890 + 778 * equalComparisons a b

/-- X1, X2 and X3 of Edit (70_reset_and_hazards.md R425). -/
structure EditCounts where
  x1 : Nat
  x2 : Nat
  x3 : Nat
  deriving DecidableEq, Repr

/-- The characters an edit passes, counted (70_reset_and_hazards.md R425). The sign position is never counted,
whatever character it holds (DESIGN CHOICE, safe: log 47; the rule does not say). -/
def editCounts : List Character → List Nat → Bool → EditCounts → EditCounts
  | c :: cs, d :: ds, significant, n =>
    if isAt c then editCounts cs (d :: ds) significant { n with x1 := n.x1 + 1 }
    else if isPunct c then
      if significant then editCounts cs (d :: ds) significant { n with x2 := n.x2 + 1 }
      else editCounts cs (d :: ds) significant { n with x1 := n.x1 + 1 }
    else if significant || d != 0 || c == ZERO then editCounts cs ds true { n with x3 := n.x3 + 1 }
    else editCounts cs ds false n
  | _, _, _, n => n

/-- X4 of Edit (70_reset_and_hazards.md R425): 0 for a negative operand, 1 for a positive one. A zero operand, minus
zero included, counts as positive (DESIGN CHOICE, safe: log 47; the rule does not say). -/
def editSignTerm (a : List Character) : Nat := if signOf a && !allZero a then 0 else 1

/-- Edit (70_reset_and_hazards.md R425), without TIX. -/
def editTime (lengthTerm : Nat) (n : EditCounts) (x4 : Nat) : Nat :=
  4110 + 1000 * lengthTerm + 667 * n.x1 + 333 * n.x2 + 222 * n.x3 + 222 * x4

/-- LA + LB of the Edit formula; 00 is open as in `timedLength`. -/
def editLengthTerm (la lb : Nat) : Nat :=
  if la + lb = 0 ∧ Config.zeroLengthCountsFull = true then 100 else la + lb

/-- Z' of Form Numeric: the characters of Operand-A reversed that are passed over before so many digits are found
(70_reset_and_hazards.md R427). `started` says that the rightmost non-blank character has been met. -/
def passedOver : List Character → Nat → Bool → Nat
  | _, 0, _ => 0
  | [], _, _ => 0
  | c :: cs, n + 1, started =>
    if isDigit c || (!started && isMinusDigit c) then passedOver cs n true
    else passedOver cs (n + 1) (started || c != BLANK) + 1

/-- Form Numeric (70_reset_and_hazards.md R427), without TIX. -/
def formTime (la lb : Nat) (a : List Character) (places : Nat) : Nat :=
  let z := a.length - (formDigits a.reverse).out.length
  if la ≤ lb + z then 4330 + 333 * la + 778 * lb + 222 * z
  else 4555 + 111 * la + 1000 * lb + 444 * passedOver a.reverse places false

/-- Branch with LA the digit `variant` (70_reset_and_hazards.md R422). LB = 0 never branches (41_branch.md R162,
R165), so that `B 1,0` with flag 1 OFF has the time of no branch. One row of the derived examples of
70_reset_and_hazards.md R432 says otherwise; no function of LB agrees with that row and the next (log 48). -/
def branchTime (cc : ConditionCode) (variant : Nat) (lb : Numeric) : Nat :=
  if branchRequired cc variant then 2780 else if branchRequired cc lb.toNat then 4440 else 3780

/-- Link and Branch on Service Request: their own time when performed, else that of no branch
(70_reset_and_hazards.md R422). -/
def performedTime (performed : Bool) (time : Nat) : Nat := if performed then time else 3780

/-- The fields of an instruction with two operands, read for its formula; none if the addresses are not formed. -/
def State.timedFields (s : State) (a b : Operand) (la lb : Nat) : Option (List Character × List Character) :=
  match s.effective a b with
  | .ok (pa, pb) => some (s.field pa la, s.field pb lb)
  | .error _ => none

/-- The control field an Edit finds, for its formula. -/
def State.timedControl (s : State) (a b : Operand) (n : Nat) : Option (List Character × List Character) := do
  match s.effective a b with
  | .ok (pa, pb) =>
    let m ← controlLength s.mem pb.key (s.sizeOf pb.space - pb.loc) n
    return (s.field pa n, s.field pb m)
  | .error _ => none

/-- The ACU time of an instruction in a state (70_reset_and_hazards.md R421 to R431). None where the source gives
no formula: an unassigned operation code, a Divide without a quotient, addresses that fault. Operands that overlap or
hold numeric portions of 10 to 15 leave a quotient that the spec does not fix (43_divide.md R207, R208), and so S open;
here S is that of the magnitudes as they stand before the instruction (DESIGN CHOICE, safe: log 39). -/
def executionTime (i : Instr) (s : State) : Option Nat :=
  match i with
  | .read _ .ioc _ a b => some (9110 + indexTime a b)
  | .read _ .fac _ a b => some (7330 + indexTime a b)
  | .write _ .ioc _ a b => some (9110 + indexTime a b)
  | .write _ .fac _ a b => some (7330 + indexTime a b)
  | .unassigned2 => none
  | .unassigned3 => none
  | .unassigned10 => none
  | .add la lb a b => do
    let (x, y) ← s.timedFields a b (len1 la) (len1 lb)
    return sumTime (timedDigit la) (timedDigit lb) (overdraft false x y) + indexTime a b
  | .subtract la lb a b => do
    let (x, y) ← s.timedFields a b (len1 la) (len1 lb)
    return sumTime (timedDigit la) (timedDigit lb) (overdraft true x y) + indexTime a b
  | .multiply la lb a b => do
    let (_, y) ← s.timedFields a b (len1 la) (len1 lb)
    return multiplyTime (timedDigit la) (timedDigit lb) (digitSum y) + indexTime a b
  | .divide la lb a b => do
    let (x, y) ← s.timedFields a b (len1 la) (len1 la + len1 lb)
    if magnitude x = 0 ∨ magnitude x ≤ magnitude y / 10 ^ len1 lb then none
    else
      return divideTime (timedDigit la) (timedDigit lb)
        (digits (len1 lb) (magnitude y / magnitude x)).sum + indexTime a b
  | .moveCharacter la lb a b => some (4000 + 1110 * timedLength la lb + indexTime a b)
  | .moveNumeric la lb a b => some (4000 + 1110 * timedLength la lb + indexTime a b)
  | .exchange la lb a b => some (3890 + 1330 * timedLength la lb + indexTime a b)
  | .compare la lb a b => do
    let (x, y) ← s.timedFields a b (len2 la lb) (len2 la lb)
    return compareTime (timedLength la lb) x y + indexTime a b
  | .edit la lb a b => do
    let (x, y) ← s.timedControl a b (len2 la lb)
    return editTime (editLengthTerm la lb) (editCounts y (x.map num) false { x1 := 0, x2 := 0, x3 := 0 })
      (editSignTerm x) + indexTime a b
  | .formNumeric la lb a b => do
    let (x, _) ← s.timedFields a b (len1 la) (len1 lb)
    return formTime (timedDigit la) (timedDigit lb) x (len1 lb) + indexTime a b
  | .branch0 lb _ _ => some (branchTime s.me.cc 0 lb)
  | .branch1 lb _ _ => some (branchTime s.me.cc 1 lb)
  | .branch2 lb _ _ => some (branchTime s.me.cc 2 lb)
  | .branch3 lb _ _ => some (branchTime s.me.cc 3 lb)
  | .branch4 lb _ _ => some (branchTime s.me.cc 4 lb)
  | .branch5 lb _ _ => some (branchTime s.me.cc 5 lb)
  | .link lb _ _ => some (performedTime (branchRequired s.me.cc lb.toNat) 7550)
  | .serviceRequest _ _ _ => some (performedTime s.me.srq.isSome 5110)
  | .branch8 lb _ _ => some (branchTime s.me.cc 8 lb)
  | .branch9 lb _ _ => some (branchTime s.me.cc 9 lb)

end Sys2Proof.Machine
end

