-- ==== Sys2Proof/Safety.lean ====
section
/-! DEFINITION. What a legal installation and a legal state are (00_scope.md R6; 10_state.md R25 to R46), and what a
run may rely on. -/

namespace Sys2Proof.Machine

/-- The ranges of 00_scope.md R6. How low PRIVBASE may lie is not stated ("an upper portion of common storage"): any
location of Common, or its end, so that the Privileged Area may overlap the Protected Area or be empty (DESIGN
CHOICE, safe: log 45). -/
abbrev State.LegalInstallation (s : State) : Prop :=
  1 ≤ s.parts.length ∧ s.parts.length ≤ 20 ∧
  1 ≤ s.inst.modules ∧ s.inst.modules ≤ 11 ∧
  Config.protectedEnd ≤ s.inst.commonSize ∧ s.inst.commonSize ≤ Config.spaceLimit ∧
  (∀ p ∈ s.parts, p.setting.size ≤ Config.spaceLimit) ∧
  (s.parts.map (fun p => p.setting.size)).sum + s.inst.commonSize ≤ 10000 * s.inst.modules ∧
  (∀ base ∈ s.inst.privBase, base ≤ s.inst.commonSize) ∧
  (∀ d ∈ s.inst.discs, d ∈ [0, 1, 2, 3, 4, 8]) ∧
  s.inst.layout.Legal

/-- The area of an IOC operation of partition q as it was admitted (49_read_write.md R317): it lies in its space,
an input area outside the Protected Area, and the parameter registers stand inside it. -/
abbrev State.LegalOperation (s : State) (q : Nat) (o : IocOperation) : Prop :=
  o.device < 10 ∧ 1 ≤ o.total ∧ o.total ≤ 10000 ∧
  o.next + o.left = o.first + o.total ∧ o.left ≤ o.total ∧
  o.first + o.total ≤ s.sizeOf (if o.common then .common else .part q) ∧
  (o.common = true → (∃ mode, o.direction = .read mode) → Config.protectedEnd ≤ o.first) ∧
  ((∃ mode, o.direction = .read mode) → o.done = none → 1 ≤ o.left)

/-- Partition q is in a legal state: P at most one instruction beyond 9990, POLL and SRQ device numbers, its
operation legal. -/
abbrev State.LegalPartition (s : State) (q : Nat) (p : Partition) : Prop :=
  p.pc.loc ≤ 10000 ∧ p.poll < 10 ∧ (∀ d ∈ p.srq, d < 10) ∧ (∀ o ∈ p.io, s.LegalOperation q o)

/-- The legal states: the invariant every step keeps. -/
structure State.Legal (s : State) : Prop where
  installation : s.LegalInstallation
  memory : s.mem.wf = true
  storage : ∀ cell ∈ s.mem, ∃ space loc, cell.1 = Space.key space loc ∧ loc < s.sizeOf space
  host : s.host < s.parts.length
  partitions : ∀ q < s.parts.length, s.LegalPartition q (s.part q)
  discs : ∀ d ∈ s.bound, d.partition < s.parts.length

/-- What the installation fixes is the same in both states (00_scope.md R6). -/
abbrev SameInstallation (s t : State) : Prop :=
  t.inst = s.inst ∧ t.parts.map (fun p => p.setting) = s.parts.map (fun p => p.setting)

/-- The character at a location of a space. -/
def State.at (s : State) (space : Space) (loc : Nat) : Character := s.mem.read (space.key loc)

/-! The words in which a statement says what an instruction leaves. -/

/-- The host partition exists and memory has its canonical form. Every legal state is formed. -/
abbrev State.Formed (s : State) : Prop := s.host < s.parts.length ∧ s.mem.wf = true

/-- Nothing but memory, partitions, the partition in control and its timer is different. -/
abbrev SameMachine (s t : State) : Prop :=
  t.inst = s.inst ∧ t.bound = s.bound ∧ t.fac = s.fac ∧ t.outputs = s.outputs ∧ t.inputs = s.inputs ∧
    t.draws = s.draws

/-- No partition but the host of s is different. -/
abbrev SameOthers (s t : State) : Prop :=
  t.parts.length = s.parts.length ∧ ∀ q, q ≠ s.host → t.part q = s.part q

/-- Every location reads as before. -/
abbrev SameMemory (s t : State) : Prop := ∀ sp loc, loc < Config.spaceLimit → t.at sp loc = s.at sp loc

/-- Every location outside the n characters at a place reads as before. -/
abbrev Untouched (s t : State) (p : Place) (n : Nat) : Prop :=
  ∀ sp loc, loc < Config.spaceLimit → ¬ (sp = p.space ∧ p.loc ≤ loc ∧ loc < p.loc + n) →
    t.at sp loc = s.at sp loc

/-- The host partition goes on with the next sequential instruction under a Condition Code; of all registers only
P and the Condition Code of the host partition are different. -/
abbrev Finishes (s t : State) (cc : ConditionCode) : Prop :=
  SameMachine s t ∧ SameOthers s t ∧ t.host = s.host ∧ t.timer = s.timer ∧
    t.me = { s.me with pc := { s.me.pc with loc := s.me.pc.loc + 10 }, cc := cc }

/-- Control has passed to the next partition, in the numbering of log 25; its continuous control begins (log 26). -/
abbrev Switched (s t : State) : Prop := t.host = (s.host + 1) % s.parts.length ∧ t.timer = 0

/-- Control has stayed. -/
abbrev Stayed (s t : State) : Prop := t.host = s.host ∧ t.timer = s.timer

/-- A taken branch of the host partition: P is the target; control passes on if the switch is forced or the host
partition has been in control for more than 37.5 milliseconds by the timer of log 26, and else stays. -/
abbrev Arrives (s t : State) (target : InstrAddress) (forced : Prop) : Prop :=
  SameMachine s t ∧ SameOthers s t ∧ t.part s.host = { s.me with pc := target } ∧
    ((forced ∨ Config.timeSlice < s.timer) → Switched s t) ∧
    (¬ (forced ∨ Config.timeSlice < s.timer) → Stayed s t)

/-- A variant digit requires a branch (41_branch.md R162). -/
abbrev Required (cc : ConditionCode) (d : Nat) : Prop :=
  d = 5 ∨ d = 8 ∨ (d = 1 ∧ cc.one = true) ∨ (d = 2 ∧ cc.two = true) ∨ (d = 3 ∧ cc.three = true) ∨
    (d = 4 ∧ cc.four = true)

/-- The variants of Branch that are executed half by half, with their digits LA (41_branch.md R161). -/
def plainBranches : List (Nat × (Numeric → BranchAddress → BranchAddress → Instr)) :=
  [(0, .branch0), (1, .branch1), (2, .branch2), (3, .branch3), (4, .branch4), (5, .branch5), (8, .branch8),
    (9, .branch9)]

/-- The digits 0 to 9 of the four address characters of a Branch half, and the location they name. -/
abbrev Names (a : BranchAddress) (loc : Nat) : Prop :=
  a.digits.d3.toNat < 10 ∧ a.digits.d2.toNat < 10 ∧ a.digits.d1.toNat < 10 ∧ a.digits.d0.toNat < 10 ∧
    loc = 1000 * a.digits.d3.toNat + 100 * a.digits.d2.toNat + 10 * a.digits.d1.toNat + a.digits.d0.toNat

/-- Index register i of the host partition exists, holds decimal digits, and their value is x (10_state.md R31); x
is 0 without indexing. -/
def State.IndexHolds (s : State) (i : Index) (x : Nat) : Prop :=
  match i with
  | .unindexed => x = 0
  | .one => holds 11
  | .two => holds 21
  | .three => holds 31
where
  holds (loc : Nat) : Prop :=
    loc + 4 ≤ s.me.setting.size ∧ (∀ k < 4, num (s.at (.part s.host) (loc + k)) < 10) ∧
      x = 1000 * num (s.at (.part s.host) loc) + 100 * num (s.at (.part s.host) (loc + 1)) +
        10 * num (s.at (.part s.host) (loc + 2)) + num (s.at (.part s.host) (loc + 3))

/-- The condition under which the operands of Add, Subtract, Multiply, Divide and Form Numeric are ordinary: the
addresses are formed, A may be read, B may be stored, and they do not overlap. -/
abbrev State.Ordinary (s : State) (a b : Operand) (pa : Place) (la : Nat) (pb : Place) (lb : Nat) : Prop :=
  s.effective a b = .ok (pa, pb) ∧ s.CanRead pa la ∧ s.CanWrite pb lb ∧ overlap pa la pb lb = false

/-- The zone bits of the n characters at a place are as before but for the rightmost, whose bit-5 is ON. -/
abbrev KeepsZones (s t : State) (p : Place) (n : Nat) : Prop :=
  (∀ k, k + 1 < n → bit7 (t.at p.space (p.loc + k)) = bit7 (s.at p.space (p.loc + k)) ∧
      bit5 (t.at p.space (p.loc + k)) = bit5 (s.at p.space (p.loc + k))) ∧
    bit5 (t.at p.space (p.loc + (n - 1))) = true

/-- An instruction stops with a model fault of this kind at P of the host partition. -/
abbrev State.Stops (s : State) (i : Instr) (kind : FaultKind) : Prop :=
  exec i s = .fault (kind.at { partition := s.host, pc := s.me.pc })

/-- The fault of reading n characters at a place: the first that applies (60_exceptions.md R362). -/
abbrev State.ReadFault (s : State) (p : Place) (n : Nat) (kind : FaultKind) : Prop :=
  (kind = .addressRange ∧ ¬ s.InRange p n) ∨
    (kind = .privilegedAccess ∧ s.InRange p n ∧ ¬ s.Accessible p n)

/-- The fault of storing n characters at a place: the first that applies (60_exceptions.md R362). -/
abbrev State.WriteFault (s : State) (p : Place) (n : Nat) (kind : FaultKind) : Prop :=
  (kind = .addressRange ∧ ¬ s.InRange p n) ∨
    (kind = .protectedStore ∧ s.InRange p n ∧ p.space = .common ∧ p.loc < 300) ∨
    (kind = .privilegedAccess ∧ s.InRange p n ∧ ¬ (p.space = .common ∧ p.loc < 300) ∧ ¬ s.Accessible p n)

/-- Where index register i begins (10_state.md R30). -/
def indexStart : Index → Option Nat
  | .unindexed => none
  | .one => some 11
  | .two => some 21
  | .three => some 31

/-- Index register i exists and one of its four characters has a numeric portion of 10 to 15. -/
abbrev State.IndexNotDecimal (s : State) (i : Index) : Prop :=
  ∃ loc ∈ indexStart i, loc + 4 ≤ s.me.setting.size ∧ ∃ k < 4, 10 ≤ num (s.at (.part s.host) (loc + k))

/-- Index register i lies outside the installed partition. -/
abbrev State.IndexMissing (s : State) (i : Index) : Prop :=
  ∃ loc ∈ indexStart i, s.me.setting.size < loc + 4

/-- The instructions whose operands are indexed: all but Branch. -/
def indexedForms (la lb device : Nat) (channel : Channel) (mode : FillMode) (kind : WriteKind) (a b : Operand) :
    List Instr :=
  [.add la lb a b, .subtract la lb a b, .multiply la lb a b, .divide la lb a b, .moveCharacter la lb a b,
    .moveNumeric la lb a b, .edit la lb a b, .compare la lb a b, .exchange la lb a b, .formNumeric la lb a b,
    .read device channel mode a b, .write device channel kind a b]

/-- An operation of this direction asks its IOC for a signal of this form (49_read_write.md R321, R325, R326). -/
abbrev Asked (d : Direction) (x : IocSignal) : Prop :=
  ((∃ mode, d = .read mode) ∧ ((∃ c k, x = .character c k) ∨ ∃ k, x = .unitSeparator k)) ∨
    ((∃ kind, d = .write kind) ∧ ∃ k, x = .ready k) ∨ ∃ how, x = .ended how

/-- Two states differ at most in the storage of partition q. -/
abbrev SameBut (q : Nat) (s s' : State) : Prop :=
  s'.mem.wf = s.mem.wf ∧ s' = { s with mem := s'.mem } ∧
    ∀ sp loc, sp ≠ .part q → loc < Config.spaceLimit → s'.at sp loc = s.at sp loc

/-- The run is over: every partition is finished and has no operation (60_exceptions.md R386; log 36). -/
def State.runOver (s : State) : Bool :=
  s.parts.all (fun p => p.setting.stop.contains p.pc && p.io.isNone)

end Sys2Proof.Machine
end

