-- ==== Sys2Proof/WellFormed.lean ====
section
/-! DEFINITION. Which terms of `Instr` an encoding can hold: digits are digits and addresses have four of
them (30_encoding.md R105, R106). -/

namespace Sys2Proof

/-- The address has four decimal digits (30_encoding.md R105). -/
def Operand.wf (o : Operand) : Bool := decide (o.addr < 10000)

/-- LA and LB are digits and both addresses have four digits. -/
def Instr.wfFields (la lb : Nat) (a b : Operand) : Bool :=
  decide (la < 10) && decide (lb < 10) && a.wf && b.wf

/-- The well-formed instructions. A Branch may hold any numeric portions (41_branch.md R163(e)). -/
def Instr.wf : Instr → Bool
  | .read device _ _ a b => decide (device < 10) && a.wf && b.wf
  | .write device _ _ a b => decide (device < 10) && a.wf && b.wf
  | .unassigned2 => true
  | .unassigned3 => true
  | .add la lb a b => wfFields la lb a b
  | .divide la lb a b => wfFields la lb a b
  | .multiply la lb a b => wfFields la lb a b
  | .subtract la lb a b => wfFields la lb a b
  | .moveCharacter la lb a b => wfFields la lb a b
  | .moveNumeric la lb a b => wfFields la lb a b
  | .unassigned10 => true
  | .branch0 _ _ _ => true
  | .branch1 _ _ _ => true
  | .branch2 _ _ _ => true
  | .branch3 _ _ _ => true
  | .branch4 _ _ _ => true
  | .branch5 _ _ _ => true
  | .link _ _ _ => true
  | .serviceRequest _ _ _ => true
  | .branch8 _ _ _ => true
  | .branch9 _ _ _ => true
  | .edit la lb a b => wfFields la lb a b
  | .formNumeric la lb a b => wfFields la lb a b
  | .compare la lb a b => wfFields la lb a b
  | .exchange la lb a b => wfFields la lb a b

end Sys2Proof
end

