-- ==== Sys2Proof/Certificates/Slice0/Obligations.lean ====
section
/-! DEFINITION. The statements for the provers. A docstring names the rule a statement formalises; where a clause
is the spec's own decision or the model's, it names the log entry (notes/assumptions) and the statement's basis is
derived. -/

open Sys2Proof Sys2Proof.Machine

/-! Encoding. -/

/-- 30_encoding.md R109, R121: decoding an encoded well-formed instruction gives it back, under every legal zone
layout (log 7). -/
def Obligations.DecodeOfEncode : Prop :=
  ∀ (lay : ZoneLayout) (i : Instr), lay.Legal → i.wf = true → decode lay (encode lay i) = .ok i

/-- 30_encoding.md R102, R109, R121, 41_branch.md R163: apart from bit-5 (log 8), the ten characters of an instruction
with two operands are those its decoding encodes to; those of a Branch are, but for the bit-7 of characters 5 to 9 other
than BC, which it ignores. -/
def Obligations.EncodeOfDecode : Prop :=
  ∀ (lay : ZoneLayout) (cs : List Character) (i : Instr), lay.Legal → decode lay cs = .ok i →
    (i.fields.f ∉ [2, 3, 10, 11] →
      (encode lay i).map (fun c => (bit7 c, numeric c)) = cs.map (fun c => (bit7 c, numeric c))) ∧
    (i.fields.f = 11 → (encode lay i).map numeric = cs.map numeric ∧
      ∀ k, k < 5 ∨ k = lay.bc → bit7 ((encode lay i).getD k BLANK) = bit7 (cs.getD k BLANK))

/-- 30_encoding.md R105, R106: what the decoder accepts is well formed: its digits are digits and its addresses have
four of them. -/
def Obligations.DecodedIsWellFormed : Prop :=
  ∀ (lay : ZoneLayout) (cs : List Character) (i : Instr), decode lay cs = .ok i → i.wf = true

/-- 30_encoding.md R104, the spec's decision D2 (log 8): two instructions that differ only in bit-5 are the same. -/
def Obligations.DecodeIgnoresBit5 : Prop :=
  ∀ (lay : ZoneLayout) (cs cs' : List Character),
    cs.map (fun c => (bit7 c, numeric c)) = cs'.map (fun c => (bit7 c, numeric c)) →
    decode lay cs = decode lay cs'

/-- 30_encoding.md R102, R110: the operation code of a decoded instruction is bit-7 of characters 0 to 3, and the
codes 2, 3 and 10 are decoded whatever the other characters hold. -/
def Obligations.DecodedOperationCode : Prop :=
  ∀ (lay : ZoneLayout) (c0 c1 c2 c3 c4 c5 c6 c7 c8 c9 : Character) (f : Nat),
    f = 8 * (bit7 c0).toNat + 4 * (bit7 c1).toNat + 2 * (bit7 c2).toNat + (bit7 c3).toNat →
    (∀ i, decode lay [c0, c1, c2, c3, c4, c5, c6, c7, c8, c9] = .ok i → i.fields.f.toNat = f) ∧
    (f = 2 → decode lay [c0, c1, c2, c3, c4, c5, c6, c7, c8, c9] = .ok .unassigned2) ∧
    (f = 3 → decode lay [c0, c1, c2, c3, c4, c5, c6, c7, c8, c9] = .ok .unassigned3) ∧
    (f = 10 → decode lay [c0, c1, c2, c3, c4, c5, c6, c7, c8, c9] = .ok .unassigned10)

/-- 30_encoding.md R121, R122 and 95_test_vectors.md section 2.1: words written out bit by bit (character 0 first)
decode to the instructions they stand for. A sanity statement. -/
def Obligations.WrittenWordsDecode : Prop :=
  decode ZoneLayout.default
      [0b010011, 0b110000, 0b010001, 0b010000, 0b010000, 0b010101, 0b010000, 0b110100, 0b010010, 0b110000] =
    .ok (.add 3 5 { common := false, addr := 100, index := .unindexed }
      { common := true, addr := 420, index := .two }) ∧
  decode ZoneLayout.default
      [0b110000, 0b110000, 0b110001, 0b010000, 0b010000, 0b010011, 0b010000, 0b010010, 0b010000, 0b010000] =
    .ok (.compare 0 3 { common := false, addr := 100, index := .unindexed }
      { common := false, addr := 200, index := .unindexed }) ∧
  decode ZoneLayout.default
      [0b110110, 0b010000, 0b110010, 0b110101, 0b010001, 0b010101, 0b010000, 0b010100, 0b010000, 0b010000] =
    .ok (.link 5 { common := false, digits := { d3 := 0, d2 := 2, d1 := 5, d0 := 1 } }
      { common := false, digits := { d3 := 0, d2 := 4, d1 := 0, d0 := 0 } })

/-! The step, the invariant and isolation. -/

/-- 20_memory.md R84, 60_exceptions.md R367, 70_reset_and_hazards.md R401: a step is the instruction boundary and then,
when the host partition does not wait for its operation, has collected the end of one that has ended
(`IocWaitAndResume` says what that does), is not at a stop address, and the ten characters at P may be fetched and decode
to an instruction, that instruction. Boundaries are the spec's decision D24 (log 24), stop addresses D35 (log 36). -/
def Obligations.StepRunsDecodedInstruction : Prop :=
  ∀ (s t : State) (i : Instr), (∀ o, s.boundary.me.io = some o → o.done ≠ none) → t = s.boundary.resume →
    t.me.pc ∉ t.me.setting.stop →
    t.me.pc.loc % 10 = 0 → t.CanRead (t.place t.me.pc.common t.me.pc.loc) 10 →
    decode t.inst.layout (t.field (t.place t.me.pc.common t.me.pc.loc) 10) = .ok i →
    step s = exec i t

/-- 10_state.md R50, 70_reset_and_hazards.md R401: the reset state is legal; no operation is in progress and no disc
is bound. The other values are the model's (log 1 to 5). -/
def Obligations.ResetIsLegal : Prop :=
  State.reset.Legal ∧ (∀ q, (State.reset.part q).io = none) ∧ State.reset.bound = []

/-- Every step keeps the legal states: memory canonical and inside the installed spaces, the host a partition, P at
most one instruction beyond the last, device numbers digits, every input or output area inside its space and, for
input, outside the Protected Area. Model invariant over 00_scope.md R6, 10_state.md R25 to R46, 49_read_write.md R317
(log 5, 6, 35, 42). -/
def Obligations.StepKeepsLegal : Prop :=
  ∀ s t : State, s.Legal → step s = .next t → t.Legal

/-- 20_memory.md R71: no step of a legal state changes a location of the Protected Area, Common 0 to 299, by an
instruction or a transfer; a store there faults by the spec's decision D9 (log 13). That no step at all changes them also
rests on the model's choice that what the ACU saves there (P, Condition Codes, I/O parameters) is held in fields of
State instead (log 5, unsafe). -/
def Obligations.ProtectedAreaNeverChanges : Prop :=
  ∀ s t : State, s.Legal → step s = .next t → ∀ loc, loc < 300 → t.at .common loc = s.at .common loc

/-- 00_scope.md R6: what the installation fixes is the same after every step. -/
def Obligations.InstallationNeverChanges : Prop :=
  ∀ s t : State, step s = .next t → SameInstallation s t

/-- 10_state.md R40: whatever the host partition executes, the Condition Code of every other partition is
unchanged. -/
def Obligations.OtherConditionCodesKept : Prop :=
  ∀ (s t : State) (q : Nat), step s = .next t → q ≠ s.host → (t.part q).cc = (s.part q).cc

/-- 10_state.md R26, 60_exceptions.md R374: no instruction changes the registers, the channel or the storage of a
partition other than the host. -/
def Obligations.InstructionLeavesOtherPartitions : Prop :=
  ∀ (i : Instr) (s t : State) (q : Nat), exec i s = .next t → q ≠ s.host →
    t.part q = s.part q ∧ ∀ loc, loc < Config.spaceLimit → t.at (.part q) loc = s.at (.part q) loc

/-- 10_state.md R26, 60_exceptions.md R374: what an instruction does is independent of what stands in the storage of
a partition other than the host. -/
def Obligations.InstructionLearnsNothingOfOthers : Prop :=
  ∀ (i : Instr) (s s' : State) (q : Nat), s.Formed → q ≠ s.host → SameBut q s s' →
    (∀ t, exec i s = .next t → ∃ t', exec i s' = .next t' ∧ SameBut q t t') ∧
    (∀ f, exec i s = .fault f → exec i s' = .fault f)

/-- 60_exceptions.md R371: control stays with the host partition after every instruction but Branch, Read and
Write. -/
def Obligations.ControlStays : Prop :=
  ∀ (i : Instr) (s t : State), exec i s = .next t →
    i.fields.f ≠ 0 → i.fields.f ≠ 1 → i.fields.f ≠ 11 → Stayed s t

/-- 10_state.md R39, Table G3-1: which sets of flags the instructions leave. That overflow is flag 4 alone is the
spec's decision D13 (log 15). Branch leaves the Condition Code as it is. -/
def Obligations.ConditionCodeSettings : Prop :=
  ∀ (i : Instr) (s t : State), s.host < s.parts.length → exec i s = .next t →
    (i.fields.f ∈ [4, 5, 6, 7, 13] → ∃ k, t.me.cc = .only k) ∧
    (i.fields.f ∈ [8, 9, 15] → t.me.cc = .only .two) ∧
    (i.fields.f = 14 → t.me.cc = .only .one ∨ t.me.cc = .equal ∨ t.me.cc = .greater) ∧
    (i.fields.f = 12 → ∃ k, k ≠ .four ∧ t.me.cc = .only k) ∧
    (i.fields.f = 11 → (t.part s.host).cc = s.me.cc)

/-! Addresses and faults. -/

/-- 20_memory.md R62: the effective addresses are the address fields plus the index registers, in Common when the C
bit is 1. The value of an index register is the spec's decision D6 (log 11). -/
def Obligations.EffectiveAddresses : Prop :=
  ∀ (s : State) (a b : Operand) (xa xb : Nat), s.IndexHolds a.index xa → s.IndexHolds b.index xb →
    a.addr + xa ≤ 9999 → b.addr + xb ≤ 9999 →
    s.effective a b =
      .ok ({ space := if a.common then .common else .part s.host, loc := a.addr + xa },
        { space := if b.common then .common else .part s.host, loc := b.addr + xb })

/-- 10_state.md R31 and 20_memory.md R64, the spec's decisions D6, D7 (log 11, 12): for every instruction with indexed
operands, a digit 10 to 15 in the register of A, or of B when that of A holds a value, and a sum above 9999 are faults,
and the state is not changed. For the count of a Read or Write the limit of the sum is the spec's decision D33
(49_read_write.md R314, log 34). A register outside the installed partition is an AddressRange, ranked as log 46 says. -/
def Obligations.IndexingFaults : Prop :=
  ∀ (s : State) (la lb device : Nat) (channel : Channel) (mode : FillMode) (kind : WriteKind) (a b : Operand),
    channel = .ioc ∨ device ∈ [0, 1, 2, 3, 4, 8] →
    ∀ i ∈ indexedForms la lb device channel mode kind a b,
      (s.IndexNotDecimal a.index → s.Stops i .nonDecimalDigit) ∧
      (s.IndexMissing a.index → s.Stops i .addressRange) ∧
      (∀ xa, s.IndexHolds a.index xa →
        (s.IndexNotDecimal b.index → s.Stops i .nonDecimalDigit) ∧
        (s.IndexMissing b.index → s.Stops i .addressRange) ∧
        (∀ xb, s.IndexHolds b.index xb → 9999 < a.addr + xa ∨ 9999 < b.addr + xb → s.Stops i .addressRange))

/-- 20_memory.md R71, R72, R74, 44_edit.md R223, 45_exchange.md R241, 60_exceptions.md R362, the spec's decisions D8 to
D10, D22 (log 12, 13, 22, 33): the operand fields of every instruction with two operands in memory are checked, A and
then B: read or stored as the instruction does, Exchange storing into both, Edit into the control field that its scan
finds. -/
def Obligations.OperandFaults : Prop :=
  ∀ (s : State) (la lb : Nat) (a b : Operand) (pa pb : Place) (kind : FaultKind),
    s.effective a b = .ok (pa, pb) →
    (∀ x ∈ [(Instr.add la lb a b, len1 la, len1 lb), (.subtract la lb a b, len1 la, len1 lb),
        (.formNumeric la lb a b, len1 la, len1 lb), (.multiply la lb a b, len1 la, len1 lb + len1 la),
        (.divide la lb a b, len1 la, len1 la + len1 lb), (.moveCharacter la lb a b, len2 la lb, len2 la lb),
        (.moveNumeric la lb a b, len2 la lb, len2 la lb)],
      (s.ReadFault pa x.2.1 kind → s.Stops x.1 kind) ∧
      (s.CanRead pa x.2.1 → s.WriteFault pb x.2.2 kind → s.Stops x.1 kind)) ∧
    (s.ReadFault pa (len2 la lb) kind → s.Stops (.compare la lb a b) kind) ∧
    (s.CanRead pa (len2 la lb) → s.ReadFault pb (len2 la lb) kind → s.Stops (.compare la lb a b) kind) ∧
    (s.WriteFault pa (len2 la lb) kind → s.Stops (.exchange la lb a b) kind) ∧
    (s.CanWrite pa (len2 la lb) → s.WriteFault pb (len2 la lb) kind → s.Stops (.exchange la lb a b) kind) ∧
    (s.ReadFault pa (len2 la lb) kind → s.Stops (.edit la lb a b) kind) ∧
    (s.CanRead pa (len2 la lb) →
      (controlLength s.mem pb.key (s.sizeOf pb.space - pb.loc) (len2 la lb) = none →
        s.Stops (.edit la lb a b) .addressRange) ∧
      (∀ m, controlLength s.mem pb.key (s.sizeOf pb.space - pb.loc) (len2 la lb) = some m →
        s.WriteFault pb m kind → s.Stops (.edit la lb a b) kind))

/-- 10_state.md R37, 20_memory.md R72, 60_exceptions.md R361, R362, the spec's decisions D4, D5, D10 to D12 (log 10, 12 to
14, 33): the faults of a fetch, in their order, and of characters the decoder rejects, after the boundary (log 24), the
end of an operation collected if there is one. What is rejected is in `DecodedIsWellFormed` and `EncodeOfDecode`. -/
def Obligations.FetchFaults : Prop :=
  ∀ (s t : State) (p : Place), (∀ o, s.boundary.me.io = some o → o.done ≠ none) → t = s.boundary.resume →
    t.me.pc ∉ t.me.setting.stop →
    p = t.place t.me.pc.common t.me.pc.loc →
    (t.me.pc.loc % 10 ≠ 0 → step s = .fault (.misalignedInstruction { partition := t.host, pc := t.me.pc })) ∧
    (t.me.pc.loc % 10 = 0 → ¬ t.InRange p 10 →
      step s = .fault (.addressRange { partition := t.host, pc := t.me.pc })) ∧
    (t.me.pc.loc % 10 = 0 → t.InRange p 10 → ¬ t.Accessible p 10 →
      step s = .fault (.privilegedAccess { partition := t.host, pc := t.me.pc })) ∧
    (∀ e, t.me.pc.loc % 10 = 0 → t.CanRead p 10 → decode t.inst.layout (t.field p 10) = .error e →
      step s = .fault (.reservedEncoding { partition := t.host, pc := t.me.pc }))

/-- 30_encoding.md R112, the spec's decision D3 (log 9): the operation codes 2, 3 and 10 stop in every state. -/
def Obligations.UnassignedCodesStop : Prop :=
  ∀ s : State,
    exec .unassigned2 s = .fault (.illegalOpcode { partition := s.host, pc := s.me.pc }) ∧
    exec .unassigned3 s = .fault (.illegalOpcode { partition := s.host, pc := s.me.pc }) ∧
    exec .unassigned10 s = .fault (.illegalOpcode { partition := s.host, pc := s.me.pc })

/-! Add, Subtract, Multiply, Divide. -/

/-- 40_add_subtract.md R142, R143: Add of decimal operands that do not overlap, when the sum fits. The sign of a zero
sum is left open (log 16). -/
def Obligations.AddSum : Prop :=
  ∀ (s : State) (la lb : Nat) (a b : Operand) (pa pb : Place) (usedA : List Character) (r : Int),
    s.Formed → s.Ordinary a b pa (len1 la) pb (len1 lb) →
    usedA = (s.field pa (len1 la)).drop (len1 la - min (len1 la) (len1 lb)) →
    allDecimal usedA = true → allDecimal (s.field pb (len1 lb)) = true →
    r = signedValue usedA + signedValue (s.field pb (len1 lb)) → r.natAbs < 10 ^ len1 lb →
    ∃ t, exec (.add la lb a b) s = .next t ∧
      Finishes s t (if r < 0 then .only .one else if r = 0 then .only .two else .only .three) ∧
      Untouched s t pb (len1 lb) ∧ KeepsZones s t pb (len1 lb) ∧
      allDecimal (t.field pb (len1 lb)) = true ∧ magnitude (t.field pb (len1 lb)) = r.natAbs ∧
      (r ≠ 0 → signedValue (t.field pb (len1 lb)) = r)

/-- 40_add_subtract.md section 3: Subtract of decimal operands that do not overlap, when the difference fits. The sign
of a zero difference is left open (log 16). -/
def Obligations.SubtractDifference : Prop :=
  ∀ (s : State) (la lb : Nat) (a b : Operand) (pa pb : Place) (usedA : List Character) (r : Int),
    s.Formed → s.Ordinary a b pa (len1 la) pb (len1 lb) →
    usedA = (s.field pa (len1 la)).drop (len1 la - min (len1 la) (len1 lb)) →
    allDecimal usedA = true → allDecimal (s.field pb (len1 lb)) = true →
    r = signedValue (s.field pb (len1 lb)) - signedValue usedA → r.natAbs < 10 ^ len1 lb →
    ∃ t, exec (.subtract la lb a b) s = .next t ∧
      Finishes s t (if r < 0 then .only .one else if r = 0 then .only .two else .only .three) ∧
      Untouched s t pb (len1 lb) ∧ KeepsZones s t pb (len1 lb) ∧
      allDecimal (t.field pb (len1 lb)) = true ∧ magnitude (t.field pb (len1 lb)) = r.natAbs ∧
      (r ≠ 0 → signedValue (t.field pb (len1 lb)) = r)

/-- 40_add_subtract.md R144, with the spec's decision D13 (log 15): a sum that does not fit leaves its low-order digits
with the common sign, flag 4 alone, and nothing outside Operand-B. -/
def Obligations.SumOverflow : Prop :=
  ∀ (s : State) (la lb : Nat) (a b : Operand) (pa pb : Place) (usedA : List Character),
    s.Formed → s.Ordinary a b pa (len1 la) pb (len1 lb) →
    usedA = (s.field pa (len1 la)).drop (len1 la - min (len1 la) (len1 lb)) →
    allDecimal usedA = true → allDecimal (s.field pb (len1 lb)) = true →
    10 ^ len1 lb ≤ magnitude usedA + magnitude (s.field pb (len1 lb)) →
    (signOf usedA = signOf (s.field pb (len1 lb)) →
      ∃ t, exec (.add la lb a b) s = .next t ∧ Finishes s t (.only .four) ∧ Untouched s t pb (len1 lb) ∧
        KeepsZones s t pb (len1 lb) ∧ allDecimal (t.field pb (len1 lb)) = true ∧
        signOf (t.field pb (len1 lb)) = signOf (s.field pb (len1 lb)) ∧
        magnitude (t.field pb (len1 lb)) =
          (magnitude usedA + magnitude (s.field pb (len1 lb))) % 10 ^ len1 lb) ∧
    (signOf usedA ≠ signOf (s.field pb (len1 lb)) →
      ∃ t, exec (.subtract la lb a b) s = .next t ∧ Finishes s t (.only .four) ∧ Untouched s t pb (len1 lb) ∧
        KeepsZones s t pb (len1 lb) ∧ allDecimal (t.field pb (len1 lb)) = true ∧
        signOf (t.field pb (len1 lb)) = signOf (s.field pb (len1 lb)) ∧
        magnitude (t.field pb (len1 lb)) =
          (magnitude usedA + magnitude (s.field pb (len1 lb))) % 10 ^ len1 lb)

/-- 40_add_subtract.md R150: Subtract does what Add does on the state in which only the sign of Operand-A is
reversed, and leaves Operand-A as it is. -/
def Obligations.SubtractReversesSign : Prop :=
  ∀ (s s' t' : State) (la lb : Nat) (a b : Operand) (pa pb : Place) (c : Character) (k : Nat),
    s.Formed → s.Ordinary a b pa (len1 la) pb (len1 lb) → k = pa.loc + (len1 la - 1) → c = s.at pa.space k →
    s' = { s with mem := s.mem.write (pa.space.key k) (character (!bit7 c) (bit5 c) (numeric c)) } →
    exec (.add la lb a b) s' = .next t' →
    ∃ t, exec (.subtract la lb a b) s = .next t ∧ Finishes s t t'.me.cc ∧ t.at pa.space k = c ∧
      ∀ sp loc, loc < Config.spaceLimit → ¬ (sp = pa.space ∧ loc = k) → t.at sp loc = t'.at sp loc

/-- 48_multiply.md R294, R295: the product of decimal operands that do not overlap: value, signs, zones and flags;
flag 4 is never set. -/
def Obligations.MultiplyProduct : Prop :=
  ∀ (s : State) (la lb n : Nat) (a b : Operand) (pa pb : Place) (x y : List Character),
    n = len1 lb + len1 la → s.Formed → s.Ordinary a b pa (len1 la) pb n →
    x = s.field pa (len1 la) → y = s.field pb (len1 lb) → allDecimal x = true → allDecimal y = true →
    ∃ t, exec (.multiply la lb a b) s = .next t ∧
      Finishes s t (if magnitude x * magnitude y = 0 then .only .two
        else if signOf x = signOf y then .only .three else .only .one) ∧
      Untouched s t pb n ∧ magnitude (t.field pb n) = magnitude x * magnitude y ∧
      (signOf (t.field pb n) = true ↔ signOf x ≠ signOf y) ∧
      (∀ k, k + 1 < n → isDigit (t.at pb.space (pb.loc + k)) = true) ∧
      (isDigit (t.at pb.space (pb.loc + (n - 1))) = true ∨
        isMinusDigit (t.at pb.space (pb.loc + (n - 1))) = true)

/-- 43_divide.md R202, R203: quotient and remainder of decimal operands that do not overlap, when the leftmost
positions of the dividend are less than the divisor: the signed values, their signs, zones and flags. -/
def Obligations.DivideQuotient : Prop :=
  ∀ (s : State) (la lb n : Nat) (a b : Operand) (pa pb pr : Place) (x y : List Character),
    n = len1 la + len1 lb → s.Formed → s.Ordinary a b pa (len1 la) pb n →
    x = s.field pa (len1 la) → y = s.field pb n → allDecimal x = true → allDecimal y = true →
    magnitude (y.take (len1 la)) < magnitude x → pr = { pb with loc := pb.loc + len1 lb } →
    ∃ t, exec (.divide la lb a b) s = .next t ∧
      Finishes s t (if magnitude (t.field pb (len1 lb)) = 0 then .only .two
        else if signOf x = signOf y then .only .three else .only .one) ∧
      Untouched s t pb n ∧ allDecimal (t.field pb n) = true ∧
      signedValue y = signedValue (t.field pb (len1 lb)) * signedValue x + signedValue (t.field pr (len1 la)) ∧
      magnitude (t.field pr (len1 la)) < magnitude x ∧
      (signOf (t.field pb (len1 lb)) = true ↔ signOf x ≠ signOf y) ∧
      signOf (t.field pr (len1 la)) = signOf y ∧ KeepsZones s t pr (len1 la) ∧
      (∀ k, k + 1 < len1 lb → isDigit (t.at pb.space (pb.loc + k)) = true) ∧
      bit5 (t.at pb.space (pb.loc + (len1 lb - 1))) = true

/-- 43_divide.md R205, R206, with the spec's decision D17 (log 18): overflow sets flag 4 and leaves the dividend open;
division by zero sets flag 4 and leaves every character of the dividend as it is. -/
def Obligations.DivideOverflow : Prop :=
  ∀ (s : State) (la lb n : Nat) (a b : Operand) (pa pb : Place),
    n = len1 la + len1 lb → s.Formed → s.Ordinary a b pa (len1 la) pb n →
    allDecimal (s.field pa (len1 la)) = true → allDecimal (s.field pb n) = true →
    magnitude (s.field pa (len1 la)) ≤ magnitude ((s.field pb n).take (len1 la)) →
    ∃ t, exec (.divide la lb a b) s = .next t ∧ Finishes s t (.only .four) ∧ Untouched s t pb n ∧
      (magnitude (s.field pa (len1 la)) = 0 → SameMemory s t)

/-- 40_add_subtract.md R146, R147, 43_divide.md R207, R208, 46_form_numeric.md R258, 48_multiply.md R296, R297, the spec's
decisions D15, D16 (log 17): on overlapped operands, and on numeric portions 10 to 15 in the positions used, the
instruction runs, one flag is ON and nothing outside the destination field changes. -/
def Obligations.UnspecifiedResults : Prop :=
  ∀ (s : State) (la lb n : Nat) (a b : Operand) (pa pb : Place), s.Formed → s.effective a b = .ok (pa, pb) →
    s.CanRead pa (len1 la) → s.CanWrite pb n →
    (n = len1 lb →
      (overlap pa (len1 la) pb n = true ∨
        allDecimal ((s.field pa (len1 la)).drop (len1 la - min (len1 la) (len1 lb))) = false ∨
        allDecimal (s.field pb n) = false) →
      ∀ i ∈ [Instr.add la lb a b, .subtract la lb a b],
        ∃ t k, exec i s = .next t ∧ Finishes s t (.only k) ∧ Untouched s t pb n) ∧
    (n = len1 lb → overlap pa (len1 la) pb n = true →
      ∃ t k, exec (.formNumeric la lb a b) s = .next t ∧ Finishes s t (.only k) ∧ Untouched s t pb n) ∧
    (n = len1 lb + len1 la →
      (overlap pa (len1 la) pb n = true ∨ allDecimal (s.field pa (len1 la)) = false ∨
        allDecimal (s.field pb (len1 lb)) = false) →
      ∃ t k, exec (.multiply la lb a b) s = .next t ∧ Finishes s t (.only k) ∧ Untouched s t pb n) ∧
    (n = len1 la + len1 lb →
      (overlap pa (len1 la) pb n = true ∨ allDecimal (s.field pa (len1 la)) = false ∨
        allDecimal (s.field pb n) = false) →
      ∃ t k, exec (.divide la lb a b) s = .next t ∧ Finishes s t (.only k) ∧ Untouched s t pb n)

/-! Compare, Exchange, Move Character, Move Numeric. -/

/-- 42_compare.md R191, R192, R193: Compare changes no location; its flags follow the first difference from the left, all six
bits of a character taking part, however the operands overlap. -/
def Obligations.CompareFlags : Prop :=
  ∀ (s : State) (la lb n : Nat) (a b : Operand) (pa pb : Place),
    n = len2 la lb → s.host < s.parts.length → s.effective a b = .ok (pa, pb) → s.CanRead pa n → s.CanRead pb n →
    ∃ t cc, exec (.compare la lb a b) s = .next t ∧ Finishes s t cc ∧ SameMemory s t ∧
      ((∀ k < n, s.at pa.space (pa.loc + k) = s.at pb.space (pb.loc + k)) → cc = .equal) ∧
      (∀ k < n, (∀ j < k, s.at pa.space (pa.loc + j) = s.at pb.space (pb.loc + j)) →
        (s.at pa.space (pa.loc + k) < s.at pb.space (pb.loc + k) → cc = .only .one) ∧
        (s.at pb.space (pb.loc + k) < s.at pa.space (pa.loc + k) → cc = .greater))

/-- 45_exchange.md R241, R242: Exchange swaps fields that do not overlap; fields that overlap by a distance d rotate; a
field exchanged with itself stands. -/
def Obligations.ExchangeSwaps : Prop :=
  ∀ (s : State) (la lb n : Nat) (a b : Operand) (pa pb : Place),
    n = len2 la lb → s.Formed → s.effective a b = .ok (pa, pb) → s.CanWrite pa n → s.CanWrite pb n →
    ∃ t, exec (.exchange la lb a b) s = .next t ∧ Finishes s t (.only .two) ∧
      (∀ sp loc, loc < Config.spaceLimit → ¬ (sp = pa.space ∧ pa.loc ≤ loc ∧ loc < pa.loc + n) →
        ¬ (sp = pb.space ∧ pb.loc ≤ loc ∧ loc < pb.loc + n) → t.at sp loc = s.at sp loc) ∧
      (overlap pa n pb n = false → ∀ k < n,
        t.at pa.space (pa.loc + k) = s.at pb.space (pb.loc + k) ∧
        t.at pb.space (pb.loc + k) = s.at pa.space (pa.loc + k)) ∧
      (pa = pb → SameMemory s t) ∧
      (∀ lo d, pa.space = pb.space → 0 < d → d < n →
        (pa.loc = lo ∧ pb.loc = lo + d ∨ pb.loc = lo ∧ pa.loc = lo + d) →
        (∀ k < n, t.at pa.space (lo + k) = s.at pa.space (lo + k + d)) ∧
        (∀ k, n ≤ k → k < n + d → t.at pa.space (lo + k) = s.at pa.space (lo + k % d)))

/-- 47_move.md R271, R272: Move Character copies one position at a time from left to right: a field that does not begin
inside Operand-A to the right of its beginning receives Operand-A, one that begins d positions to the right receives
the first d characters repeated. -/
def Obligations.MoveCharacterCopies : Prop :=
  ∀ (s : State) (la lb n : Nat) (a b : Operand) (pa pb : Place),
    n = len2 la lb → s.Formed → s.effective a b = .ok (pa, pb) → s.CanRead pa n → s.CanWrite pb n →
    ∃ t, exec (.moveCharacter la lb a b) s = .next t ∧ Finishes s t (.only .two) ∧ Untouched s t pb n ∧
      (¬ (pa.space = pb.space ∧ pa.loc < pb.loc ∧ pb.loc < pa.loc + n) →
        ∀ k < n, t.at pb.space (pb.loc + k) = s.at pa.space (pa.loc + k)) ∧
      (pa.space = pb.space → ∀ d, 0 < d → d < n → pb.loc = pa.loc + d →
        ∀ k < n, t.at pb.space (pb.loc + k) = s.at pa.space (pa.loc + k % d))

/-- 47_move.md R280, R281: Move Numeric copies numeric portions in the same manner and keeps every zone bit. -/
def Obligations.MoveNumericCopies : Prop :=
  ∀ (s : State) (la lb n : Nat) (a b : Operand) (pa pb : Place),
    n = len2 la lb → s.Formed → s.effective a b = .ok (pa, pb) → s.CanRead pa n → s.CanWrite pb n →
    ∃ t, exec (.moveNumeric la lb a b) s = .next t ∧ Finishes s t (.only .two) ∧ Untouched s t pb n ∧
      (∀ sp loc, loc < Config.spaceLimit →
        bit7 (t.at sp loc) = bit7 (s.at sp loc) ∧ bit5 (t.at sp loc) = bit5 (s.at sp loc)) ∧
      (¬ (pa.space = pb.space ∧ pa.loc < pb.loc ∧ pb.loc < pa.loc + n) →
        ∀ k < n, numeric (t.at pb.space (pb.loc + k)) = numeric (s.at pa.space (pa.loc + k))) ∧
      (pa.space = pb.space → ∀ d, 0 < d → d < n → pb.loc = pa.loc + d →
        ∀ k < n, numeric (t.at pb.space (pb.loc + k)) = numeric (s.at pa.space (pa.loc + k % d)))

/-! Edit and Form Numeric. -/

/-- 44_edit.md R223, with the spec's decision D22 (log 22): the extent of a control field is the least that holds n
fillers, the last of them just left of the sign position, and none if the room ends first. -/
def Obligations.ControlFieldExtent : Prop :=
  ∀ (m : Memory) (k room n l : Nat), 1 ≤ n →
    (controlLength m k room n = some l ↔
      2 ≤ l ∧ l ≤ room ∧ isFiller (m.read (k + (l - 2))) = true ∧
        (m.readField k (l - 1)).countP isFiller = n)

/-- 44_edit.md R221, R224 to R228: the edited control field, position by position: fillers, punctuation, at signs and the
sign position, and the flags. `significant j` says that a filler at or left of position j got a digit other than zero or
is the character 0. Punctuation in position 0 is the one position left open (decision D21, log 22). The extent m and the
sign position at its end, whatever it holds, are the spec's decision D22 (log 22). -/
def Obligations.EditPositions : Prop :=
  ∀ (s : State) (la lb n m : Nat) (a b : Operand) (pa pb : Place) (digit : Nat → Nat) (significant : Nat → Prop),
    n = len2 la lb → s.Formed → s.effective a b = .ok (pa, pb) → s.CanRead pa n →
    controlLength s.mem pb.key (s.sizeOf pb.space - pb.loc) n = some m → s.CanWrite pb m →
    overlap pa n pb m = false →
    (∀ j, digit j = num (s.at pa.space (pa.loc + (s.field pb j).countP isFiller))) →
    (∀ j, significant j ↔ ∃ i ≤ j, isFiller (s.at pb.space (pb.loc + i)) = true ∧
      (digit i ≠ 0 ∨ s.at pb.space (pb.loc + i) = ZERO)) →
    ∃ t, exec (.edit la lb a b) s = .next t ∧
      Finishes s t (if ∀ k < n, num (s.at pa.space (pa.loc + k)) = 0 then .only .two
        else if bit7 (s.at pa.space (pa.loc + (n - 1))) = true then .only .one else .only .three) ∧
      Untouched s t pb m ∧
      (∀ j, j + 1 < m →
        (s.at pb.space (pb.loc + j) = AT → t.at pb.space (pb.loc + j) = BLANK) ∧
        (isFiller (s.at pb.space (pb.loc + j)) = true → significant j →
          t.at pb.space (pb.loc + j) = mkChar false true (digit j)) ∧
        (isFiller (s.at pb.space (pb.loc + j)) = true → ¬ significant j →
          t.at pb.space (pb.loc + j) = s.at pb.space (pb.loc + j)) ∧
        (isPunct (s.at pb.space (pb.loc + j)) = true → significant j →
          t.at pb.space (pb.loc + j) = s.at pb.space (pb.loc + j)) ∧
        (isPunct (s.at pb.space (pb.loc + j)) = true → ¬ significant j → 0 < j →
          t.at pb.space (pb.loc + j) = t.at pb.space (pb.loc + (j - 1)))) ∧
      t.at pb.space (pb.loc + (m - 1)) =
        (if bit7 (s.at pa.space (pa.loc + (n - 1))) = true ∧ ¬ (∀ k < n, num (s.at pa.space (pa.loc + k)) = 0) then
          s.at pb.space (pb.loc + (m - 1)) else BLANK)

/-- 44_edit.md R228, R229, with the spec's decisions D16, D21 (log 17, 22): Edit runs on a control field that begins
with punctuation and on overlapped operands, and nothing outside the control field changes. What else the first of
the two leaves is EditPositions. -/
def Obligations.EditOpenCases : Prop :=
  ∀ (s : State) (la lb n m : Nat) (a b : Operand) (pa pb : Place),
    n = len2 la lb → s.Formed → s.effective a b = .ok (pa, pb) → s.CanRead pa n →
    controlLength s.mem pb.key (s.sizeOf pb.space - pb.loc) n = some m → s.CanWrite pb m →
    (overlap pa n pb m = true ∨ isPunct (s.at pb.space pb.loc) = true) →
    ∃ t k, exec (.edit la lb a b) s = .next t ∧ k ≠ .four ∧ Finishes s t (.only k) ∧ Untouched s t pb m

/-- 46_form_numeric.md R251 to R255, R257, with the spec's decisions D13, D23 (log 15, 23): the digits of Operand-A, found
from the right, the sign by the rightmost character that is not blank, zeros to the left, overflow. `digits` are the
characters to store, leftmost first. After a hyphen with no digit the result is zero with an open sign. -/
def Obligations.FormNumericDigits : Prop :=
  ∀ (s : State) (la lb blanks : Nat) (a b : Operand) (pa pb : Place) (left : List Character) (c : Character),
    s.Formed → s.Ordinary a b pa (len1 la) pb (len1 lb) → c ≠ BLANK →
    s.field pa (len1 la) = left ++ c :: List.replicate blanks BLANK →
    (∀ (digits : List Character) (negative : Bool),
      (isDigit c = true ∧ digits = left.filter isDigit ++ [c] ∧ negative = false ∨
        isMinusDigit c = true ∧ digits = left.filter isDigit ++ [c] ∧ negative = true ∨
        c = HYPHEN ∧ negative = true ∧
          (∃ ds d, left.filter isDigit = ds ++ [d] ∧ digits = ds ++ [mkChar true true (num d)]) ∨
        isDigit c = false ∧ isMinusDigit c = false ∧ c ≠ HYPHEN ∧ negative = false ∧
          digits = left.filter isDigit) →
      ∃ t cc, exec (.formNumeric la lb a b) s = .next t ∧ Finishes s t cc ∧ Untouched s t pb (len1 lb) ∧
        (digits.length ≤ len1 lb →
          t.field pb (len1 lb) = List.replicate (len1 lb - digits.length) ZERO ++ digits ∧
          cc = if magnitude digits = 0 then .only .two else if negative then .only .one else .only .three) ∧
        (len1 lb < digits.length →
          t.field pb (len1 lb) = digits.drop (digits.length - len1 lb) ∧ cc = .only .four)) ∧
    (c = HYPHEN → left.filter isDigit = [] →
      ∃ t z, exec (.formNumeric la lb a b) s = .next t ∧ Finishes s t (.only .two) ∧
        Untouched s t pb (len1 lb) ∧
        t.field pb (len1 lb) = List.replicate (len1 lb - 1) ZERO ++ [mkChar z true 0])

/-- 46_form_numeric.md R256: an Operand-A of blanks sets Operand-B to zero in all positions. That zero is the character
ZERO is the spec's decision D23 (R254, log 23). -/
def Obligations.FormNumericBlank : Prop :=
  ∀ (s : State) (la lb : Nat) (a b : Operand) (pa pb : Place),
    s.Formed → s.Ordinary a b pa (len1 la) pb (len1 lb) →
    (∀ k < len1 la, s.at pa.space (pa.loc + k) = BLANK) →
    ∃ t, exec (.formNumeric la lb a b) s = .next t ∧ Finishes s t (.only .two) ∧ Untouched s t pb (len1 lb) ∧
      t.field pb (len1 lb) = List.replicate (len1 lb) ZERO

/-! Branch, Link, Branch on Service Request. -/

/-- 41_branch.md R161, R162: a Branch is executed a half at a time: to Address-A when LA requires it, whatever the right
half holds; else to Address-B when LB requires it; else to the next instruction. No location changes. Which partition is next is
the spec's decision D25 (log 25); the timer that decides a switch is the model's (R177, D26, log 26). -/
def Obligations.BranchHalves : Prop :=
  ∀ (s : State) (va : Nat) (make : Numeric → BranchAddress → BranchAddress → Instr) (lb : Numeric)
    (a b : BranchAddress), s.host < s.parts.length → (va, make) ∈ plainBranches →
    (∀ loc, Required s.me.cc va → Names a loc →
      ∃ t, exec (make lb a b) s = .next t ∧ SameMemory s t ∧
        Arrives s t { common := a.common, loc := loc } (va = 8)) ∧
    (∀ loc, ¬ Required s.me.cc va → lb.toNat ∈ [1, 2, 3, 4, 5, 8] → Required s.me.cc lb.toNat → Names b loc →
      ∃ t, exec (make lb a b) s = .next t ∧ SameMemory s t ∧
        Arrives s t { common := b.common, loc := loc } (lb.toNat = 8)) ∧
    (¬ Required s.me.cc va → lb.toNat ∈ [0, 1, 2, 3, 4, 9] → ¬ Required s.me.cc lb.toNat →
      ∃ t, exec (make lb a b) s = .next t ∧ SameMemory s t ∧ Finishes s t s.me.cc)

/-- 41_branch.md R163, R171, R174, with the spec's decisions D5, D8 to D10, D18 (log 10, 12, 13, 19): an LB without a
stated meaning is a fault when it is examined; address digits 10 to 15 are a fault when control is about to pass there
or the field there is about to be written; so are a return address above 9999 and the stores of Link and of Branch on
Service Request. That the digits rank before the return address, and that before the store, is the model's choice (log
49). -/
def Obligations.BranchFaults : Prop :=
  ∀ (s : State) (lb : Numeric) (a b : BranchAddress),
    (lb.toNat = 6 ∨ lb.toNat = 7 ∨ 10 ≤ lb.toNat →
      (∀ va make, (va, make) ∈ plainBranches → ¬ Required s.me.cc va →
        s.Stops (make lb a b) .reservedEncoding) ∧
      s.Stops (.link lb a b) .reservedEncoding) ∧
    (lb.toNat ≠ 0 → lb.toNat ≠ 9 → s.Stops (.serviceRequest lb a b) .reservedEncoding) ∧
    (∀ va make, (va, make) ∈ plainBranches →
      (Required s.me.cc va → (∀ loc, ¬ Names a loc) → s.Stops (make lb a b) .reservedEncoding) ∧
      (¬ Required s.me.cc va → Required s.me.cc lb.toNat → (∀ loc, ¬ Names b loc) →
        s.Stops (make lb a b) .reservedEncoding)) ∧
    (Required s.me.cc lb.toNat →
      ((∀ loc, ¬ Names a loc) ∨ (∀ loc, ¬ Names b loc) → s.Stops (.link lb a b) .reservedEncoding) ∧
      (∀ la start, Names a la → Names b start →
        (9990 ≤ s.me.pc.loc → s.Stops (.link lb a b) .addressRange) ∧
        (∀ p kind, p = { space := if a.common then .common else .part s.host, loc := la } →
          s.me.pc.loc < 9990 → s.WriteFault p 4 kind → s.Stops (.link lb a b) kind))) ∧
    (∀ d, lb.toNat = 0 ∨ lb.toNat = 9 → s.me.srq = some d →
      ((∀ loc, ¬ Names a loc) ∨ (∀ loc, ¬ Names b loc) → s.Stops (.serviceRequest lb a b) .reservedEncoding) ∧
      (∀ la target p kind, Names a la → Names b target →
        p = { space := if a.common then .common else .part s.host, loc := la } →
        s.WriteFault p 1 kind → s.Stops (.serviceRequest lb a b) kind))

/-- 41_branch.md R172: a performed Link inserts the address of the next instruction into the four characters at
Address-A and passes to Address-B. With LB = 8 the switch is left open (R173, D19, log 20); the next partition and the
timer are log 25 and 26. -/
def Obligations.LinkStoresReturn : Prop :=
  ∀ (s : State) (lb : Numeric) (a b : BranchAddress) (la start ret : Nat) (p : Place),
    s.Formed → lb.toNat ∈ [1, 2, 3, 4, 5, 8] → Required s.me.cc lb.toNat → Names a la → Names b start →
    ret = s.me.pc.loc + 10 → ret ≤ 9999 → p = { space := if a.common then .common else .part s.host, loc := la } →
    s.CanWrite p 4 →
    ∃ t, exec (.link lb a b) s = .next t ∧ Untouched s t p 4 ∧ KeepsZones s t p 4 ∧
      magnitude (t.field p 4) = ret ∧ allDecimal (t.field p 4) = true ∧
      bit7 (t.at p.space (p.loc + 3)) = s.me.pc.common ∧
      (Arrives s t { common := b.common, loc := start } False ∨
        lb.toNat = 8 ∧ Arrives s t { common := b.common, loc := start } True)

/-- 41_branch.md R170: no link occurs with LB = 0 or 9, nor with LB = 1 to 4 when that flag is OFF. -/
def Obligations.LinkNotPerformed : Prop :=
  ∀ (s : State) (lb : Numeric) (a b : BranchAddress), s.host < s.parts.length →
    lb.toNat ∈ [0, 1, 2, 3, 4, 9] → ¬ Required s.me.cc lb.toNat →
    ∃ t, exec (.link lb a b) s = .next t ∧ SameMemory s t ∧ Finishes s t s.me.cc

/-- 41_branch.md R174: Branch on Service Request stores the device number that the IOC holds in the numeric portion of
the character at Address-A, passes to Address-B, and polling resumes with the next device; without a request held it
has no effect. That the zone bits stay is the spec's decision D20 (log 21), stated apart. The next partition and the
timer are log 25 and 26. -/
def Obligations.ServiceRequestTaken : Prop :=
  ∀ (s : State) (lb : Numeric) (a b : BranchAddress), s.Formed → lb.toNat = 0 ∨ lb.toNat = 9 →
    (s.me.srq = none → ∃ t, exec (.serviceRequest lb a b) s = .next t ∧ SameMemory s t ∧ Finishes s t s.me.cc) ∧
    (∀ d la target p, s.me.srq = some d → d < 10 → Names a la → Names b target →
      p = { space := if a.common then .common else .part s.host, loc := la } → s.CanWrite p 1 →
      ∃ t, exec (.serviceRequest lb a b) s = .next t ∧ Untouched s t p 1 ∧ num (t.at p.space p.loc) = d ∧
        SameMachine s t ∧ SameOthers s t ∧
        t.part s.host =
          { s.me with pc := { common := b.common, loc := target }, srq := none
                      poll := if d = 9 then 0 else d + 1 } ∧
        (Config.timeSlice < s.timer → Switched s t) ∧ (¬ Config.timeSlice < s.timer → Stayed s t))

/-- 41_branch.md R175, the spec's decision D20 (log 21): Branch on Service Request keeps every zone bit. -/
def Obligations.ServiceRequestKeepsZones : Prop :=
  ∀ (s t : State) (lb : Numeric) (a b : BranchAddress), s.mem.wf = true →
    exec (.serviceRequest lb a b) s = .next t → ∀ sp loc, loc < Config.spaceLimit →
      bit7 (t.at sp loc) = bit7 (s.at sp loc) ∧ bit5 (t.at sp loc) = bit5 (s.at sp loc)

/-! Read and Write. -/

/-- 49_read_write.md R322: a Read or Write through the IOC sets the parameters of the operation, advances P and
relinquishes control; no character is transferred yet. That the count 0000 is 10,000 also of an indexed sum is the
spec's decision D33 (R314, log 34); the next partition is D25 (log 25). -/
def Obligations.IocOperationIssued : Prop :=
  ∀ (s : State) (device n : Nat) (a b : Operand) (pa pb : Place),
    s.host < s.parts.length → s.effective a b = .ok (pa, pb) → n = (if pb.loc = 0 then 10000 else pb.loc) →
    (∀ mode, s.CanWrite pa n →
      ∃ t, exec (.read device .ioc mode a b) s = .next t ∧ SameMachine s t ∧ SameOthers s t ∧ SameMemory s t ∧
        Switched s t ∧ t.part s.host =
          { s.me with
            pc := { s.me.pc with loc := s.me.pc.loc + 10 }
            io := some { direction := .read mode, device := device, common := a.common, next := pa.loc, left := n,
                         first := pa.loc, total := n, done := none } }) ∧
    (∀ kind, s.CanRead pa n →
      ∃ t, exec (.write device .ioc kind a b) s = .next t ∧ SameMachine s t ∧ SameOthers s t ∧ SameMemory s t ∧
        Switched s t ∧ t.part s.host =
          { s.me with
            pc := { s.me.pc with loc := s.me.pc.loc + 10 }
            io := some { direction := .write kind, device := device, common := a.common, next := pa.loc, left := n,
                         first := pa.loc, total := n, done := none } })

/-- 49_read_write.md R323, 60_exceptions.md R372, R386: after the boundary of a step, while the operation of the host
partition has not ended it executes nothing and control passes on; when it has ended, its outcome becomes the Condition
Code. Then the instruction at P is fetched and runs, or, where P is a stop address, nothing is executed and control
passes on. Boundaries are the spec's decision D24 (log 24), the next partition D25 (log 25), the timer the model's
(log 26), stop addresses D35 (log 36). -/
def Obligations.IocWaitAndResume : Prop :=
  ∀ (s t : State), t = s.boundary → t.host < t.parts.length →
    ((∃ o, t.me.io = some o ∧ o.done = none) →
      ∃ u, step s = .next u ∧ SameMachine t u ∧ u.parts = t.parts ∧ u.mem = t.mem ∧ Switched t u) ∧
    (t.me.io = none → t.resume = t) ∧
    (∀ o k, t.me.io = some o → o.done = some k →
      SameMachine t t.resume ∧ SameOthers t t.resume ∧ t.resume.mem = t.mem ∧ Stayed t t.resume ∧
        t.resume.me = { t.me with io := none, cc := .only (outcomeFlag k) }) ∧
    ((∀ o, t.me.io = some o → o.done ≠ none) →
      (t.me.pc ∉ t.me.setting.stop → step s = t.resume.runInstruction) ∧
      (t.me.pc ∈ t.me.setting.stop →
        ∃ u, step s = .next u ∧ SameMachine t u ∧ u.parts = t.resume.parts ∧ u.mem = t.mem ∧ Switched t u))

/-- 49_read_write.md R325: the service of a Read that has a character stores it, and no other location changes; the
parameter registers move on, and the operation ends when the count is reached. -/
def Obligations.IocReadStoresCharacter : Prop :=
  ∀ (s : State) (q : Nat) (mode : FillMode) (o : IocOperation) (c : Character) (k : DeviceOutcome) (p : Place),
    s.mem.wf = true → q < s.parts.length → (s.part q).io = some o → o.done = none → o.direction = .read mode →
    (s.part q).signal = some (.character c k) → 1 ≤ o.left → o.next < Config.spaceLimit →
    p = { space := if o.common then .common else .part q, loc := o.next } →
    Untouched s (s.service q) p 1 ∧ (s.service q).at p.space p.loc = c ∧ SameMachine s (s.service q) ∧
      Stayed s (s.service q) ∧ (∀ q', q' ≠ q → (s.service q).part q' = s.part q') ∧
      (s.service q).part q =
        { s.part q with
          signal := none
          io := some { o with next := o.next + 1, left := o.left - 1,
                              done := if o.left = 1 then some k else none } }

/-- 49_read_write.md R324, R331: a Unit Separator ends a Read; it is not stored; the rest of the area is blank in the
fill mode and undisturbed in the non-fill mode. The outcome travels with the signal (log 28); that the blanks are stored
within the one service step is the spec's decision D27 (R325, log 27). That the area is undisturbed also with an outcome
other than Normal is the model's choice between R325 and D36 (log 50, unsafe). -/
def Obligations.UnitSeparatorEndsRead : Prop :=
  ∀ (s : State) (q : Nat) (mode : FillMode) (o : IocOperation) (k : DeviceOutcome) (p : Place),
    s.mem.wf = true → q < s.parts.length → (s.part q).io = some o → o.done = none → o.direction = .read mode →
    (s.part q).signal = some (.unitSeparator k) → o.next + o.left ≤ Config.spaceLimit →
    p = { space := if o.common then .common else .part q, loc := o.next } →
    Untouched s (s.service q) p o.left ∧
      (mode = .fill → ∀ j < o.left, (s.service q).at p.space (p.loc + j) = BLANK) ∧
      (mode = .nonfill → SameMemory s (s.service q)) ∧ SameMachine s (s.service q) ∧
      (∀ q', q' ≠ q → (s.service q).part q' = s.part q') ∧
      (s.service q).part q = { s.part q with signal := none, io := some { o with done := some k } }

/-- 49_read_write.md R326: the service of a Write whose IOC is ready sends the character that stands in the output area
now and moves the parameter registers on; at the count it ends the operation and sends nothing. That the outcome
travels with the signal is the model's choice (log 28). -/
def Obligations.IocWriteSendsCharacter : Prop :=
  ∀ (s : State) (q : Nat) (kind : WriteKind) (o : IocOperation) (k : DeviceOutcome) (p : Place),
    q < s.parts.length → (s.part q).io = some o → o.done = none → o.direction = .write kind →
    (s.part q).signal = some (.ready k) → p = { space := if o.common then .common else .part q, loc := o.next } →
    (s.service q).mem = s.mem ∧ (∀ q', q' ≠ q → (s.service q).part q' = s.part q') ∧
      (o.left = 0 → (s.service q).outputs = s.outputs ∧
        (s.service q).part q = { s.part q with signal := none, io := some { o with done := some k } }) ∧
      (o.left ≠ 0 →
        (s.service q).outputs = s.outputs ++ [.ioc q o.device kind (s.at p.space p.loc)] ∧
        (s.service q).part q =
          { s.part q with
            signal := none, io := some { o with next := o.next + 1, left := o.left - 1 } })

/-- 49_read_write.md R327(b), the spec's decision D36 (log 37): a device may end an operation with Error, Flag or Fault,
which is then its outcome; only input positions not yet stored may change. The end is a signal of the model's (log 28). -/
def Obligations.IocAbnormalEnd : Prop :=
  ∀ (s : State) (q : Nat) (o : IocOperation) (how : AbnormalEnd) (p : Place),
    q < s.parts.length → (s.part q).io = some o → o.done = none → (s.part q).signal = some (.ended how) →
    o.next + o.left ≤ Config.spaceLimit → p = { space := if o.common then .common else .part q, loc := o.next } →
    Untouched s (s.service q) p o.left ∧ (∀ kind, o.direction = .write kind → SameMemory s (s.service q)) ∧
      SameMachine s (s.service q) ∧ (∀ q', q' ≠ q → (s.service q).part q' = s.part q') ∧
      ∃ k, (how = .error → k = .error) ∧ (how = .flag → k = .flag) ∧ (how = .fault → k = .fault) ∧
        (s.service q).part q = { s.part q with signal := none, io := some { o with done := some k } }

/-- 60_exceptions.md R367, with the spec's decision D24 (log 24): at a boundary the IOC of every partition is served
exactly once, in the order that the boundary's input names where it names every partition once. That devices may act
before and after the service, and that the input is then used up, is the model's (log 24, 27). -/
def Obligations.EachIocServedOnce : Prop :=
  ∀ s : State, s.boundary = s.boundaryWith s.nextInput ∧
    ∀ b : BoundaryInput, ∃ order : List Nat, order.Perm (List.range s.parts.length) ∧
      (b.order.Perm (List.range s.parts.length) → order = b.order) ∧
      s.boundaryWith b = ((order.foldl State.service (s.arrive b.early)).arrive b.late).tick b

/-- 60_exceptions.md R367: at a boundary no partition's P or Condition Code changes, nor the partition in control, nor any
location outside the rest of an input area of a Read in progress; the timer advances by the time that has passed (log
26). -/
def Obligations.BoundaryChangesOnlyInputAreas : Prop :=
  ∀ s : State, s.Legal →
    s.boundary.host = s.host ∧ s.boundary.timer = s.timer + s.nextInput.elapsed ∧
    (∀ q, (s.boundary.part q).pc = (s.part q).pc ∧ (s.boundary.part q).cc = (s.part q).cc) ∧
    ∀ sp loc, loc < Config.spaceLimit → s.boundary.at sp loc ≠ s.at sp loc →
      ∃ q o mode, (s.part q).io = some o ∧ o.done = none ∧ o.direction = .read mode ∧
        sp = (if o.common then .common else .part q) ∧ o.next ≤ loc ∧ loc < o.next + o.left

/-- 10_state.md R43(a), (d), 49_read_write.md R325, R326 (log 28): the IOC of a partition takes a signal that its
operation in progress asks for when its one buffer is empty, and only then. -/
def Obligations.IocBufferHoldsOne : Prop :=
  ∀ (s : State) (q : Nat) (x : IocSignal), q < s.parts.length →
    ((s.part q).signal ≠ none → (s.arriveOne (.signal q x)).part q = s.part q) ∧
    ((∀ o, (s.part q).io = some o → o.done ≠ none ∨ ¬ Asked o.direction x) →
      (s.arriveOne (.signal q x)).part q = s.part q) ∧
    (∀ o, (s.part q).signal = none → (s.part q).io = some o → o.done = none → Asked o.direction x →
      (s.arriveOne (.signal q x)).part q = { s.part q with signal := some x }) ∧
    ∀ q', q' ≠ q → (s.arriveOne (.signal q x)).part q' = s.part q'

/-- 60_exceptions.md R366: a request is latched as the first requesting device in the cyclic order from POLL on; while
one is held further polling is discontinued; and a held number leaves only by Branch on Service Request of its own
partition. -/
def Obligations.ServiceRequestLatched : Prop :=
  (∀ (s : State) (q : Nat) (devices : List Nat), q < s.parts.length →
    ((s.part q).srq ≠ none → (s.arriveOne (.request q devices)).part q = s.part q) ∧
    (∀ k, (s.part q).srq = none → k < 10 → ((s.part q).poll + k) % 10 ∈ devices →
      (∀ j < k, ((s.part q).poll + j) % 10 ∉ devices) →
      (s.arriveOne (.request q devices)).part q = { s.part q with srq := some (((s.part q).poll + k) % 10) })) ∧
  (∀ (s t : State) (q d : Nat), step s = .next t → (s.part q).srq = some d →
    (t.part q).srq = some d ∨
      q = s.host ∧ ∃ lb a b, s.boundary.resume.fetch = .ok (.serviceRequest lb a b))

/-- 49_read_write.md R328: a Read through the FAC to a device that is not a disc stores the characters delivered into
the area inside the instruction, sets one flag and keeps control. That the count is the indexed sum, and 10,000 where
that sum is 0, is the spec's decision D33 (R314, log 34). What the device answers is free (D27, D36, log 29, 37). -/
def Obligations.FacRead : Prop :=
  ∀ (s : State) (device n : Nat) (mode : FillMode) (a b : Operand) (pa pb : Place),
    s.Formed → device ∈ [0, 1, 2, 3, 4, 8] → s.isDisc device = false → s.effective a b = .ok (pa, pb) →
    n = (if pb.loc = 0 then 10000 else pb.loc) → s.CanWrite pa n →
    ∃ t, exec (.read device .fac mode a b) s = .next t ∧
      Finishes s t (.only (outcomeFlag s.facAnswer.outcome)) ∧ Untouched s t pa n ∧
      ∀ j (h : j < s.facAnswer.delivered.length), j < n →
        t.at pa.space (pa.loc + j) = s.facAnswer.delivered[j]

/-- 49_read_write.md R328: a Write through the FAC to a device that is not a disc sends the characters of the area in
order, all of them when it ends normally; no location changes and control stays. That their number is the indexed
sum, and 10,000 where that sum is 0, is the spec's decision D33 (R314, log 34); what the device answers is free (log 29,
37). -/
def Obligations.FacWrite : Prop :=
  ∀ (s : State) (device n : Nat) (kind : WriteKind) (a b : Operand) (pa pb : Place),
    s.host < s.parts.length → device ∈ [0, 1, 2, 3, 4, 8] → s.isDisc device = false →
    s.effective a b = .ok (pa, pb) → n = (if pb.loc = 0 then 10000 else pb.loc) → s.CanRead pa n →
    ∃ t sent, exec (.write device .fac kind a b) s = .next t ∧ sent ≤ n ∧
      (s.facAnswer.outcome = .normal → sent = n) ∧ SameMemory s t ∧
      t.outputs = s.outputs ++ ((s.field pa n).take sent).map (OutputEvent.fac device kind) ∧
      Finishes s { t with outputs := s.outputs } (.only (outcomeFlag s.facAnswer.outcome))

/-- 49_read_write.md R315, R318, R329, with the spec's decision D29 (log 29, 31): one attempt of a disc Read: a disc
bound to another partition or heads that must move pass control on with P unchanged, the second with the disc bound;
else 100 positions are stored, one flag is set and the disc is free. The partition that gets control is the spec's
decision D25 (60_exceptions.md R373, log 25). -/
def Obligations.DiscRead : Prop :=
  ∀ (s : State) (device unit : Nat) (mode : FillMode) (a b : Operand) (pa pb : Place),
    s.Formed → device ∈ [0, 1, 2, 3, 4, 8] → s.isDisc device = true → s.effective a b = .ok (pa, pb) →
    s.CanWrite pa 100 → s.CanRead pb 6 → unit = num (s.at pb.space pb.loc) →
    ((∃ q, s.boundTo device unit = some q ∧ q ≠ s.host) →
      ∃ t, exec (.read device .fac mode a b) s = .next t ∧ SameMachine s t ∧ t.parts = s.parts ∧ SameMemory s t ∧
        Switched s t) ∧
    ((∀ q, s.boundTo device unit = some q → q = s.host) → s.facAnswer.wait = true →
      ∃ t, exec (.read device .fac mode a b) s = .next t ∧ SameMachine s { t with bound := s.bound } ∧
        t.parts = s.parts ∧ SameMemory s t ∧ Switched s t ∧ t.boundTo device unit = some s.host ∧
        ∀ d u, ¬ (d = device ∧ u = unit) → t.boundTo d u = s.boundTo d u) ∧
    ((∀ q, s.boundTo device unit = some q → q = s.host) → s.facAnswer.wait = false →
      ∃ t, exec (.read device .fac mode a b) s = .next t ∧
        Finishes s { t with bound := s.bound } (.only (outcomeFlag s.facAnswer.outcome)) ∧ Untouched s t pa 100 ∧
        (∀ j (h : j < s.facAnswer.delivered.length), j < 100 →
          t.at pa.space (pa.loc + j) = s.facAnswer.delivered[j]) ∧
        t.boundTo device unit = none ∧ ∀ d u, ¬ (d = device ∧ u = unit) → t.boundTo d u = s.boundTo d u)

/-- 49_read_write.md R315, R318, R329, R345, with the spec's decision D29 (log 29, 31, 38): one attempt of a disc Write,
as of a disc Read; the record goes out with its six address characters and no location changes. The partition that
gets control is the spec's decision D25 (60_exceptions.md R373, log 25). -/
def Obligations.DiscWrite : Prop :=
  ∀ (s : State) (device unit : Nat) (kind : WriteKind) (a b : Operand) (pa pb : Place),
    s.host < s.parts.length → device ∈ [0, 1, 2, 3, 4, 8] → s.isDisc device = true →
    s.effective a b = .ok (pa, pb) → s.CanRead pa 100 → s.CanRead pb 6 → unit = num (s.at pb.space pb.loc) →
    ((∃ q, s.boundTo device unit = some q ∧ q ≠ s.host) →
      ∃ t, exec (.write device .fac kind a b) s = .next t ∧ SameMachine s t ∧ t.parts = s.parts ∧
        SameMemory s t ∧ Switched s t) ∧
    ((∀ q, s.boundTo device unit = some q → q = s.host) → s.facAnswer.wait = true →
      ∃ t, exec (.write device .fac kind a b) s = .next t ∧ SameMachine s { t with bound := s.bound } ∧
        t.parts = s.parts ∧ SameMemory s t ∧ Switched s t ∧ t.boundTo device unit = some s.host ∧
        ∀ d u, ¬ (d = device ∧ u = unit) → t.boundTo d u = s.boundTo d u) ∧
    ((∀ q, s.boundTo device unit = some q → q = s.host) → s.facAnswer.wait = false →
      ∃ t sent, exec (.write device .fac kind a b) s = .next t ∧ sent ≤ 100 ∧
        (s.facAnswer.outcome = .normal → sent = 100) ∧ SameMemory s t ∧
        t.outputs = s.outputs ++ [.disc device unit (s.field pb 6) ((s.field pa 100).take sent)] ∧
        Finishes s { t with bound := s.bound, outputs := s.outputs }
          (.only (outcomeFlag s.facAnswer.outcome)) ∧
        t.boundTo device unit = none ∧ ∀ d u, ¬ (d = device ∧ u = unit) → t.boundTo d u = s.boundTo d u)

/-- 49_read_write.md R313, R317, with the spec's decisions D28, D34 (log 30, 35): the FAC has no device 5, 6, 7 or 9; the
whole area is checked at issue, to be stored for a Read and to be read for a Write, and for a disc 100 positions and
then the six characters of the disc address. That the area of the IOC or the FAC has the indexed sum as its length, and
10,000 where that sum is 0, is the spec's decision D33 (R314, log 34). -/
def Obligations.ReadWriteFaults : Prop :=
  ∀ (s : State) (device : Nat) (mode : FillMode) (wk : WriteKind) (a b : Operand),
    (device = 5 ∨ device = 6 ∨ device = 7 ∨ device = 9 →
      s.Stops (.read device .fac mode a b) .deviceUnknown ∧ s.Stops (.write device .fac wk a b) .deviceUnknown) ∧
    (∀ channel pa pb n kind, s.effective a b = .ok (pa, pb) → n = (if pb.loc = 0 then 10000 else pb.loc) →
      channel = .ioc ∨ (device ∈ [0, 1, 2, 3, 4, 8] ∧ s.isDisc device = false) →
      (s.WriteFault pa n kind → s.Stops (.read device channel mode a b) kind) ∧
      (s.ReadFault pa n kind → s.Stops (.write device channel wk a b) kind)) ∧
    (∀ pa pb kind, s.effective a b = .ok (pa, pb) → device ∈ [0, 1, 2, 3, 4, 8] → s.isDisc device = true →
      (s.WriteFault pa 100 kind → s.Stops (.read device .fac mode a b) kind) ∧
      (s.CanWrite pa 100 → s.ReadFault pb 6 kind → s.Stops (.read device .fac mode a b) kind) ∧
      (s.ReadFault pa 100 kind → s.Stops (.write device .fac wk a b) kind) ∧
      (s.CanRead pa 100 → s.ReadFault pb 6 kind → s.Stops (.write device .fac wk a b) kind))

/-! External codes and execution times. -/

/-- 49_read_write.md R336: under write control bit 7 of the external code is 0, bit 6 is the complement of internal
bit-7, and bits 5 to 1 are internal bit-5 and bit-4 to bit-1. -/
def Obligations.WriteControlCode : Prop :=
  ∀ c : Character,
    (externalCode .control c).getLsbD 6 = false ∧ (externalCode .control c).getLsbD 5 = !bit7 c ∧
    (externalCode .control c).getLsbD 4 = bit5 c ∧
    ∀ k < 4, (externalCode .control c).getLsbD k = (numeric c).getLsbD k
end

