-- ==== Sys2Proof/Laws/Memory.lean ====
section
/-! SUPPORT. Main Memory: a read after a write gives the character written, a write leaves every other key
alone, and every memory operation keeps the canonical form. -/

namespace Sys2Proof.Machine

@[simp] theorem setWidth_cell (c : Character) : (c.setWidth 8).setWidth 6 = c := by
  ext i hi; simp

theorem Memory.wfFrom_cons {least a : Nat} {b : BitVec 8} {rest : Memory} :
    Memory.wfFrom least ((a, b) :: rest) = true ↔
      least ≤ a ∧ b.toNat < 64 ∧ b.setWidth 6 ≠ Memory.unwritten ∧ Memory.wfFrom (a + 1) rest = true := by
  simp [Memory.wfFrom, and_assoc]

/-- The canonical form from a key on is the canonical form from any smaller key on. -/
theorem Memory.wfFrom_mono {least least' : Nat} {m : Memory} (h : Memory.wfFrom least m = true)
    (hle : least' ≤ least) : Memory.wfFrom least' m = true := by
  cases m with
  | nil => rfl
  | cons cell rest =>
    obtain ⟨a, b⟩ := cell
    rw [Memory.wfFrom_cons] at h ⊢
    exact ⟨by omega, h.2⟩

/-- A key below every listed key reads as an unlisted key does. -/
theorem Memory.read_below {least : Nat} {m : Memory} (h : Memory.wfFrom least m = true) {k : Nat}
    (hk : k < least) : m.read k = Memory.unwritten := by
  induction m generalizing least with
  | nil => rfl
  | cons cell rest ih =>
    obtain ⟨a, b⟩ := cell
    rw [Memory.wfFrom_cons] at h
    rw [Memory.read, if_neg (by omega)]
    exact ih h.2.2.2 (by omega)

theorem Memory.read_cons (a : Nat) (b : BitVec 8) (rest : Memory) (k : Nat) :
    Memory.read ((a, b) :: rest) k = if a = k then b.setWidth 6 else rest.read k := rfl

/-- A write leaves every other key alone, whatever the memory. -/
theorem Memory.read_write_ne (m : Memory) {k j : Nat} (c : Character) (hne : j ≠ k) :
    (m.write k c).read j = m.read j := by
  have hkj : ¬ k = j := fun h => hne h.symm
  induction m with
  | nil =>
    rw [Memory.write]
    split
    · rfl
    · rw [Memory.read_cons, if_neg hkj]
  | cons cell rest ih =>
    obtain ⟨a, b⟩ := cell
    rw [Memory.write, Memory.read_cons]
    split
    · split
      · rw [Memory.read_cons]
      · rw [Memory.read_cons, if_neg hkj, Memory.read_cons]
    · split
      · rename_i hka
        subst hka
        rw [if_neg hkj]
        split
        · rfl
        · rw [Memory.read_cons, if_neg hkj]
      · rw [Memory.read_cons, ih]

/-- A read after a write to the same key gives the character written. -/
theorem Memory.read_write_same {least : Nat} {m : Memory} (h : Memory.wfFrom least m = true) (k : Nat)
    (c : Character) : (m.write k c).read k = c := by
  induction m generalizing least with
  | nil =>
    rw [Memory.write]
    split
    · simp [Memory.read, *]
    · simp [Memory.read]
  | cons cell rest ih =>
    obtain ⟨a, b⟩ := cell
    rw [Memory.wfFrom_cons] at h
    rw [Memory.write]
    split
    · split
      · rename_i hka hc
        rw [Memory.read, if_neg (by omega), hc]
        exact Memory.read_below h.2.2.2 (by omega)
      · simp [Memory.read]
    · split
      · rename_i hka
        subst hka
        split
        · rename_i hc
          rw [hc]
          exact Memory.read_below h.2.2.2 (by omega)
        · simp [Memory.read]
      · rw [Memory.read, if_neg (by omega)]
        exact ih h.2.2.2

/-- What one write does to every read of a memory in canonical form. -/
theorem Memory.read_write {m : Memory} (h : m.wf = true) (k j : Nat) (c : Character) :
    (m.write k c).read j = if j = k then c else m.read j := by
  by_cases hjk : j = k
  · rw [if_pos hjk, hjk, Memory.read_write_same h]
  · rw [if_neg hjk, Memory.read_write_ne m c hjk]

/-- A cell of a character other than BLANK is as the canonical form wants it. -/
theorem Memory.cell_wf {c : Character} (h : c ≠ Memory.unwritten) :
    (c.setWidth 8).toNat < 64 ∧ (c.setWidth 8).setWidth 6 ≠ Memory.unwritten := by
  refine ⟨?_, by simpa using h⟩
  have := c.isLt
  simp only [BitVec.toNat_setWidth]
  omega

/-- A write keeps the canonical form. -/
theorem Memory.wfFrom_write {least : Nat} {m : Memory} (h : Memory.wfFrom least m = true) (k : Nat)
    (c : Character) : Memory.wfFrom (min least k) (m.write k c) = true := by
  induction m generalizing least with
  | nil =>
    rw [Memory.write]
    split
    · rfl
    · rename_i hc
      rw [Memory.wfFrom_cons]
      exact ⟨by omega, (Memory.cell_wf hc).1, (Memory.cell_wf hc).2, rfl⟩
  | cons cell rest ih =>
    obtain ⟨a, b⟩ := cell
    have h' := h
    rw [Memory.wfFrom_cons] at h
    rw [Memory.write]
    split
    · split
      · exact Memory.wfFrom_mono h' (by omega)
      · rename_i hc
        rw [Memory.wfFrom_cons]
        refine ⟨by omega, (Memory.cell_wf hc).1, (Memory.cell_wf hc).2, ?_⟩
        rw [Memory.wfFrom_cons]
        exact ⟨by omega, h.2⟩
    · split
      · rename_i hka
        subst hka
        split
        · exact Memory.wfFrom_mono h.2.2.2 (by omega)
        · rename_i hc
          rw [Memory.wfFrom_cons]
          exact ⟨by omega, (Memory.cell_wf hc).1, (Memory.cell_wf hc).2, h.2.2.2⟩
      · rw [Memory.wfFrom_cons]
        exact ⟨by omega, h.2.1, h.2.2.1, Memory.wfFrom_mono (ih h.2.2.2) (by omega)⟩

/-- A write keeps the canonical form. -/
theorem Memory.wf_write {m : Memory} (h : m.wf = true) (k : Nat) (c : Character) :
    (m.write k c).wf = true := by
  have := Memory.wfFrom_write h k c
  rwa [Nat.zero_min] at this

/-- A field stored keeps the canonical form. -/
theorem Memory.wf_writeField {m : Memory} (h : m.wf = true) (k : Nat) (cs : List Character) :
    (m.writeField k cs).wf = true := by
  induction cs generalizing m k with
  | nil => exact h
  | cons c cs ih => exact ih (Memory.wf_write h k c) (k + 1)

@[simp] theorem Memory.readField_length (m : Memory) (k n : Nat) : (m.readField k n).length = n := by
  induction n generalizing k with
  | zero => rfl
  | succ n ih => simp [Memory.readField, ih]

/-- Character i of a field. -/
theorem Memory.readField_getElem (m : Memory) (k n i : Nat) (h : i < (m.readField k n).length) :
    (m.readField k n)[i] = m.read (k + i) := by
  induction n generalizing k i with
  | zero => simp [Memory.readField] at h
  | succ n ih =>
    cases i with
    | zero => rfl
    | succ i =>
      simp only [Memory.readField, List.getElem_cons_succ]
      rw [ih]
      congr 1
      omega

/-- Two memories that agree on the keys of a field give the same field. -/
theorem Memory.readField_congr {m m' : Memory} {k n : Nat}
    (h : ∀ j, k ≤ j → j < k + n → m.read j = m'.read j) : m.readField k n = m'.readField k n := by
  induction n generalizing k with
  | zero => rfl
  | succ n ih =>
    rw [Memory.readField, Memory.readField, h k (by omega) (by omega),
      ih (fun j h1 h2 => h j (by omega) (by omega))]

/-- A field stored leaves every key outside it alone. -/
theorem Memory.read_writeField_outside (m : Memory) (k j : Nat) (cs : List Character)
    (h : j < k ∨ k + cs.length ≤ j) : (m.writeField k cs).read j = m.read j := by
  induction cs generalizing m k with
  | nil => rfl
  | cons c cs ih =>
    rw [List.length_cons] at h
    rw [Memory.writeField, ih _ _ (by omega), Memory.read_write_ne _ _ (by omega)]

/-- What a field stored does to every read of a memory in canonical form. -/
theorem Memory.read_writeField {m : Memory} (h : m.wf = true) (k j : Nat) (cs : List Character) :
    (m.writeField k cs).read j = if k ≤ j then cs.getD (j - k) (m.read j) else m.read j := by
  induction cs generalizing m k with
  | nil => simp [Memory.writeField]
  | cons c cs ih =>
    rw [Memory.writeField, ih (Memory.wf_write h k c), Memory.read_write h]
    by_cases hlt : k + 1 ≤ j
    · rw [if_pos hlt, if_neg (by omega), if_pos (by omega), show j - k = (j - (k + 1)) + 1 by omega]
      simp
    · rw [if_neg hlt]
      by_cases hjk : j = k
      · subst hjk; simp
      · rw [if_neg hjk, if_neg (by omega)]

/-- The field read after a field stored at the same key. -/
theorem Memory.readField_writeField {m : Memory} (h : m.wf = true) (k : Nat) (cs : List Character) :
    (m.writeField k cs).readField k cs.length = cs := by
  apply List.ext_getElem
  · simp
  · intro i h1 h2
    rw [Memory.readField_getElem, Memory.read_writeField h, if_pos (by omega)]
    simp [h2]

/-- The field read after a field stored elsewhere. -/
theorem Memory.readField_writeField_disjoint (m : Memory) {k n k' : Nat} {cs : List Character}
    (h : k + n ≤ k' ∨ k' + cs.length ≤ k) : (m.writeField k' cs).readField k n = m.readField k n :=
  Memory.readField_congr fun j h1 h2 => Memory.read_writeField_outside m k' j cs (by omega)

/-! The loops of Exchange and of the moves. -/

theorem exchangeLoop_wf {m : Memory} (h : m.wf = true) (ka kb n : Nat) :
    (exchangeLoop m ka kb n).wf = true := by
  induction n generalizing m ka kb with
  | zero => exact h
  | succ n ih => exact ih (Memory.wf_write (Memory.wf_write h _ _) _ _) _ _

theorem moveLoop_wf {m : Memory} (h : m.wf = true) (ka kb n : Nat) : (moveLoop m ka kb n).wf = true := by
  induction n generalizing m ka kb with
  | zero => exact h
  | succ n ih => exact ih (Memory.wf_write h _ _) _ _

theorem moveNumericLoop_wf {m : Memory} (h : m.wf = true) (ka kb n : Nat) :
    (moveNumericLoop m ka kb n).wf = true := by
  induction n generalizing m ka kb with
  | zero => exact h
  | succ n ih => exact ih (Memory.wf_write h _ _) _ _

/-- Exchange leaves every key outside both fields alone. -/
theorem exchangeLoop_outside (m : Memory) (ka kb n j : Nat) (ha : j < ka ∨ ka + n ≤ j)
    (hb : j < kb ∨ kb + n ≤ j) : (exchangeLoop m ka kb n).read j = m.read j := by
  induction n generalizing m ka kb with
  | zero => rfl
  | succ n ih =>
    rw [exchangeLoop, ih _ _ _ (by omega) (by omega), Memory.read_write_ne _ _ (by omega),
      Memory.read_write_ne _ _ (by omega)]

/-- Move Character leaves every key outside field B alone. -/
theorem moveLoop_outside (m : Memory) (ka kb n j : Nat) (hb : j < kb ∨ kb + n ≤ j) :
    (moveLoop m ka kb n).read j = m.read j := by
  induction n generalizing m ka kb with
  | zero => rfl
  | succ n ih => rw [moveLoop, ih _ _ _ (by omega), Memory.read_write_ne _ _ (by omega)]

/-- Move Numeric leaves every key outside field B alone. -/
theorem moveNumericLoop_outside (m : Memory) (ka kb n j : Nat) (hb : j < kb ∨ kb + n ≤ j) :
    (moveNumericLoop m ka kb n).read j = m.read j := by
  induction n generalizing m ka kb with
  | zero => rfl
  | succ n ih => rw [moveNumericLoop, ih _ _ _ (by omega), Memory.read_write_ne _ _ (by omega)]

end Sys2Proof.Machine
end

