-- ==== Sys2Proof/Laws/State.lean ====
section
/-! SUPPORT. One lemma per field per update of the state, so that no proof unfolds a record update; and what the
updates do to a partition. -/

namespace Sys2Proof.Machine

/-! modifyPart -/

@[simp] theorem State.modifyPart_inst (s : State) (q : Nat) (f : Partition → Partition) :
    (s.modifyPart q f).inst = s.inst := rfl
@[simp] theorem State.modifyPart_parts (s : State) (q : Nat) (f : Partition → Partition) :
    (s.modifyPart q f).parts = s.parts.modify q f := rfl
@[simp] theorem State.modifyPart_host (s : State) (q : Nat) (f : Partition → Partition) :
    (s.modifyPart q f).host = s.host := rfl
@[simp] theorem State.modifyPart_timer (s : State) (q : Nat) (f : Partition → Partition) :
    (s.modifyPart q f).timer = s.timer := rfl
@[simp] theorem State.modifyPart_mem (s : State) (q : Nat) (f : Partition → Partition) :
    (s.modifyPart q f).mem = s.mem := rfl
@[simp] theorem State.modifyPart_bound (s : State) (q : Nat) (f : Partition → Partition) :
    (s.modifyPart q f).bound = s.bound := rfl
@[simp] theorem State.modifyPart_fac (s : State) (q : Nat) (f : Partition → Partition) :
    (s.modifyPart q f).fac = s.fac := rfl
@[simp] theorem State.modifyPart_outputs (s : State) (q : Nat) (f : Partition → Partition) :
    (s.modifyPart q f).outputs = s.outputs := rfl
@[simp] theorem State.modifyPart_inputs (s : State) (q : Nat) (f : Partition → Partition) :
    (s.modifyPart q f).inputs = s.inputs := rfl
@[simp] theorem State.modifyPart_draws (s : State) (q : Nat) (f : Partition → Partition) :
    (s.modifyPart q f).draws = s.draws := rfl

/-! modifyMe -/

@[simp] theorem State.modifyMe_inst (s : State) (f : Partition → Partition) :
    (s.modifyMe f).inst = s.inst := rfl
@[simp] theorem State.modifyMe_parts (s : State) (f : Partition → Partition) :
    (s.modifyMe f).parts = s.parts.modify s.host f := rfl
@[simp] theorem State.modifyMe_host (s : State) (f : Partition → Partition) :
    (s.modifyMe f).host = s.host := rfl
@[simp] theorem State.modifyMe_timer (s : State) (f : Partition → Partition) :
    (s.modifyMe f).timer = s.timer := rfl
@[simp] theorem State.modifyMe_mem (s : State) (f : Partition → Partition) : (s.modifyMe f).mem = s.mem := rfl
@[simp] theorem State.modifyMe_bound (s : State) (f : Partition → Partition) :
    (s.modifyMe f).bound = s.bound := rfl
@[simp] theorem State.modifyMe_fac (s : State) (f : Partition → Partition) : (s.modifyMe f).fac = s.fac := rfl
@[simp] theorem State.modifyMe_outputs (s : State) (f : Partition → Partition) :
    (s.modifyMe f).outputs = s.outputs := rfl
@[simp] theorem State.modifyMe_inputs (s : State) (f : Partition → Partition) :
    (s.modifyMe f).inputs = s.inputs := rfl
@[simp] theorem State.modifyMe_draws (s : State) (f : Partition → Partition) :
    (s.modifyMe f).draws = s.draws := rfl

/-! goto -/

@[simp] theorem State.goto_inst (s : State) (p : InstrAddress) : (s.goto p).inst = s.inst := rfl
@[simp] theorem State.goto_parts (s : State) (p : InstrAddress) :
    (s.goto p).parts = s.parts.modify s.host (fun h => { h with pc := p }) := rfl
@[simp] theorem State.goto_host (s : State) (p : InstrAddress) : (s.goto p).host = s.host := rfl
@[simp] theorem State.goto_timer (s : State) (p : InstrAddress) : (s.goto p).timer = s.timer := rfl
@[simp] theorem State.goto_mem (s : State) (p : InstrAddress) : (s.goto p).mem = s.mem := rfl
@[simp] theorem State.goto_bound (s : State) (p : InstrAddress) : (s.goto p).bound = s.bound := rfl
@[simp] theorem State.goto_fac (s : State) (p : InstrAddress) : (s.goto p).fac = s.fac := rfl
@[simp] theorem State.goto_outputs (s : State) (p : InstrAddress) : (s.goto p).outputs = s.outputs := rfl
@[simp] theorem State.goto_inputs (s : State) (p : InstrAddress) : (s.goto p).inputs = s.inputs := rfl
@[simp] theorem State.goto_draws (s : State) (p : InstrAddress) : (s.goto p).draws = s.draws := rfl

/-! advance -/

@[simp] theorem State.advance_inst (s : State) : (s.advance).inst = s.inst := rfl
@[simp] theorem State.advance_parts (s : State) :
    (s.advance).parts = s.parts.modify s.host (fun h => { h with pc := s.me.pc.next }) := rfl
@[simp] theorem State.advance_host (s : State) : (s.advance).host = s.host := rfl
@[simp] theorem State.advance_timer (s : State) : (s.advance).timer = s.timer := rfl
@[simp] theorem State.advance_mem (s : State) : (s.advance).mem = s.mem := rfl
@[simp] theorem State.advance_bound (s : State) : (s.advance).bound = s.bound := rfl
@[simp] theorem State.advance_fac (s : State) : (s.advance).fac = s.fac := rfl
@[simp] theorem State.advance_outputs (s : State) : (s.advance).outputs = s.outputs := rfl
@[simp] theorem State.advance_inputs (s : State) : (s.advance).inputs = s.inputs := rfl
@[simp] theorem State.advance_draws (s : State) : (s.advance).draws = s.draws := rfl

/-! setCC -/

@[simp] theorem State.setCC_inst (s : State) (cc : ConditionCode) : (s.setCC cc).inst = s.inst := rfl
@[simp] theorem State.setCC_parts (s : State) (cc : ConditionCode) :
    (s.setCC cc).parts = s.parts.modify s.host (fun h => { h with cc := cc }) := rfl
@[simp] theorem State.setCC_host (s : State) (cc : ConditionCode) : (s.setCC cc).host = s.host := rfl
@[simp] theorem State.setCC_timer (s : State) (cc : ConditionCode) : (s.setCC cc).timer = s.timer := rfl
@[simp] theorem State.setCC_mem (s : State) (cc : ConditionCode) : (s.setCC cc).mem = s.mem := rfl
@[simp] theorem State.setCC_bound (s : State) (cc : ConditionCode) : (s.setCC cc).bound = s.bound := rfl
@[simp] theorem State.setCC_fac (s : State) (cc : ConditionCode) : (s.setCC cc).fac = s.fac := rfl
@[simp] theorem State.setCC_outputs (s : State) (cc : ConditionCode) : (s.setCC cc).outputs = s.outputs := rfl
@[simp] theorem State.setCC_inputs (s : State) (cc : ConditionCode) : (s.setCC cc).inputs = s.inputs := rfl
@[simp] theorem State.setCC_draws (s : State) (cc : ConditionCode) : (s.setCC cc).draws = s.draws := rfl

/-! setMem -/

@[simp] theorem State.setMem_inst (s : State) (m : Memory) : (s.setMem m).inst = s.inst := rfl
@[simp] theorem State.setMem_parts (s : State) (m : Memory) : (s.setMem m).parts = s.parts := rfl
@[simp] theorem State.setMem_host (s : State) (m : Memory) : (s.setMem m).host = s.host := rfl
@[simp] theorem State.setMem_timer (s : State) (m : Memory) : (s.setMem m).timer = s.timer := rfl
@[simp] theorem State.setMem_mem (s : State) (m : Memory) : (s.setMem m).mem = m := rfl
@[simp] theorem State.setMem_bound (s : State) (m : Memory) : (s.setMem m).bound = s.bound := rfl
@[simp] theorem State.setMem_fac (s : State) (m : Memory) : (s.setMem m).fac = s.fac := rfl
@[simp] theorem State.setMem_outputs (s : State) (m : Memory) : (s.setMem m).outputs = s.outputs := rfl
@[simp] theorem State.setMem_inputs (s : State) (m : Memory) : (s.setMem m).inputs = s.inputs := rfl
@[simp] theorem State.setMem_draws (s : State) (m : Memory) : (s.setMem m).draws = s.draws := rfl

/-! emit -/

@[simp] theorem State.emit_inst (s : State) (es : List OutputEvent) : (s.emit es).inst = s.inst := rfl
@[simp] theorem State.emit_parts (s : State) (es : List OutputEvent) : (s.emit es).parts = s.parts := rfl
@[simp] theorem State.emit_host (s : State) (es : List OutputEvent) : (s.emit es).host = s.host := rfl
@[simp] theorem State.emit_timer (s : State) (es : List OutputEvent) : (s.emit es).timer = s.timer := rfl
@[simp] theorem State.emit_mem (s : State) (es : List OutputEvent) : (s.emit es).mem = s.mem := rfl
@[simp] theorem State.emit_bound (s : State) (es : List OutputEvent) : (s.emit es).bound = s.bound := rfl
@[simp] theorem State.emit_fac (s : State) (es : List OutputEvent) : (s.emit es).fac = s.fac := rfl
@[simp] theorem State.emit_outputs (s : State) (es : List OutputEvent) :
    (s.emit es).outputs = s.outputs ++ es := rfl
@[simp] theorem State.emit_inputs (s : State) (es : List OutputEvent) : (s.emit es).inputs = s.inputs := rfl
@[simp] theorem State.emit_draws (s : State) (es : List OutputEvent) : (s.emit es).draws = s.draws := rfl

/-! finish -/

@[simp] theorem State.finish_inst (s : State) (m : Memory) (cc : ConditionCode) :
    (s.finish m cc).inst = s.inst := rfl
@[simp] theorem State.finish_host (s : State) (m : Memory) (cc : ConditionCode) :
    (s.finish m cc).host = s.host := rfl
@[simp] theorem State.finish_timer (s : State) (m : Memory) (cc : ConditionCode) :
    (s.finish m cc).timer = s.timer := rfl
@[simp] theorem State.finish_mem (s : State) (m : Memory) (cc : ConditionCode) :
    (s.finish m cc).mem = m := rfl
@[simp] theorem State.finish_bound (s : State) (m : Memory) (cc : ConditionCode) :
    (s.finish m cc).bound = s.bound := rfl
@[simp] theorem State.finish_fac (s : State) (m : Memory) (cc : ConditionCode) :
    (s.finish m cc).fac = s.fac := rfl
@[simp] theorem State.finish_outputs (s : State) (m : Memory) (cc : ConditionCode) :
    (s.finish m cc).outputs = s.outputs := rfl
@[simp] theorem State.finish_inputs (s : State) (m : Memory) (cc : ConditionCode) :
    (s.finish m cc).inputs = s.inputs := rfl
@[simp] theorem State.finish_draws (s : State) (m : Memory) (cc : ConditionCode) :
    (s.finish m cc).draws = s.draws := rfl

/-! switchPartition -/

@[simp] theorem State.switchPartition_inst (s : State) : (s.switchPartition).inst = s.inst := rfl
@[simp] theorem State.switchPartition_parts (s : State) : (s.switchPartition).parts = s.parts := rfl
@[simp] theorem State.switchPartition_host (s : State) : (s.switchPartition).host = s.nextPartition := rfl
@[simp] theorem State.switchPartition_timer (s : State) : (s.switchPartition).timer = 0 := rfl
@[simp] theorem State.switchPartition_mem (s : State) : (s.switchPartition).mem = s.mem := rfl
@[simp] theorem State.switchPartition_bound (s : State) : (s.switchPartition).bound = s.bound := rfl
@[simp] theorem State.switchPartition_fac (s : State) : (s.switchPartition).fac = s.fac := rfl
@[simp] theorem State.switchPartition_outputs (s : State) : (s.switchPartition).outputs = s.outputs := rfl
@[simp] theorem State.switchPartition_inputs (s : State) : (s.switchPartition).inputs = s.inputs := rfl
@[simp] theorem State.switchPartition_draws (s : State) : (s.switchPartition).draws = s.draws := rfl

/-! setOperation -/

@[simp] theorem State.setOperation_inst (s : State) (q : Nat) (o : IocOperation) :
    (s.setOperation q o).inst = s.inst := rfl
@[simp] theorem State.setOperation_parts (s : State) (q : Nat) (o : IocOperation) :
    (s.setOperation q o).parts = s.parts.modify q (fun p => { p with io := some o, signal := none }) := rfl
@[simp] theorem State.setOperation_host (s : State) (q : Nat) (o : IocOperation) :
    (s.setOperation q o).host = s.host := rfl
@[simp] theorem State.setOperation_timer (s : State) (q : Nat) (o : IocOperation) :
    (s.setOperation q o).timer = s.timer := rfl
@[simp] theorem State.setOperation_mem (s : State) (q : Nat) (o : IocOperation) :
    (s.setOperation q o).mem = s.mem := rfl
@[simp] theorem State.setOperation_bound (s : State) (q : Nat) (o : IocOperation) :
    (s.setOperation q o).bound = s.bound := rfl
@[simp] theorem State.setOperation_fac (s : State) (q : Nat) (o : IocOperation) :
    (s.setOperation q o).fac = s.fac := rfl
@[simp] theorem State.setOperation_outputs (s : State) (q : Nat) (o : IocOperation) :
    (s.setOperation q o).outputs = s.outputs := rfl
@[simp] theorem State.setOperation_inputs (s : State) (q : Nat) (o : IocOperation) :
    (s.setOperation q o).inputs = s.inputs := rfl
@[simp] theorem State.setOperation_draws (s : State) (q : Nat) (o : IocOperation) :
    (s.setOperation q o).draws = s.draws := rfl

/-! unbind -/

@[simp] theorem State.unbind_inst (s : State) (d u : Nat) : (s.unbind d u).inst = s.inst := rfl
@[simp] theorem State.unbind_parts (s : State) (d u : Nat) : (s.unbind d u).parts = s.parts := rfl
@[simp] theorem State.unbind_host (s : State) (d u : Nat) : (s.unbind d u).host = s.host := rfl
@[simp] theorem State.unbind_timer (s : State) (d u : Nat) : (s.unbind d u).timer = s.timer := rfl
@[simp] theorem State.unbind_mem (s : State) (d u : Nat) : (s.unbind d u).mem = s.mem := rfl
@[simp] theorem State.unbind_bound (s : State) (d u : Nat) :
    (s.unbind d u).bound = s.bound.filter (fun x => !(x.device == d && x.unit == u)) := rfl
@[simp] theorem State.unbind_fac (s : State) (d u : Nat) : (s.unbind d u).fac = s.fac := rfl
@[simp] theorem State.unbind_outputs (s : State) (d u : Nat) : (s.unbind d u).outputs = s.outputs := rfl
@[simp] theorem State.unbind_inputs (s : State) (d u : Nat) : (s.unbind d u).inputs = s.inputs := rfl
@[simp] theorem State.unbind_draws (s : State) (d u : Nat) : (s.unbind d u).draws = s.draws := rfl

/-! bindDisc -/

@[simp] theorem State.bindDisc_inst (s : State) (d u : Nat) : (s.bindDisc d u).inst = s.inst := rfl
@[simp] theorem State.bindDisc_parts (s : State) (d u : Nat) : (s.bindDisc d u).parts = s.parts := rfl
@[simp] theorem State.bindDisc_host (s : State) (d u : Nat) : (s.bindDisc d u).host = s.host := rfl
@[simp] theorem State.bindDisc_timer (s : State) (d u : Nat) : (s.bindDisc d u).timer = s.timer := rfl
@[simp] theorem State.bindDisc_mem (s : State) (d u : Nat) : (s.bindDisc d u).mem = s.mem := rfl
@[simp] theorem State.bindDisc_bound (s : State) (d u : Nat) :
    (s.bindDisc d u).bound = { device := d, unit := u, partition := s.host } ::
      s.bound.filter (fun x => !(x.device == d && x.unit == u)) := rfl
@[simp] theorem State.bindDisc_fac (s : State) (d u : Nat) : (s.bindDisc d u).fac = s.fac := rfl
@[simp] theorem State.bindDisc_outputs (s : State) (d u : Nat) : (s.bindDisc d u).outputs = s.outputs := rfl
@[simp] theorem State.bindDisc_inputs (s : State) (d u : Nat) : (s.bindDisc d u).inputs = s.inputs := rfl
@[simp] theorem State.bindDisc_draws (s : State) (d u : Nat) : (s.bindDisc d u).draws = s.draws := rfl

/-! resume -/

@[simp] theorem State.resume_inst (s : State) : (s.resume).inst = s.inst := rfl
@[simp] theorem State.resume_host (s : State) : (s.resume).host = s.host := rfl
@[simp] theorem State.resume_timer (s : State) : (s.resume).timer = s.timer := rfl
@[simp] theorem State.resume_mem (s : State) : (s.resume).mem = s.mem := rfl
@[simp] theorem State.resume_bound (s : State) : (s.resume).bound = s.bound := rfl
@[simp] theorem State.resume_fac (s : State) : (s.resume).fac = s.fac := rfl
@[simp] theorem State.resume_outputs (s : State) : (s.resume).outputs = s.outputs := rfl
@[simp] theorem State.resume_inputs (s : State) : (s.resume).inputs = s.inputs := rfl
@[simp] theorem State.resume_draws (s : State) : (s.resume).draws = s.draws := rfl

/-! tick -/

@[simp] theorem State.tick_inst (s : State) (b : BoundaryInput) : (s.tick b).inst = s.inst := rfl
@[simp] theorem State.tick_parts (s : State) (b : BoundaryInput) : (s.tick b).parts = s.parts := rfl
@[simp] theorem State.tick_host (s : State) (b : BoundaryInput) : (s.tick b).host = s.host := rfl
@[simp] theorem State.tick_timer (s : State) (b : BoundaryInput) :
    (s.tick b).timer = s.timer + b.elapsed := rfl
@[simp] theorem State.tick_mem (s : State) (b : BoundaryInput) : (s.tick b).mem = s.mem := rfl
@[simp] theorem State.tick_bound (s : State) (b : BoundaryInput) : (s.tick b).bound = s.bound := rfl
@[simp] theorem State.tick_fac (s : State) (b : BoundaryInput) : (s.tick b).fac = b.fac := rfl
@[simp] theorem State.tick_outputs (s : State) (b : BoundaryInput) : (s.tick b).outputs = s.outputs := rfl
@[simp] theorem State.tick_inputs (s : State) (b : BoundaryInput) : (s.tick b).inputs = s.inputs.tail := rfl
@[simp] theorem State.tick_draws (s : State) (b : BoundaryInput) : (s.tick b).draws = s.draws + 1 := rfl

/-! Partitions. -/

/-- Partition q' after a change of partition q. -/
theorem State.part_modifyPart (s : State) (q q' : Nat) (f : Partition → Partition) :
    (s.modifyPart q f).part q' = if q' = q ∧ q < s.parts.length then f (s.part q') else s.part q' := by
  simp only [State.part, State.modifyPart_parts, List.getD_eq_getElem?_getD, List.getElem?_modify]
  by_cases hq : q' = q
  · subst hq
    by_cases hlt : q' < s.parts.length <;> simp [hlt]
  · have hq' : ¬ q = q' := fun h => hq h.symm
    simp [hq, hq']

@[simp] theorem State.part_setMem (s : State) (m : Memory) (q : Nat) : (s.setMem m).part q = s.part q := rfl
@[simp] theorem State.part_emit (s : State) (es : List OutputEvent) (q : Nat) :
    (s.emit es).part q = s.part q := rfl
@[simp] theorem State.part_switchPartition (s : State) (q : Nat) :
    s.switchPartition.part q = s.part q := rfl
@[simp] theorem State.part_unbind (s : State) (d u q : Nat) : (s.unbind d u).part q = s.part q := rfl
@[simp] theorem State.part_bindDisc (s : State) (d u q : Nat) : (s.bindDisc d u).part q = s.part q := rfl
@[simp] theorem State.part_tick (s : State) (b : BoundaryInput) (q : Nat) : (s.tick b).part q = s.part q := rfl
@[simp] theorem State.me_setMem (s : State) (m : Memory) : (s.setMem m).me = s.me := rfl
@[simp] theorem State.me_emit (s : State) (es : List OutputEvent) : (s.emit es).me = s.me := rfl
@[simp] theorem State.me_unbind (s : State) (d u : Nat) : (s.unbind d u).me = s.me := rfl
@[simp] theorem State.me_bindDisc (s : State) (d u : Nat) : (s.bindDisc d u).me = s.me := rfl
@[simp] theorem State.me_tick (s : State) (b : BoundaryInput) : (s.tick b).me = s.me := rfl

/-- A change of a partition keeps the number of partitions. -/
@[simp] theorem State.modifyPart_length (s : State) (q : Nat) (f : Partition → Partition) :
    (s.modifyPart q f).parts.length = s.parts.length := by simp

/-- The host partition after a change of it. -/
theorem State.me_modifyMe (s : State) (f : Partition → Partition) (h : s.host < s.parts.length) :
    (s.modifyMe f).me = f s.me := by
  show (s.modifyPart s.host f).part s.host = f (s.part s.host)
  rw [State.part_modifyPart, if_pos ⟨rfl, h⟩]

/-- Another partition after a change of the host partition. -/
theorem State.part_modifyMe_ne (s : State) (f : Partition → Partition) {q : Nat} (h : q ≠ s.host) :
    (s.modifyMe f).part q = s.part q := by
  show (s.modifyPart s.host f).part q = s.part q
  rw [State.part_modifyPart, if_neg (fun hc => h hc.1)]

/-- The host partition after an instruction has finished. -/
theorem State.me_finish (s : State) (m : Memory) (cc : ConditionCode) (h : s.host < s.parts.length) :
    (s.finish m cc).me = { s.me with pc := s.me.pc.next, cc := cc } := by
  have h1 : ((s.setMem m).setCC cc).me = { s.me with cc := cc } := State.me_modifyMe (s.setMem m) _ h
  have h2 : (s.finish m cc).me =
      { ((s.setMem m).setCC cc).me with pc := ((s.setMem m).setCC cc).me.pc.next } :=
    State.me_modifyMe ((s.setMem m).setCC cc) _ (by simpa using h)
  rw [h2, h1]

/-- Another partition after an instruction has finished. -/
theorem State.part_finish_ne (s : State) (m : Memory) (cc : ConditionCode) {q : Nat} (h : q ≠ s.host) :
    (s.finish m cc).part q = s.part q :=
  (State.part_modifyMe_ne ((s.setMem m).setCC cc) _ h).trans (State.part_modifyMe_ne (s.setMem m) _ h)

@[simp] theorem State.finish_length (s : State) (m : Memory) (cc : ConditionCode) :
    (s.finish m cc).parts.length = s.parts.length := by
  simp [State.finish]

/-- A change that leaves the host partition as it is leaves the state as it is. -/
theorem State.modifyMe_of_fixed (s : State) (f : Partition → Partition) (h : f s.me = s.me) :
    s.modifyMe f = s := by
  have hid : s.parts.modify s.host f = s.parts := by
    apply List.ext_getElem?
    intro q
    rw [List.getElem?_modify]
    by_cases hq : s.host = q
    · subst hq
      cases hp : s.parts[s.host]? with
      | none => simp
      | some p =>
        have hme : s.me = p := by simp [State.me, State.part, List.getD_eq_getElem?_getD, hp]
        rw [hme] at h
        simp [h]
    · simp [hq]
  show ({ s with parts := s.parts.modify s.host f } : State) = s
  rw [hid]

/-! Collecting the outcome of an operation. -/

@[simp] theorem Partition.collect_setting (p : Partition) : p.collect.setting = p.setting := by
  unfold Partition.collect; split <;> (try split) <;> rfl
@[simp] theorem Partition.collect_pc (p : Partition) : p.collect.pc = p.pc := by
  unfold Partition.collect; split <;> (try split) <;> rfl
@[simp] theorem Partition.collect_signal (p : Partition) : p.collect.signal = p.signal := by
  unfold Partition.collect; split <;> (try split) <;> rfl
@[simp] theorem Partition.collect_srq (p : Partition) : p.collect.srq = p.srq := by
  unfold Partition.collect; split <;> (try split) <;> rfl
@[simp] theorem Partition.collect_poll (p : Partition) : p.collect.poll = p.poll := by
  unfold Partition.collect; split <;> (try split) <;> rfl

/-- The host partition after it has collected. -/
@[simp] theorem State.resume_me (s : State) : s.resume.me = s.me.collect := by
  simp only [State.me, State.part, State.resume, State.modifyMe, State.modifyPart, List.getD_eq_getElem?_getD,
    List.getElem?_modify]
  cases s.parts[s.host]? with
  | none => rfl
  | some p => simp

/-- Collecting does not change whether the host partition stands at a stop address. -/
@[simp] theorem State.resume_finished (s : State) : s.resume.finished = s.finished := by
  simp [State.finished]

/-- Without an operation in progress there is nothing to collect. -/
theorem State.resume_of_no_operation (s : State) (h : s.me.io = none) : s.resume = s :=
  State.modifyMe_of_fixed s _ (by simp [Partition.collect, h])

/-- An operation that has not ended is not collected. -/
theorem State.resume_of_waiting (s : State) {o : IocOperation} (h : s.me.io = some o) (hd : o.done = none) :
    s.resume = s :=
  State.modifyMe_of_fixed s _ (by simp [Partition.collect, h, hd])

end Sys2Proof.Machine
end

