-- ==== Sys2Proof/Laws/Ops.lean ====
section
/-! SUPPORT. Each shared operation, once: what it can answer, and what it leaves. -/

namespace Sys2Proof.Machine

/-! Locations and keys. -/

/-- Two locations of spaces have the same key only if they are the same location. -/
theorem Space.key_inj {sp sp' : Space} {a a' : Nat} (h : a < Config.spaceLimit) (h' : a' < Config.spaceLimit)
    (hk : sp.key a = sp'.key a') : sp = sp' ∧ a = a' := by
  unfold Config.spaceLimit at h h'
  cases sp <;> cases sp' <;> simp only [Space.key, Config.spaceLimit] at hk
  · exact ⟨rfl, hk⟩
  · omega
  · omega
  · rename_i q q'
    have : q = q' := by omega
    subst this
    exact ⟨rfl, by omega⟩

theorem Space.key_add (sp : Space) (a n : Nat) : sp.key (a + n) = sp.key a + n := by
  cases sp with
  | common => rfl
  | part q => simp only [Space.key]; omega

/-- Which locations have their keys in a field. -/
theorem Place.key_in_field {p : Place} {n : Nat} (hn : p.loc + n ≤ Config.spaceLimit) {sp : Space} {loc : Nat}
    (hloc : loc < Config.spaceLimit) :
    (p.key ≤ sp.key loc ∧ sp.key loc < p.key + n) ↔ (sp = p.space ∧ p.loc ≤ loc ∧ loc < p.loc + n) := by
  obtain ⟨psp, ploc⟩ := p
  unfold Config.spaceLimit at hn hloc
  cases sp <;> cases psp <;>
    simp only [Place.key, Space.key, Config.spaceLimit, Space.part.injEq, true_and, reduceCtorEq, false_and,
      iff_false] at *
  · omega
  · omega
  · omega

theorem State.sizeOf_le (s : State) (sp : Space) : s.sizeOf sp ≤ Config.spaceLimit := by
  cases sp <;> simp only [State.sizeOf] <;> omega

theorem State.InRange.le {s : State} {p : Place} {n : Nat} (h : s.InRange p n) :
    p.loc + n ≤ Config.spaceLimit := le_trans h (s.sizeOf_le p.space)

@[simp] theorem State.field_length (s : State) (p : Place) (n : Nat) : (s.field p n).length = n :=
  Memory.readField_length _ _ _

/-- Character i of a field is the character at its location. -/
theorem State.field_getElem (s : State) (p : Place) (n i : Nat) (h : i < (s.field p n).length) :
    (s.field p n)[i] = s.at p.space (p.loc + i) := by
  rw [State.at, Space.key_add]
  exact Memory.readField_getElem _ _ _ _ h

/-- A field stored leaves every location outside it alone. -/
theorem State.stored_outside (s : State) {p : Place} {n : Nat} {cs : List Character} (hcs : cs.length ≤ n)
    (hn : p.loc + n ≤ Config.spaceLimit) {sp : Space} {loc : Nat} (hloc : loc < Config.spaceLimit)
    (hout : ¬ (sp = p.space ∧ p.loc ≤ loc ∧ loc < p.loc + n)) :
    (s.stored p cs).read (sp.key loc) = s.at sp loc := by
  have := mt (Place.key_in_field hn hloc).mp hout
  exact Memory.read_writeField_outside _ _ _ _ (by omega)

/-- The field read back after it was stored. -/
theorem State.field_of_stored {s t : State} (hwf : s.mem.wf = true) {p : Place} {cs : List Character}
    (ht : t.mem = s.stored p cs) : t.field p cs.length = cs := by
  rw [State.field, ht]
  exact Memory.readField_writeField hwf _ _

/-! Checks. -/

theorem State.checkRead_ok {s : State} {p : Place} {n : Nat} : s.checkRead p n = .ok () ↔ s.CanRead p n := by
  unfold State.checkRead State.CanRead
  split
  · simp [*]
  · split <;> simp_all

theorem State.checkWrite_ok {s : State} {p : Place} {n : Nat} :
    s.checkWrite p n = .ok () ↔ s.CanWrite p n := by
  unfold State.checkWrite State.CanWrite
  split
  · simp [*]
  · split
    · simp [*]
    · split <;> simp_all

/-- All that a read check answers when it fails. -/
theorem State.checkRead_error {s : State} {p : Place} {n : Nat} {kind : FaultKind} :
    s.checkRead p n = .error kind ↔ s.ReadFault p n kind := by
  constructor
  · intro h
    unfold State.checkRead at h
    split at h
    · cases h; exact .inl ⟨rfl, ‹_›⟩
    · split at h
      · cases h; exact .inr ⟨rfl, not_not.mp ‹_›, ‹_›⟩
      · cases h
  · unfold State.checkRead
    rintro (⟨rfl, h⟩ | ⟨rfl, h1, h2⟩)
    · rw [if_pos h]
    · rw [if_neg (not_not.mpr h1), if_pos h2]

/-- All that a store check answers when it fails. -/
theorem State.checkWrite_error {s : State} {p : Place} {n : Nat} {kind : FaultKind} :
    s.checkWrite p n = .error kind ↔ s.WriteFault p n kind := by
  constructor
  · intro h
    unfold State.checkWrite at h
    split at h
    · cases h; exact .inl ⟨rfl, ‹_›⟩
    · split at h
      · cases h; exact .inr (.inl ⟨rfl, not_not.mp ‹_›, not_not.mp ‹_›⟩)
      · split at h
        · cases h; exact .inr (.inr ⟨rfl, not_not.mp ‹_›, not_not.mp ‹_›, ‹_›⟩)
        · cases h
  · unfold State.checkWrite
    rintro (⟨rfl, h⟩ | ⟨rfl, h1, h2⟩ | ⟨rfl, h1, h2, h3⟩)
    · rw [if_pos h]
    · rw [if_neg (not_not.mpr h1), if_pos (show ¬ s.Storable p from not_not.mpr h2)]
    · rw [if_neg (not_not.mpr h1), if_neg (show ¬ ¬ s.Storable p from not_not.mpr h2), if_pos h3]

/-- Sequencing of checks: the second part runs only after the first. -/
theorem Except.bind_ok {ε α β : Type} {x : Except ε α} {f : α → Except ε β} {b : β} :
    x >>= f = .ok b ↔ ∃ a, x = .ok a ∧ f a = .ok b := by
  cases x <;> simp [bind, Except.bind]

/-- Sequencing after a check. -/
theorem Except.check_ok {ε β : Type} {x : Except ε Unit} {f : Unit → Except ε β} {b : β} :
    x >>= f = .ok b ↔ x = .ok () ∧ f () = .ok b := by
  cases x <;> simp [bind, Except.bind]

theorem Except.bind_error {ε α β : Type} {x : Except ε α} {f : α → Except ε β} {e : ε} :
    x >>= f = .error e ↔ x = .error e ∨ ∃ a, x = .ok a ∧ f a = .error e := by
  cases x <;> simp [bind, Except.bind]

/-- The outcome of an instruction is a next state exactly when its checks pass. -/
theorem State.outcome_next {s t : State} {x : Except FaultKind State} :
    s.outcome x = .next t ↔ x = .ok t := by
  cases x <;> simp [State.outcome, State.raise]

/-- The outcome of an instruction is a model fault at P when its checks fail. -/
theorem State.outcome_error (s : State) (kind : FaultKind) :
    s.outcome (.error kind) = .fault (kind.at { partition := s.host, pc := s.me.pc }) := rfl

/-! Operands. -/

/-- What forming the two effective addresses answers. -/
theorem State.effective_ok {s : State} {a b : Operand} {pa pb : Place} :
    s.effective a b = .ok (pa, pb) ↔
      ∃ xa xb, s.indexValue a.index = .ok xa ∧ s.indexValue b.index = .ok xb ∧
        a.addr + xa ≤ 9999 ∧ b.addr + xb ≤ 9999 ∧
        pa = s.place a.common (a.addr + xa) ∧ pb = s.place b.common (b.addr + xb) := by
  unfold State.effective addressSum
  cases hxa : s.indexValue a.index with
  | error e => simp [bind, Except.bind]
  | ok xa =>
    cases hxb : s.indexValue b.index with
    | error e => simp [bind, Except.bind]
    | ok xb =>
      by_cases ha : a.addr + xa ≤ 9999 <;> by_cases hb : b.addr + xb ≤ 9999 <;>
        simp [bind, Except.bind, ha, hb, pure, Except.pure, eq_comm]

/-- The operands of an instruction lie in Common or in the host partition. -/
theorem State.effective_space {s : State} {a b : Operand} {pa pb : Place} (h : s.effective a b = .ok (pa, pb)) :
    pa.space = s.space a.common ∧ pb.space = s.space b.common := by
  obtain ⟨xa, xb, -, -, -, -, rfl, rfl⟩ := State.effective_ok.mp h
  exact ⟨rfl, rfl⟩

/-! Lengths of results. -/

@[simp] theorem digits_length (n v : Nat) : (digits n v).length = n := by
  induction n with
  | zero => rfl
  | succ n ih => simp [digits, ih]

@[simp] theorem freeField_length (draw n : Nat) : (freeField draw n).length = n := by simp [freeField]

theorem putDigits_length (cs : List Character) (ds : List Nat) (negative : Bool) (h : cs.length = ds.length) :
    (putDigits cs ds negative).length = cs.length := by
  induction cs generalizing ds with
  | nil => cases ds <;> rfl
  | cons c cs ih =>
    cases ds with
    | nil => simp at h
    | cons d ds =>
      simp only [List.length_cons, Nat.add_right_cancel_iff] at h
      have := ih ds h
      cases cs with
      | nil =>
        cases ds with
        | nil => rfl
        | cons _ _ => simp at h
      | cons c' cs => simp [putDigits, this]

@[simp] theorem digitField_length (ds : List Nat) (negative : Bool) :
    (digitField ds negative).length = ds.length := by
  fun_induction digitField ds negative <;> simp_all

theorem returnCharacters_length (old : List Character) (ret : InstrAddress) (h : old.length = 4) :
    (returnCharacters old ret).length = 4 := by
  match old, h with
  | [_, _, _, _], _ => rfl

theorem addFields_length (draw : Nat) (reverse : Bool) (a b : List Character) :
    (addFields draw reverse a b).chars.length = b.length := by
  unfold addFields
  split
  · unfold sumResult
    simp only
    split <;> exact putDigits_length _ _ _ (by simp)
  · exact freeField_length _ _

theorem multiplyFields_length (draw : Nat) (a b : List Character) :
    (multiplyFields draw a b).chars.length = b.length := by
  unfold multiplyFields productResult unspecifiedResult
  split <;> simp

theorem divideFields_length (draw : Nat) (a b : List Character) (n : Nat) (h : b.length = a.length + n) :
    (divideFields draw a b n).chars.length = b.length := by
  unfold divideFields divideDecimal
  split
  · split
    · rfl
    · split
      · simp
      · simp only [quotientResult, List.length_append, digitField_length, digits_length]
        rw [putDigits_length] <;> simp <;> omega
  · exact freeField_length _ _

theorem editField_length_le (keepSign : Bool) (cs : List Character) (ds : List Nat) (left : Character)
    (significant : Bool) : (editField keepSign cs ds left significant).length ≤ cs.length := by
  fun_induction editField keepSign cs ds left significant <;> simp_all

theorem filledUnitsFirst_length (draw : Nat) (f : FormedDigits) (n : Nat) (h : f.out.length ≤ n) :
    (filledUnitsFirst draw f n).length = n := by
  have hl : (f.out ++ List.replicate (n - f.out.length) ZERO).length = n := by simp; omega
  unfold filledUnitsFirst
  split
  · rename_i heq
    rw [heq] at hl
    simpa using hl
  · exact hl

theorem formFields_length (draw : Nat) (a : List Character) (n : Nat) :
    (formFields draw a n).chars.length = n := by
  unfold formFields
  simp only
  split
  · simp; omega
  · simp only [List.length_reverse]
    exact filledUnitsFirst_length _ _ _ (by omega)

/-! The frames of the instructions that finish with a memory and a Condition Code. -/

/-- All that Add, Subtract, Multiply, Divide and Form Numeric can answer. -/
theorem State.arithmetic_ok {s t : State} {la lb : Nat} {a b : Operand}
    {result : List Character → List Character → FieldResult} :
    s.arithmetic la lb a b result = .ok t ↔
      ∃ pa pb, s.effective a b = .ok (pa, pb) ∧ s.CanRead pa la ∧ s.CanWrite pb lb ∧
        ∃ r, r = (if overlap pa la pb lb then unspecifiedResult s.draws lb
            else result (s.field pa la) (s.field pb lb)) ∧
          t = s.finish (s.stored pb r.chars) r.cc := by
  unfold State.arithmetic
  simp only [Except.bind_ok, Prod.exists, pure, Except.pure, Except.ok.injEq]
  constructor
  · rintro ⟨pa, pb, he, ⟨⟩, hr, ⟨⟩, hw, rfl⟩
    exact ⟨pa, pb, he, State.checkRead_ok.mp hr, State.checkWrite_ok.mp hw, _, rfl, rfl⟩
  · rintro ⟨pa, pb, he, hr, hw, r, rfl, rfl⟩
    exact ⟨pa, pb, he, (), State.checkRead_ok.mpr hr, (), State.checkWrite_ok.mpr hw, rfl⟩

/-- All that Move Character and Move Numeric can answer. -/
theorem State.move_ok {s t : State} {n : Nat} {a b : Operand} {loop : Memory → Nat → Nat → Nat → Memory} :
    s.move n a b loop = .ok t ↔
      ∃ pa pb, s.effective a b = .ok (pa, pb) ∧ s.CanRead pa n ∧ s.CanWrite pb n ∧
        t = s.finish (loop s.mem pa.key pb.key n) (.only .two) := by
  unfold State.move
  simp only [Except.bind_ok, Prod.exists, pure, Except.pure, Except.ok.injEq]
  constructor
  · rintro ⟨pa, pb, he, ⟨⟩, hr, ⟨⟩, hw, rfl⟩
    exact ⟨pa, pb, he, State.checkRead_ok.mp hr, State.checkWrite_ok.mp hw, rfl⟩
  · rintro ⟨pa, pb, he, hr, hw, rfl⟩
    exact ⟨pa, pb, he, (), State.checkRead_ok.mpr hr, (), State.checkWrite_ok.mpr hw, rfl⟩

/-- All that Exchange can answer. -/
theorem State.exchange_ok {s t : State} {n : Nat} {a b : Operand} :
    s.exchange n a b = .ok t ↔
      ∃ pa pb, s.effective a b = .ok (pa, pb) ∧ s.CanWrite pa n ∧ s.CanWrite pb n ∧
        t = s.finish (exchangeLoop s.mem pa.key pb.key n) (.only .two) := by
  unfold State.exchange
  simp only [Except.bind_ok, Prod.exists, pure, Except.pure, Except.ok.injEq]
  constructor
  · rintro ⟨pa, pb, he, ⟨⟩, hr, ⟨⟩, hw, rfl⟩
    exact ⟨pa, pb, he, State.checkWrite_ok.mp hr, State.checkWrite_ok.mp hw, rfl⟩
  · rintro ⟨pa, pb, he, hr, hw, rfl⟩
    exact ⟨pa, pb, he, (), State.checkWrite_ok.mpr hr, (), State.checkWrite_ok.mpr hw, rfl⟩

/-- All that Compare can answer. -/
theorem State.compare_ok {s t : State} {n : Nat} {a b : Operand} :
    s.compare n a b = .ok t ↔
      ∃ pa pb, s.effective a b = .ok (pa, pb) ∧ s.CanRead pa n ∧ s.CanRead pb n ∧
        t = s.finish s.mem (compareFields (s.field pa n) (s.field pb n)) := by
  unfold State.compare
  simp only [Except.bind_ok, Prod.exists, pure, Except.pure, Except.ok.injEq]
  constructor
  · rintro ⟨pa, pb, he, ⟨⟩, hr, ⟨⟩, hw, rfl⟩
    exact ⟨pa, pb, he, State.checkRead_ok.mp hr, State.checkRead_ok.mp hw, rfl⟩
  · rintro ⟨pa, pb, he, hr, hw, rfl⟩
    exact ⟨pa, pb, he, (), State.checkRead_ok.mpr hr, (), State.checkRead_ok.mpr hw, rfl⟩

/-- All that Edit can answer. -/
theorem State.edit_ok {s t : State} {n : Nat} {a b : Operand} :
    s.edit n a b = .ok t ↔
      ∃ pa pb m, s.effective a b = .ok (pa, pb) ∧ s.CanRead pa n ∧
        controlLength s.mem pb.key (s.sizeOf pb.space - pb.loc) n = some m ∧ s.CanWrite pb m ∧
        ∃ r, r = (if overlap pa n pb m then unspecifiedEdit s.draws m
            else editFields s.draws (s.field pa n) (s.field pb m)) ∧
          t = s.finish (s.stored pb r.chars) r.cc := by
  unfold State.edit
  constructor
  · intro h
    obtain ⟨⟨pa, pb⟩, he, h⟩ := Except.bind_ok.mp h
    obtain ⟨hr, h⟩ := Except.check_ok.mp h
    cases hm : controlLength s.mem pb.key (s.sizeOf pb.space - pb.loc) n with
    | none => simp only [hm] at h; cases h
    | some m =>
      simp only [hm] at h
      obtain ⟨hw, h⟩ := Except.check_ok.mp h
      cases h
      exact ⟨pa, pb, m, he, State.checkRead_ok.mp hr, hm, State.checkWrite_ok.mp hw, _, rfl, rfl⟩
  · rintro ⟨pa, pb, m, he, hr, hm, hw, r, rfl, rfl⟩
    rw [he]
    refine Except.bind_ok.mpr ⟨(pa, pb), rfl, Except.check_ok.mpr ⟨State.checkRead_ok.mpr hr, ?_⟩⟩
    simp only [hm]
    exact Except.check_ok.mpr ⟨State.checkWrite_ok.mpr hw, rfl⟩

/-! Branches. -/

theorem branchLocation_ok {a : BranchAddress} {loc : Nat} :
    branchLocation a = .ok loc ↔ a.digits.decimal = true ∧ loc = a.digits.value := by
  unfold branchLocation
  by_cases h : a.digits.decimal = true
  · rw [if_pos h, Except.ok.injEq]
    exact ⟨fun e => ⟨h, e.symm⟩, fun e => e.2.symm⟩
  · rw [if_neg h]
    exact ⟨fun e => (by cases e), fun e => absurd e.1 h⟩

theorem branchTarget_ok {a : BranchAddress} {t : InstrAddress} :
    branchTarget a = .ok t ↔
      a.digits.decimal = true ∧ t = { common := a.common, loc := a.digits.value } := by
  unfold branchTarget
  simp only [Except.bind_ok, branchLocation_ok, pure, Except.pure, Except.ok.injEq]
  constructor
  · rintro ⟨_, ⟨h, rfl⟩, rfl⟩
    exact ⟨h, rfl⟩
  · rintro ⟨h, rfl⟩
    exact ⟨_, ⟨h, rfl⟩, rfl⟩

/-- All that Branch can answer. -/
theorem State.branch_ok {s t : State} {variant : Nat} {lb : Numeric} {a b : BranchAddress} :
    s.branch variant lb a b = .ok t ↔
      (branchRequired s.me.cc variant = true ∧ a.digits.decimal = true ∧
        t = s.taken { common := a.common, loc := a.digits.value } (variant == 8)) ∨
      (branchRequired s.me.cc variant = false ∧ reservedVariant lb.toNat = false ∧
        branchRequired s.me.cc lb.toNat = true ∧ b.digits.decimal = true ∧
        t = s.taken { common := b.common, loc := b.digits.value } (lb.toNat == 8)) ∨
      (branchRequired s.me.cc variant = false ∧ reservedVariant lb.toNat = false ∧
        branchRequired s.me.cc lb.toNat = false ∧ t = s.advance) := by
  unfold State.branch
  split
  · rename_i h1
    simp only [Except.bind_ok, branchTarget_ok, pure, Except.pure, Except.ok.injEq, h1]
    constructor
    · rintro ⟨_, ⟨hd, rfl⟩, rfl⟩
      exact .inl ⟨trivial, hd, rfl⟩
    · rintro (⟨-, hd, rfl⟩ | ⟨h, -⟩ | ⟨h, -⟩)
      · exact ⟨_, ⟨hd, rfl⟩, rfl⟩
      · cases h
      · cases h
  · rename_i h1
    rw [Bool.not_eq_true] at h1
    split
    · rename_i h2
      simp [h1, h2]
    · rename_i h2
      rw [Bool.not_eq_true] at h2
      split
      · rename_i h3
        simp only [Except.bind_ok, branchTarget_ok, pure, Except.pure, Except.ok.injEq, h1, h2, h3]
        constructor
        · rintro ⟨_, ⟨hd, rfl⟩, rfl⟩
          exact .inr (.inl ⟨trivial, trivial, trivial, hd, rfl⟩)
        · rintro (⟨h, -⟩ | ⟨-, -, -, hd, rfl⟩ | ⟨-, -, h, -⟩)
          · cases h
          · exact ⟨_, ⟨hd, rfl⟩, rfl⟩
          · cases h
      · rename_i h3
        rw [Bool.not_eq_true] at h3
        simp only [h1, h2, h3, Except.ok.injEq]
        exact ⟨fun e => .inr (.inr ⟨trivial, trivial, trivial, e.symm⟩), by
          rintro (⟨h, -⟩ | ⟨-, -, h, -⟩ | ⟨-, -, -, h⟩)
          · cases h
          · cases h
          · exact h.symm⟩

/-- All that Link can answer. -/
theorem State.link_ok {s t : State} {lb : Numeric} {a b : BranchAddress} :
    s.link lb a b = .ok t ↔
      reservedVariant lb.toNat = false ∧
      ((branchRequired s.me.cc lb.toNat = false ∧ t = s.advance) ∨
        (branchRequired s.me.cc lb.toNat = true ∧ a.digits.decimal = true ∧ b.digits.decimal = true ∧
          s.me.pc.next.loc ≤ 9999 ∧ s.CanWrite (s.place a.common a.digits.value) 4 ∧
          t = (s.setMem (s.stored (s.place a.common a.digits.value)
              (returnCharacters (s.field (s.place a.common a.digits.value) 4) s.me.pc.next))).taken
            { common := b.common, loc := b.digits.value } (lb.toNat == 8 && Config.freeBit s.draws))) := by
  unfold State.link
  split
  · rename_i h1
    simp [h1]
  · rename_i h1
    rw [Bool.not_eq_true] at h1
    split
    · rename_i h2
      simp only [Except.bind_ok, branchTarget_ok, branchLocation_ok]
      constructor
      · rintro ⟨loc, ⟨ha, rfl⟩, tg, ⟨hb, rfl⟩, h⟩
        by_cases h3 : 9999 < s.me.pc.next.loc
        · rw [if_pos h3] at h
          cases h
        · rw [if_neg h3] at h
          obtain ⟨hw, h⟩ := Except.check_ok.mp h
          cases h
          exact ⟨h1, .inr ⟨h2, ha, hb, by omega, State.checkWrite_ok.mp hw, rfl⟩⟩
      · rintro ⟨-, ⟨h, -⟩ | ⟨-, ha, hb, h3, hw, rfl⟩⟩
        · rw [h2] at h; cases h
        · refine ⟨_, ⟨ha, rfl⟩, _, ⟨hb, rfl⟩, ?_⟩
          rw [if_neg (by omega)]
          exact Except.check_ok.mpr ⟨State.checkWrite_ok.mpr hw, rfl⟩
    · rename_i h2
      rw [Bool.not_eq_true] at h2
      rw [Except.ok.injEq]
      constructor
      · rintro rfl
        exact ⟨h1, .inl ⟨h2, rfl⟩⟩
      · rintro ⟨-, ⟨-, rfl⟩ | ⟨h, -⟩⟩
        · rfl
        · rw [h2] at h; cases h

/-- All that Branch on Service Request can answer. -/
theorem State.serviceRequest_ok {s t : State} {lb : Numeric} {a b : BranchAddress} :
    s.serviceRequest lb a b = .ok t ↔
      (lb.toNat = 0 ∨ lb.toNat = 9) ∧
      ((s.me.srq = none ∧ t = s.advance) ∨
        ∃ d, s.me.srq = some d ∧ a.digits.decimal = true ∧ b.digits.decimal = true ∧
          s.CanWrite (s.place a.common a.digits.value) 1 ∧
          ∃ p, p = s.place a.common a.digits.value ∧
            t = ((s.setMem (s.mem.write p.key (mkChar (bit7 (s.mem.read p.key)) (bit5 (s.mem.read p.key)) d))
                ).modifyMe (fun h => { h with srq := none, poll := (d + 1) % 10 })).taken
              { common := b.common, loc := b.digits.value } false) := by
  unfold State.serviceRequest
  split
  · rename_i h1
    simp [h1]
  · rename_i h1
    rw [not_not] at h1
    cases hs : s.me.srq with
    | none =>
      simp only [Except.ok.injEq]
      constructor
      · rintro rfl
        exact ⟨h1, .inl ⟨trivial, rfl⟩⟩
      · rintro ⟨-, ⟨-, rfl⟩ | ⟨d, h, -⟩⟩
        · rfl
        · cases h
    | some d =>
      simp only [Except.bind_ok, branchTarget_ok, branchLocation_ok]
      constructor
      · rintro ⟨loc, ⟨ha, rfl⟩, tg, ⟨hb, rfl⟩, ⟨⟩, hw, h⟩
        cases h
        exact ⟨h1, .inr ⟨d, rfl, ha, hb, State.checkWrite_ok.mp hw, _, rfl, rfl⟩⟩
      · rintro ⟨-, ⟨h, -⟩ | ⟨d', hd, ha, hb, hw, p, rfl, rfl⟩⟩
        · cases h
        · cases hd
          exact ⟨_, ⟨ha, rfl⟩, _, ⟨hb, rfl⟩, (), State.checkWrite_ok.mpr hw, rfl⟩

/-! Read and Write. -/

/-- All that the decoding of Read and Write can answer. -/
theorem State.transferOf_ok {s : State} {device : Nat} {channel : Channel} {a b : Operand}
    {check : Place → Nat → Except FaultKind Unit} {t : Transfer} :
    s.transferOf device channel a b check = .ok t ↔
      (channel = .fac → facDevice device = true) ∧
      ∃ pa pb, s.effective a b = .ok (pa, pb) ∧
        ((channel = .fac ∧ s.isDisc device = true ∧ check pa 100 = .ok () ∧ s.CanRead pb 6 ∧
            t = { area := pa, count := 100, disc := some (s.field pb 6) }) ∨
          (¬ (channel = .fac ∧ s.isDisc device = true) ∧ check pa (countOf pb.loc) = .ok () ∧
            t = { area := pa, count := countOf pb.loc, disc := none })) := by
  unfold State.transferOf
  constructor
  · intro h
    by_cases h1 : (channel == Channel.fac && !facDevice device) = true
    · rw [if_pos h1] at h
      cases h
    · rw [if_neg h1] at h
      have h1' : channel = .fac → facDevice device = true := by
        intro hc
        subst hc
        simpa using h1
      refine ⟨h1', ?_⟩
      obtain ⟨⟨pa, pb⟩, he, h⟩ := Except.bind_ok.mp h
      refine ⟨pa, pb, he, ?_⟩
      simp only at h
      split at h
      · rename_i h2
        obtain ⟨hc, h⟩ := Except.check_ok.mp h
        obtain ⟨hr, h⟩ := Except.check_ok.mp h
        cases h
        exact .inl ⟨by simp_all, by simp_all, hc, State.checkRead_ok.mp hr, rfl⟩
      · rename_i h2
        obtain ⟨hc, h⟩ := Except.check_ok.mp h
        cases h
        exact .inr ⟨by simpa using h2, hc, rfl⟩
  · rintro ⟨h1, pa, pb, he, h⟩
    have h1' : ¬ (channel == Channel.fac && !facDevice device) = true := by
      intro hc
      simp only [Bool.and_eq_true, beq_iff_eq, Bool.not_eq_true'] at hc
      rw [h1 hc.1] at hc
      exact absurd hc.2 (by simp)
    rw [if_neg h1']
    refine Except.bind_ok.mpr ⟨(pa, pb), he, ?_⟩
    simp only
    rcases h with ⟨rfl, hd, hc, hr, rfl⟩ | ⟨hn, hc, rfl⟩
    · rw [if_pos (by simp [hd])]
      exact Except.check_ok.mpr ⟨hc, Except.check_ok.mpr ⟨State.checkRead_ok.mpr hr, rfl⟩⟩
    · rw [if_neg (by simpa using hn)]
      exact Except.check_ok.mpr ⟨hc, rfl⟩

@[simp] theorem State.onChannel_ioc (s : State) (direction : Direction) (device : Nat) (common : Bool)
    (t : Transfer) (transfer : State → State) :
    s.onChannel direction device .ioc common t transfer = s.issue direction device common t := rfl

@[simp] theorem State.onChannel_disc (s : State) (direction : Direction) (device : Nat) (common : Bool)
    (area : Place) (count : Nat) (address : List Character) (transfer : State → State) :
    s.onChannel direction device .fac common { area := area, count := count, disc := some address } transfer =
      s.discAttempt device (discAddress address).device transfer := rfl

@[simp] theorem State.onChannel_fac (s : State) (direction : Direction) (device : Nat) (common : Bool)
    (area : Place) (count : Nat) (transfer : State → State) :
    s.onChannel direction device .fac common { area := area, count := count, disc := none } transfer =
      transfer s := rfl

/-- All that Read can answer. -/
theorem execRead_next {device : Nat} {channel : Channel} {mode : FillMode} {a b : Operand} {s t : State} :
    execRead device channel mode a b s = .next t ↔
      ∃ r, s.transferOf device channel a b s.checkWrite = .ok r ∧
        t = s.onChannel (.read mode) device channel a.common r (fun u => u.facRead r) := by
  unfold execRead
  rw [State.outcome_next, Except.bind_ok]
  simp only [pure, Except.pure, Except.ok.injEq]
  constructor
  · rintro ⟨r, h, rfl⟩
    exact ⟨r, h, rfl⟩
  · rintro ⟨r, h, rfl⟩
    exact ⟨r, h, rfl⟩

/-- All that Write can answer. -/
theorem execWrite_next {device : Nat} {channel : Channel} {kind : WriteKind} {a b : Operand} {s t : State} :
    execWrite device channel kind a b s = .next t ↔
      ∃ r, s.transferOf device channel a b s.checkRead = .ok r ∧
        t = s.onChannel (.write kind) device channel a.common r (fun u => u.facWrite device kind r) := by
  unfold execWrite
  rw [State.outcome_next, Except.bind_ok]
  simp only [pure, Except.pure, Except.ok.injEq]
  constructor
  · rintro ⟨r, h, rfl⟩
    exact ⟨r, h, rfl⟩
  · rintro ⟨r, h, rfl⟩
    exact ⟨r, h, rfl⟩

/-- All that one attempt of a disc access can do. -/
theorem State.discAttempt_cases (s : State) (device unit : Nat) (transfer : State → State) :
    ((∃ q, s.boundTo device unit = some q ∧ q ≠ s.host) ∧
      s.discAttempt device unit transfer = s.switchPartition) ∨
    ((∀ q, s.boundTo device unit = some q → q = s.host) ∧ s.facAnswer.wait = true ∧
      s.discAttempt device unit transfer = (s.bindDisc device unit).switchPartition) ∨
    ((∀ q, s.boundTo device unit = some q → q = s.host) ∧ s.facAnswer.wait = false ∧
      s.discAttempt device unit transfer = (transfer (s.bindDisc device unit)).unbind device unit) := by
  unfold State.discAttempt
  cases hb : s.boundTo device unit with
  | none => cases hw : s.facAnswer.wait <;> simp
  | some q =>
    by_cases hq : q = s.host
    · cases hw : s.facAnswer.wait <;> simp [hq]
    · simp [hq]

/-! The step. -/

/-- All that the partition in control can do when it answers a next state. -/
theorem State.act_next {s t : State} :
    s.act = .next t ↔
      (s.me.waiting = true ∧ t = s.switchPartition) ∨
      (s.me.waiting = false ∧ s.finished = true ∧ t = s.resume.switchPartition) ∨
      (s.me.waiting = false ∧ s.finished = false ∧
        ∃ i, s.resume.fetch = .ok i ∧ exec i s.resume = .next t) := by
  unfold State.act State.proceed State.runInstruction
  cases h1 : s.me.waiting <;> cases h2 : s.finished <;> simp [h2, eq_comm]
  cases hf : s.resume.fetch <;> simp [State.raise, eq_comm]

/-- A step is the boundary and what the partition in control does after it. -/
theorem step_next {s t : State} :
    step s = .next t ↔
      (s.boundary.me.waiting = true ∧ t = s.boundary.switchPartition) ∨
      (s.boundary.me.waiting = false ∧ s.boundary.finished = true ∧ t = s.boundary.resume.switchPartition) ∨
      (s.boundary.me.waiting = false ∧ s.boundary.finished = false ∧
        ∃ i, s.boundary.resume.fetch = .ok i ∧ exec i s.boundary.resume = .next t) :=
  State.act_next

/-- All that a fetch can answer. -/
theorem State.fetch_ok {s : State} {i : Instr} :
    s.fetch = .ok i ↔
      s.me.pc.loc % 10 = 0 ∧ s.CanRead s.fetchPlace 10 ∧
        decode s.inst.layout (s.field s.fetchPlace 10) = .ok i := by
  unfold State.fetch State.checkFetch
  by_cases h1 : s.me.pc.loc % 10 = 0
  · rw [if_neg (by simpa using h1)]
    rw [Except.check_ok]
    simp only [State.checkRead_ok, h1]
    cases hd : decode s.inst.layout (s.field s.fetchPlace 10) with
    | error e => simp [throw, throwThe, MonadExceptOf.throw]
    | ok j => simp [pure, Except.pure]
  · rw [if_pos h1]
    simp [h1, bind, Except.bind]

/-! The boundary. -/

@[simp] theorem IocOperation.step_left (o : IocOperation) : o.step.left = o.left - 1 := rfl
@[simp] theorem IocOperation.step_next (o : IocOperation) : o.step.next = o.next + 1 := rfl
@[simp] theorem IocOperation.step_done (o : IocOperation) : o.step.done = o.done := rfl
@[simp] theorem IocOperation.step_direction (o : IocOperation) : o.step.direction = o.direction := rfl
@[simp] theorem IocOperation.step_common (o : IocOperation) : o.step.common = o.common := rfl
@[simp] theorem IocOperation.step_device (o : IocOperation) : o.step.device = o.device := rfl
@[simp] theorem IocOperation.step_first (o : IocOperation) : o.step.first = o.first := rfl
@[simp] theorem IocOperation.step_total (o : IocOperation) : o.step.total = o.total := rfl

/-- All that the service of one IOC can do. -/
theorem State.service_cases (s : State) (q : Nat) :
    s.service q = s ∨
      ∃ o x, (s.part q).io = some o ∧ (s.part q).signal = some x ∧ o.done = none ∧
        ((∃ mode, o.direction = .read mode ∧ s.service q = s.serviceRead q mode o x) ∨
          (∃ kind, o.direction = .write kind ∧ s.service q = s.serviceWrite q kind o x)) := by
  unfold State.service
  cases ho : (s.part q).io with
  | none => simp
  | some o =>
    cases hx : (s.part q).signal with
    | none => simp
    | some x =>
      cases hd : o.done with
      | some d => simp [hd]
      | none =>
        cases hdir : o.direction with
        | read mode => right; exact ⟨o, x, rfl, rfl, hd, .inl ⟨mode, hdir, by simp [hd, hdir]⟩⟩
        | write kind => right; exact ⟨o, x, rfl, rfl, hd, .inr ⟨kind, hdir, by simp [hd, hdir]⟩⟩

end Sys2Proof.Machine
end

