-- ==== Sys2Proof/Laws/PerInstr.lean ====
section
/-! SUPPORT. Statements made for each instruction: an encoded instruction has ten characters, every bit-5 ON
(30_encoding.md R100, R121). -/

namespace Sys2Proof.Laws.EncodesTen

open Sys2Proof Sys2Proof.Machine

/-- The encoder writes ten characters, every bit-5 ON, under every layout. -/
def Statement (i : Instr) : Prop :=
  ∀ lay, (encode lay i).length = 10 ∧ (encode lay i).all bit5 = true

theorem bit5_character (z7 z5 : Bool) (n : Numeric) : bit5 (character z7 z5 n) = z5 := by
  cases z7 <;> cases z5 <;> (revert n; decide)

/-- The characters of any fields. -/
theorem of_fields (i : Instr) : Statement i := fun lay =>
  ⟨rfl, by simp [encode, charactersOf, bit5_character]⟩

theorem read (device : Nat) (channel : Channel) (mode : FillMode) (a b : Operand) : Statement (.read device channel mode a b) := of_fields _
theorem write (device : Nat) (channel : Channel) (kind : WriteKind) (a b : Operand) : Statement (.write device channel kind a b) := of_fields _
theorem unassigned2 : Statement .unassigned2 := of_fields _
theorem unassigned3 : Statement .unassigned3 := of_fields _
theorem add (la lb : Nat) (a b : Operand) : Statement (.add la lb a b) := of_fields _
theorem divide (la lb : Nat) (a b : Operand) : Statement (.divide la lb a b) := of_fields _
theorem multiply (la lb : Nat) (a b : Operand) : Statement (.multiply la lb a b) := of_fields _
theorem subtract (la lb : Nat) (a b : Operand) : Statement (.subtract la lb a b) := of_fields _
theorem moveCharacter (la lb : Nat) (a b : Operand) : Statement (.moveCharacter la lb a b) := of_fields _
theorem moveNumeric (la lb : Nat) (a b : Operand) : Statement (.moveNumeric la lb a b) := of_fields _
theorem unassigned10 : Statement .unassigned10 := of_fields _
theorem branch0 (lb : Numeric) (a b : BranchAddress) : Statement (.branch0 lb a b) := of_fields _
theorem branch1 (lb : Numeric) (a b : BranchAddress) : Statement (.branch1 lb a b) := of_fields _
theorem branch2 (lb : Numeric) (a b : BranchAddress) : Statement (.branch2 lb a b) := of_fields _
theorem branch3 (lb : Numeric) (a b : BranchAddress) : Statement (.branch3 lb a b) := of_fields _
theorem branch4 (lb : Numeric) (a b : BranchAddress) : Statement (.branch4 lb a b) := of_fields _
theorem branch5 (lb : Numeric) (a b : BranchAddress) : Statement (.branch5 lb a b) := of_fields _
theorem link (lb : Numeric) (a b : BranchAddress) : Statement (.link lb a b) := of_fields _
theorem serviceRequest (lb : Numeric) (a b : BranchAddress) : Statement (.serviceRequest lb a b) := of_fields _
theorem branch8 (lb : Numeric) (a b : BranchAddress) : Statement (.branch8 lb a b) := of_fields _
theorem branch9 (lb : Numeric) (a b : BranchAddress) : Statement (.branch9 lb a b) := of_fields _
theorem edit (la lb : Nat) (a b : Operand) : Statement (.edit la lb a b) := of_fields _
theorem formNumeric (la lb : Nat) (a b : Operand) : Statement (.formNumeric la lb a b) := of_fields _
theorem compare (la lb : Nat) (a b : Operand) : Statement (.compare la lb a b) := of_fields _
theorem exchange (la lb : Nat) (a b : Operand) : Statement (.exchange la lb a b) := of_fields _

end Sys2Proof.Laws.EncodesTen
end

