-- ==== Sys2Proof/Tests/Slice0.lean ====
section
/-! SUPPORT. Tests. The expected results are the spec's own (95_test_vectors.md, by vector number, and the worked
examples of the rules), not the model's. -/

namespace Sys2Proof.Tests

set_option Elab.async false

open Sys2Proof Sys2Proof.Machine

/-- The characters of a text by their graphics (10_state.md R21). -/
def text (t : String) : List Character := t.toList.map (fun c => BitVec.ofNat 6 (c.toNat - 32))

/-- The instruction that ten characters decode to, default layout. -/
def reads (t : String) : Except DecodeError Instr := decode ZoneLayout.default (text t)

/-- An operand without an index register. -/
def at' (addr : Nat) : Operand := { common := false, addr := addr, index := .unindexed }

/-- A Branch address in the partition from its digits. -/
def dest (d3 d2 d1 d0 : Numeric) : BranchAddress :=
  { common := false, digits := { d3 := d3, d2 := d2, d1 := d1, d0 := d0 } }

/-! The well-formedness checks refuse ill-formed terms. -/

theorem test_wf_rejects_la : (Instr.add 10 1 (at' 100) (at' 200)).wf = false := by decide
theorem test_wf_rejects_lb : (Instr.compare 1 10 (at' 100) (at' 200)).wf = false := by decide
theorem test_wf_rejects_a_address : (Instr.edit 0 9 (at' 10000) (at' 200)).wf = false := by decide
theorem test_wf_rejects_b_address : (Instr.exchange 0 9 (at' 100) (at' 10000)).wf = false := by decide
theorem test_wf_rejects_read_device : (Instr.read 10 .ioc .fill (at' 0) (at' 0)).wf = false := by decide
theorem test_wf_rejects_write_device : (Instr.write 10 .ioc .plain (at' 0) (at' 0)).wf = false := by decide
theorem test_wf_rejects_read_address : (Instr.read 1 .ioc .fill (at' 10000) (at' 0)).wf = false := by decide
theorem test_wf_rejects_write_address : (Instr.write 1 .ioc .plain (at' 0) (at' 10000)).wf = false := by
  decide
theorem test_layout_rejects_shared_character :
    ¬ ({ ia1 := 5, ia0 := 5, ib1 := 7, ib0 := 8, bc := 9 } : ZoneLayout).Legal := by decide
theorem test_layout_default_legal : ZoneLayout.default.Legal := by decide

/-! Decoding (95_test_vectors.md section 2.1; 30_encoding.md R121, R122). -/

theorem test_decode_add : reads "3P10050200" = .ok (.add 3 5 (at' 100) (at' 200)) := by rfl
theorem test_decode_add_indexed_common : reads "3P10050T2P" =
    .ok (.add 3 5 (at' 100) { common := true, addr := 420, index := .two }) := by rfl
theorem test_decode_add_both_indexed : reads "1P1003PR00" =
    .ok (.add 1 3 { common := false, addr := 100, index := .one }
      { common := false, addr := 200, index := .two }) := by rfl
theorem test_decode_subtract : reads "3PQP050200" = .ok (.subtract 3 5 (at' 100) (at' 200)) := by rfl
theorem test_decode_multiply : reads "2PQ0020200" = .ok (.multiply 2 2 (at' 100) (at' 200)) := by rfl
theorem test_decode_divide : reads "2P1P020200" = .ok (.divide 2 2 (at' 100) (at' 200)) := by rfl
theorem test_decode_compare : reads "PPQ0030200" = .ok (.compare 0 3 (at' 100) (at' 200)) := by rfl
theorem test_decode_edit : reads "PP10090200" = .ok (.edit 0 9 (at' 100) (at' 200)) := by rfl
theorem test_decode_exchange : reads "PPQP030200" = .ok (.exchange 0 3 (at' 100) (at' 200)) := by rfl
theorem test_decode_form_numeric : reads "PP1P070200" = .ok (.formNumeric 0 7 (at' 100) (at' 200)) := by rfl
theorem test_decode_move_character : reads "P010050200" = .ok (.moveCharacter 0 5 (at' 100) (at' 200)) := by
  rfl
theorem test_decode_move_numeric : reads "P01P030200" = .ok (.moveNumeric 0 3 (at' 100) (at' 200)) := by rfl
theorem test_decode_read : reads "1050010080" = .ok (.read 1 .ioc .fill (at' 500) (at' 80)) := by rfl
theorem test_decode_read_nonfill : reads "1050090005" = .ok (.read 1 .ioc .nonfill (at' 500) (at' 5)) := by rfl
theorem test_decode_write : reads "206P010012" = .ok (.write 2 .ioc .plain (at' 600) (at' 12)) := by rfl
theorem test_decode_write_control : reads "206P030001" = .ok (.write 2 .ioc .control (at' 600) (at' 1)) := by
  rfl
theorem test_decode_branch0 : reads "P0PP000000" = .ok (.branch0 0 (dest 0 0 0 0) (dest 0 0 0 0)) := by rfl
theorem test_decode_branch1 : reads "Q0RP050300" = .ok (.branch1 5 (dest 0 2 0 0) (dest 0 3 0 0)) := by rfl
theorem test_decode_branch2 : reads "R0RP040300" = .ok (.branch2 4 (dest 0 2 0 0) (dest 0 3 0 0)) := by rfl
theorem test_decode_branch3 : reads "S0RP000300" = .ok (.branch3 0 (dest 0 2 0 0) (dest 0 3 0 0)) := by rfl
theorem test_decode_branch4 : reads "T0RP000300" = .ok (.branch4 0 (dest 0 2 0 0) (dest 0 3 0 0)) := by rfl
theorem test_decode_branch5 : reads "U0UP000000" = .ok (.branch5 0 (dest 0 5 0 0) (dest 0 0 0 0)) := by rfl
theorem test_decode_link : reads "V0RU150400" = .ok (.link 5 (dest 0 2 5 1) (dest 0 4 0 0)) := by rfl
theorem test_decode_service_request : reads "W0VP000300" =
    .ok (.serviceRequest 0 (dest 0 6 0 0) (dest 0 3 0 0)) := by rfl
theorem test_decode_branch8 : reads "X0QQ000000" = .ok (.branch8 0 (dest 0 1 1 0) (dest 0 0 0 0)) := by rfl
theorem test_decode_branch9 : reads "Y0PP000000" = .ok (.branch9 0 (dest 0 0 0 0) (dest 0 0 0 0)) := by rfl
theorem test_decode_unassigned2 : reads "00P0000000" = .ok .unassigned2 := by rfl
theorem test_decode_unassigned3 : reads "00PP000000" = .ok .unassigned3 := by rfl
theorem test_decode_unassigned10 : reads "P0P0000000" = .ok .unassigned10 := by rfl
/-- V-E16: bit-5 is ignored. -/
theorem test_decode_ignores_bit5 : reads "3@10050200" = reads "3P10050200" := by rfl
/-- V-E18. -/
theorem test_decode_reserved_la : reads ":P10050200" = .error (.reservedEncoding .la) := by rfl
/-- V-E19. -/
theorem test_decode_reserved_digit : reads "3P1:050200" = .error (.reservedEncoding .aAddress) := by rfl
/-- V-R3. -/
theorem test_decode_reserved_read_bits : reads "1050050005" = .error (.reservedEncoding .lb) := by rfl
/-- V-W2. -/
theorem test_decode_reserved_write_bits : reads "206P040001" = .error (.reservedEncoding .lb) := by rfl
/-- V-E1, V-E13 as the numbers of spec/opcode_table.json. -/
theorem test_table_word_add : decodeTableWord 64 0x4F0450415412410 =
    some (.add 3 5 (at' 100) (at' 200)) := by rfl
theorem test_table_word_link : decodeTableWord 64 0xD90CB5455414410 =
    some (.link 5 (dest 0 2 5 1) (dest 0 4 0 0)) := by rfl
theorem test_encode_add : encode ZoneLayout.default
    (.add 3 5 (at' 100) { common := true, addr := 420, index := .two }) = text "3P10050T2P" := by rfl

/-! One instruction on a bench: the instruction at partition location 9000, quiet devices. -/

/-- The reset machine about to run at partition location 9000, with a quiet boundary before the instruction. -/
def bench : State :=
  { State.reset.goto { common := false, loc := 9000 } with inputs := [BoundaryInput.quiet] }

/-- A text stored in the partition or in Common. -/
def put (s : State) (common : Bool) (loc : Nat) (t : String) : State :=
  s.setMem (s.stored (s.place common loc) (text t))

/-- The state after the step that runs an instruction passes a check. -/
def passes (s : State) (instruction : String) (check : State → Bool) : Bool :=
  match step (put s false 9000 instruction) with
  | .next t => check t
  | .fault _ => false
  | .refused _ => false

/-- The code of the fault that the step raises, 0 if none. -/
def faultCode (s : State) (instruction : String) : Nat :=
  match step (put s false 9000 instruction) with
  | .next _ => 0
  | .fault f => f.code
  | .refused _ => 0

/-- A text stands in the partition or in Common. -/
def stands (s : State) (common : Bool) (loc : Nat) (t : String) : Bool :=
  s.field (s.place common loc) t.length == text t

/-- A text stands there and the Condition Code is this one. -/
def leaves (common : Bool) (loc : Nat) (t : String) (cc : ConditionCode) (s : State) : Bool :=
  stands s common loc t && s.me.cc == cc

/-- Operand-A at 100 and Operand-B at 200 of the partition. -/
def operands (a b : String) : State := put (put bench false 100 a) false 200 b

/-- V-A4. -/
theorem test_add_unlike_signs : passes (operands "5" "1R") "1P10020200"
    (leaves false 200 "0W" (.only .one)) = true := by decide +kernel
/-- V-A8. -/
theorem test_add_negative_overflow : passes (operands "Y" "Y") "1P10010200"
    (leaves false 200 "X" (.only .four)) = true := by decide +kernel
/-- V-S4. -/
theorem test_subtract_borrow : passes (operands "25" "100") "2PQP030200"
    (leaves false 200 "075" (.only .three)) = true := by decide +kernel
/-- V-S6. -/
theorem test_subtract_overflow : passes (operands "50" "7P") "2PQP020200"
    (leaves false 200 "2P" (.only .four)) = true := by decide +kernel
/-- V-M2. -/
theorem test_multiply_unlike_signs : passes (operands "1R" "34??") "2PQ0020200"
    (leaves false 200 "040X" (.only .one)) = true := by decide +kernel
/-- V-M4. -/
theorem test_multiply_minus_zero : passes (operands "P" "5?") "1PQ0010200"
    (leaves false 200 "0P" (.only .two)) = true := by decide +kernel
/-- V-D10. -/
theorem test_divide_keeps_remainder_zone : passes (operands "25" "0 7") "2P1P010200"
    (leaves false 200 "0 7" (.only .two)) = true := by decide +kernel
/-- V-D3. -/
theorem test_divide_signs : passes (operands "2" "0W") "1P1P010200"
    (leaves false 200 "SQ" (.only .one)) = true := by decide +kernel
/-- V-C6. -/
theorem test_compare_negative_digit : passes (operands "12S" "123") "PPQ0030200"
    (leaves false 200 "123" .greater) = true := by decide +kernel
/-- V-C3. -/
theorem test_compare_first_difference : passes (operands "AZZ" "BAA") "PPQ0030200"
    (leaves false 100 "AZZ" (.only .one)) = true := by decide +kernel
/-- V-ED4. -/
theorem test_edit_suppresses : passes (operands "000S" "@ @,  0-#") "PP10040200"
    (leaves false 200 "      3-#" (.only .one)) = true := by decide +kernel
/-- The source's example of check protection (S4). -/
theorem test_edit_check_protection : passes (operands "0000001234" "**,***,***.00-") "QP10000200"
    (leaves false 200 "********12.34 " (.only .three)) = true := by decide +kernel
/-- V-F1. -/
theorem test_form_numeric_hyphen : passes (operands "$1,234.56-" "???????") "PP1P070200"
    (leaves false 200 "012345V" (.only .one)) = true := by decide +kernel
/-- V-F4. -/
theorem test_form_numeric_overflow : passes (operands "1234" "???") "TP1P030200"
    (leaves false 200 "234" (.only .four)) = true := by decide +kernel
/-- V-X2: an overlapped exchange rotates. -/
theorem test_exchange_rotates : passes (put bench false 100 "ABCD") "PPQP030101"
    (leaves false 100 "BCDA" (.only .two)) = true := by decide +kernel
/-- V-X5: with Common. -/
theorem test_exchange_common : passes (put (put bench false 100 "Q") true 400 "Z") "PPQP01040P"
    (fun t => stands t false 100 "Z" && stands t true 400 "Q") = true := by decide +kernel
/-- V-MC3. -/
theorem test_move_character_propagates : passes (put bench false 100 "*ABCD") "P010040101"
    (leaves false 100 "*****" (.only .two)) = true := by decide +kernel
/-- V-MC2. -/
theorem test_move_character_shifts : passes (put bench false 100 "XABCD") "P010140100"
    (leaves false 100 "ABCDD" (.only .two)) = true := by decide +kernel
/-- V-MN1. -/
theorem test_move_numeric_keeps_zone : passes (operands "123" "XYZ") "P01P030200"
    (leaves false 200 "QRS" (.only .two)) = true := by decide +kernel
/-- V-MN6. -/
theorem test_move_numeric_propagates : passes (put bench false 100 "7ABC") "P01P030101"
    (leaves false 100 "7GGG" (.only .two)) = true := by decide +kernel
/-- V-I1: both operands indexed. -/
theorem test_indexing : passes
    (put (put (put (put bench false 11 "0005") false 21 "0100") false 105 "4") false 300 "017")
    "1P1003PR00" (leaves false 300 "021" (.only .three)) = true := by decide +kernel

/-- The bench with a Condition Code. -/
def withCC (cc : ConditionCode) : State := bench.setCC cc

/-- P of the host partition. -/
def goesTo (common : Bool) (loc : Nat) (s : State) : Bool := s.me.pc == { common := common, loc := loc }

/-- V-B2. -/
theorem test_branch0_no_operation : passes bench "P0PP000000" (goesTo false 9010) = true := by
  decide +kernel
/-- V-B6: LB is not examined when the left half branches. -/
theorem test_branch1_left_half : passes (withCC (.only .one)) "Q0RP060300" (goesTo false 200) = true := by
  decide +kernel
/-- V-B7. -/
theorem test_branch1_reserved_lb : faultCode (withCC (.only .two)) "Q0RP060300" = 2 := by decide +kernel
/-- V-B3. -/
theorem test_branch2_first : passes (withCC .equal) "R0RP040300" (goesTo false 200) = true := by
  decide +kernel
/-- V-B4. -/
theorem test_branch2_second : passes (withCC .greater) "R0RP040300" (goesTo false 300) = true := by
  decide +kernel
theorem test_branch3 : passes (withCC .greater) "S0RP000300" (goesTo false 200) = true := by decide +kernel
theorem test_branch4 : passes (withCC .equal) "T0RP000300" (goesTo false 200) = true := by decide +kernel
/-- V-B8 for the right half in Common. -/
theorem test_branch_to_common : passes (withCC (.only .three)) "Q0RP05030P" (goesTo true 300) = true := by
  decide +kernel
/-- V-B14: the branch itself does not check alignment. -/
theorem test_branch5_misaligned_target : passes bench "U0RP500000" (goesTo false 205) = true := by
  decide +kernel
theorem test_branch9_no_operation : passes bench "Y0PP000000" (goesTo false 9010) = true := by
  decide +kernel
/-- V-B9. -/
theorem test_link : passes (put bench false 250 "U0PP000000") "V0RU150400"
    (fun t => goesTo false 400 t && stands t false 250 "U9PQ000000") = true := by decide +kernel
/-- V-B12. -/
theorem test_link_protected : faultCode bench "V0QPQ50400" = 4 := by decide +kernel
/-- V-B16. -/
theorem test_service_request : passes
    (put (bench.modifyMe (fun h => { h with srq := some 4 })) false 600 "A") "W0VP000300"
    (fun t => goesTo false 300 t && stands t false 600 "D" && t.me.srq == none && t.me.poll == 5) = true := by
  decide +kernel
/-- V-B18. -/
theorem test_service_request_reserved_lb : faultCode bench "W0VP030300" = 2 := by decide +kernel

/-- A bench of two partitions. -/
def twoPartitions : State := { bench with parts := bench.parts ++ [Partition.reset] }

/-- The table word of a Move Character runs as the first instruction after reset; the boundary before it is quiet. -/
theorem test_fetch_word : (match step (State.reset.withFetchWord 64 0xC10450415412410) with
    | .next t => t.me.cc == .only .two && t.me.pc == { common := false, loc := 10 } && t.inputs == []
    | .fault _ => false
    | .refused _ => false) = true := by decide +kernel
/-- V-B13: variant 8 passes control to the next partition, P at the branch address. -/
theorem test_branch8_switches : passes twoPartitions "X0QQ000000"
    (fun t => t.host == 1 && (t.part 0).pc == { common := false, loc := 110 }) = true := by decide +kernel
/-- 41_branch.md R177: after more than 37.5 milliseconds a taken branch switches. -/
theorem test_branch5_time_slice : passes { twoPartitions with timer := 3750001 } "U0UP000000"
    (fun t => t.host == 1 && (t.part 0).pc == { common := false, loc := 500 } && t.timer == 0) = true := by
  decide +kernel
/-- 60_exceptions.md R375: the time may have passed before the first instruction of a run. -/
theorem test_first_branch_may_switch : passes
    { twoPartitions with inputs := [{ BoundaryInput.quiet with elapsed := 3750001 }] } "U0UP000000"
    (fun t => t.host == 1) = true := by decide +kernel
/-- 70_reset_and_hazards.md R401: a request is latched at the boundary before the first instruction of a run. -/
theorem test_first_boundary_latches : passes
    { bench with inputs := [{ BoundaryInput.quiet with early := [.request 0 [4]] }] } "W0VP000300"
    (fun t => goesTo false 300 t && stands t false 600 "$") = true := by decide +kernel
/-- 60_exceptions.md R386: a finished partition executes nothing and is passed over. -/
theorem test_finished_passes_on : passes
    { twoPartitions with parts := twoPartitions.parts.map (fun p =>
      { p with setting := { p.setting with stop := [⟨false, 9000⟩] } }) } "00P0000000"
    (fun t => t.host == 1 && (t.part 0).pc == { common := false, loc := 9000 }) = true := by decide +kernel

/-! Read and Write. -/

/-- A boundary with these acts of devices. -/
def device (events : List DeviceEvent) : BoundaryInput := { BoundaryInput.quiet with early := events }

/-- A boundary after which the FAC answers so. -/
def answering (a : FacAnswer) : BoundaryInput := { BoundaryInput.quiet with fac := some a }

/-- The state after k steps passes a check. -/
def passesAfter (k : Nat) (s : State) (check : State → Bool) : Bool :=
  match Host.Core.run core k s with
  | .next t => check t
  | .fault _ => false
  | .refused _ => false

/-- V-R1: a Unit Separator ends a Read in fill mode; the last step resumes the partition, at a no-operation. -/
theorem test_read_ioc_fill : passesAfter 4
    { put (put bench false 9000 "1050010005Y0PP000000") false 500 "VWXYZ" with
      inputs := [.quiet, device [.signal 0 (.character 33 .normal)], device [.signal 0 (.character 34 .normal)],
        device [.signal 0 (.unitSeparator .normal)]] }
    (leaves false 500 "AB   " (.only .two)) = true := by decide +kernel
/-- V-R4. -/
theorem test_read_unknown_device : faultCode bench "5050000005" = 8 := by decide +kernel
/-- V-R5. -/
theorem test_read_protected : faultCode bench "1010P10005" = 4 := by decide +kernel
/-- V-R6: count 0000 is 10,000. -/
theorem test_read_count_zero : faultCode bench "1050010000" = 3 := by decide +kernel
/-- A disc Read (49_read_write.md R329): 100 characters, one flag, the disc free again. -/
theorem test_read_disc : passes
    { bench with inputs := [answering { wait := false, delivered := text "RECORD", taken := 0, outcome := .normal }] }
    "0100000050" (fun t => stands t false 1000 "RECORD" && t.me.cc == .only .two && t.bound == [] &&
      t.host == 0) = true := by decide +kernel
/-- A disc that must seek (49_read_write.md R329): bound, P unchanged. -/
theorem test_read_disc_waits : passes
    { bench with inputs := [answering { wait := true, delivered := [], taken := 0, outcome := .normal }] }
    "0100000050" (fun t => goesTo false 9000 t && t.bound == [⟨0, 0, 0⟩]) = true := by decide +kernel
/-- V-W1 with the ready signal at the boundary after the issue. -/
theorem test_write_ioc_control : passesAfter 2
    { put (put bench false 9000 "206P030001") false 600 "M" with
      inputs := [.quiet, device [.signal 0 (.ready .normal)]] }
    (fun t => t.outputs == [OutputEvent.ioc 0 2 .control 45] && t.me.waiting) = true := by decide +kernel
/-- A Write through the FAC that the device stops after two characters (49_read_write.md R328). -/
theorem test_write_fac_stopped : passes
    { put bench false 1000 "ABC" with
      inputs := [answering { wait := false, delivered := [], taken := 2, outcome := .flag }] } "410P000003"
    (fun t => t.outputs == [.fac 4 .plain 33, .fac 4 .plain 34] && t.me.cc == .only .three) = true := by
  decide +kernel

/-! Faults. -/

theorem test_unassigned2 : faultCode bench "00P0000000" = 1 := by decide +kernel
theorem test_unassigned3 : faultCode bench "00PP000000" = 1 := by decide +kernel
theorem test_unassigned10 : faultCode bench "P0P0000000" = 1 := by decide +kernel
/-- V-I2. -/
theorem test_non_decimal_index : faultCode (put bench false 11 "0:00") "1P1003PR00" = 7 := by decide +kernel
/-- V-I3. -/
theorem test_address_sum : faultCode (put bench false 11 "1000") "1Y0001P200" = 3 := by decide +kernel
/-- V-I4. -/
theorem test_protected_store : faultCode bench "1P1001010P" = 4 := by decide +kernel
/-- V-I8. -/
theorem test_misaligned_fetch : faultCode (bench.goto { common := false, loc := 205 }) "3P10050200" = 6 := by
  decide +kernel
theorem test_privileged_access :
    faultCode { bench with inst := { bench.inst with privBase := some 500 } } "1P1001050P" = 5 := by
  decide +kernel

/-! Execution times (70_reset_and_hazards.md R432) and external codes (49_read_write.md R336). -/

theorem test_time_add : executionTime (.add 3 5 (at' 100) (at' 200)) (operands "123" "00456") =
    some 10210 := by decide +kernel
theorem test_time_multiply : executionTime (.multiply 2 2 (at' 100) (at' 200)) (operands "12" "34") =
    some 30654 := by decide +kernel
/-- The rows `B 5,0` and `B 0,0` of R432, and Address-B of R422. -/
theorem test_time_branch :
    [(5, 0), (0, 0), (1, 5)].map (fun d => branchTime .greater d.1 d.2) = [2780, 3780, 4440] := by decide
theorem test_external_carriage_return : externalCode .control 45 = 13 := by decide
theorem test_external_plain_letter : externalCode .plain 33 = 65 := by decide

/-! Witnesses: for every statement with hypotheses, a state and operands that meet them all, clause by clause. -/

/-- A place in partition 0. -/
def spot (loc : Nat) : Place := { space := .part 0, loc := loc }

/-- A place in Common. -/
def commonSpot (loc : Nat) : Place := { space := .common, loc := loc }

/-- An operand in Common. -/
def inCommon (addr : Nat) : Operand := { common := true, addr := addr, index := .unindexed }

/-- The outcome is a next state. -/
def isNext (x : Host.Outcome State Fault Refusal) : Bool :=
  match x with
  | .next _ => true
  | .fault _ => false
  | .refused _ => false

theorem next_of_isNext {x : Host.Outcome State Fault Refusal} (h : isNext x = true) : ∃ t, x = .next t := by
  cases x with
  | next t => exact ⟨t, rfl⟩
  | fault f => cases h
  | refused r => cases h

theorem witness_DecodeOfEncode : ZoneLayout.default.Legal ∧
    (Instr.edit 9 0 (at' 9999) { common := true, addr := 0, index := .three }).wf = true := by decide
theorem witness_EncodeOfDecode : reads "3P10050T2P" =
    .ok (.add 3 5 (at' 100) { common := true, addr := 420, index := .two }) ∧
    (Instr.add 3 5 (at' 100) { common := true, addr := 420, index := .two }).fields.f ∉ [2, 3, 10, 11] ∧
    reads "V0RU150400" = .ok (.link 5 (dest 0 2 5 1) (dest 0 4 0 0)) ∧
    (Instr.link 5 (dest 0 2 5 1) (dest 0 4 0 0)).fields.f = 11 :=
  ⟨rfl, by decide, rfl, by decide⟩
theorem witness_DecodedIsWellFormed : reads "9Y9990000P" = .ok (.add 9 0 (at' 9999) (inCommon 0)) := by rfl
theorem witness_DecodeIgnoresBit5 : (text "3@10050200").map (fun c => (bit7 c, numeric c)) =
    (text "3P10050200").map (fun c => (bit7 c, numeric c)) := by decide
theorem witness_DecodedOperationCode :
    (2 = 8 * (bit7 16).toNat + 4 * (bit7 16).toNat + 2 * (bit7 48).toNat + (bit7 16).toNat) ∧
    (3 = 8 * (bit7 16).toNat + 4 * (bit7 16).toNat + 2 * (bit7 48).toNat + (bit7 48).toNat) ∧
    (10 = 8 * (bit7 48).toNat + 4 * (bit7 16).toNat + 2 * (bit7 48).toNat + (bit7 16).toNat) := by decide

/-- The bench with an instruction at P, when the step is about to fetch. -/
def loaded (instruction : String) : State := (put bench false 9000 instruction).boundary.resume

/-- Nothing to wait for: no operation is in progress. -/
theorem idle_of_no_operation {s : State} (h : s.me.io = none) : ∀ o, s.me.io = some o → o.done ≠ none :=
  fun o ho => by rw [h] at ho; cases ho

theorem witness_StepRunsDecodedInstruction :
    (∀ o, (put bench false 9000 "U0PP000000").boundary.me.io = some o → o.done ≠ none) ∧ (loaded "U0PP000000").me.pc ∉ (loaded "U0PP000000").me.setting.stop ∧
    (loaded "U0PP000000").me.pc.loc % 10 = 0 ∧ (loaded "U0PP000000").CanRead (spot 9000) 10 ∧
    decode (loaded "U0PP000000").inst.layout ((loaded "U0PP000000").field (spot 9000) 10) =
      .ok (.branch5 0 (dest 0 0 0 0) (dest 0 0 0 0)) :=
  ⟨idle_of_no_operation (by decide +kernel), by decide +kernel, by decide +kernel, by decide +kernel, rfl⟩

theorem bench_part (q : Nat) : bench.part q =
    if q = 0 then { Partition.reset with pc := { common := false, loc := 9000 } } else Partition.absent := by
  cases q <;> rfl

/-- A legal state that is not the reset state. -/
theorem legal_bench : bench.Legal := by
  refine ⟨⟨by decide, by decide, by decide, by decide, by decide, by decide, by decide, by decide,
    (fun _ h => by cases h), by decide, by decide⟩, rfl, (fun _ h => by cases h), by decide, fun q hq => ?_,
    (fun _ h => by cases h)⟩
  have h0 : q = 0 := by
    have : q < 1 := hq
    omega
  rw [bench_part, if_pos h0]
  exact ⟨by decide, by decide, (fun _ h => by cases h), (fun _ h => by cases h)⟩

theorem witness_StepKeepsLegal : bench.Legal ∧ ∃ t, step bench = .next t :=
  ⟨legal_bench, next_of_isNext (by decide +kernel)⟩
theorem witness_ProtectedAreaNeverChanges : bench.Legal ∧ (∃ t, step bench = .next t) ∧ 299 < 300 :=
  ⟨legal_bench, next_of_isNext (by decide +kernel), by decide⟩
theorem witness_InstallationNeverChanges : ∃ t, step bench = .next t := next_of_isNext (by decide +kernel)
theorem witness_OtherConditionCodesKept : (∃ t, step twoPartitions = .next t) ∧ 1 ≠ twoPartitions.host :=
  ⟨next_of_isNext (by decide +kernel), by decide⟩
theorem witness_InstructionLeavesOtherPartitions :
    (∃ t, exec (.exchange 0 1 (at' 100) (inCommon 300)) twoPartitions = .next t) ∧ 1 ≠ twoPartitions.host :=
  ⟨next_of_isNext (by decide +kernel), by decide⟩

/-- Two partitions, with an A at location 0 of the other one. -/
def otherWritten : State := twoPartitions.setMem (twoPartitions.mem.write (Space.key (.part 1) 0) 33)

theorem witness_InstructionLearnsNothingOfOthers :
    twoPartitions.Formed ∧ 1 ≠ twoPartitions.host ∧ SameBut 1 twoPartitions otherWritten := by
  refine ⟨by decide +kernel, by decide, by decide +kernel, rfl, fun sp loc hsp hloc => ?_⟩
  refine Memory.read_write_ne _ _ fun hk => hsp ?_
  exact (Space.key_inj (by omega) (by decide) hk).1

theorem witness_ControlStays : (∃ t, exec (.compare 0 1 (at' 0) (at' 0)) bench = .next t) ∧
    (Instr.compare 0 1 (at' 0) (at' 0)).fields.f ∉ [0, 1, 11] :=
  ⟨next_of_isNext (by decide +kernel), by decide⟩
theorem witness_ConditionCodeSettings : bench.host < bench.parts.length ∧
    (∃ t, exec (.add 1 1 (at' 0) (at' 1)) bench = .next t) ∧
    (∃ t, exec (.moveCharacter 0 0 (at' 0) (at' 9900)) bench = .next t) ∧
    (∃ t, exec (.compare 0 1 (at' 0) (at' 0)) bench = .next t) ∧
    (∃ t, exec (.edit 0 1 (at' 0) (at' 9998)) bench = .next t) ∧
    (∃ t, exec (.branch9 0 (dest 0 0 0 0) (dest 0 0 0 0)) bench = .next t) :=
  ⟨by decide, next_of_isNext (by decide +kernel), next_of_isNext (by decide +kernel),
    next_of_isNext (by decide +kernel), next_of_isNext (by decide +kernel), next_of_isNext (by decide +kernel)⟩

/-- Index register 1 of the bench holds 9899, register 3 holds 0000. -/
def indexed : State := put (put bench false 11 "9899") false 31 "0000"

theorem witness_EffectiveAddresses : indexed.IndexHolds .one 9899 ∧ indexed.IndexHolds .three 0 ∧
    100 + 9899 ≤ 9999 ∧ 9999 + 0 ≤ 9999 := by
  refine ⟨⟨by decide +kernel, by decide +kernel, by decide +kernel⟩,
    ⟨by decide +kernel, by decide +kernel, by decide +kernel⟩, by decide, by decide⟩
theorem witness_IndexingFaults : (put bench false 34 ":").IndexNotDecimal .three ∧
    (put bench false 11 ":").IndexNotDecimal .one ∧ (put bench false 34 ":").IndexHolds .one 0 ∧
    ({ bench with parts := [{ bench.me with setting := { bench.me.setting with size := 24 } }] }).IndexMissing
      .two ∧
    ({ bench with parts := [{ bench.me with setting := { bench.me.setting with size := 24 } }] }).IndexHolds
      .one 0 ∧
    8 ∈ [0, 1, 2, 3, 4, 8] ∧
    indexed.IndexHolds .one 9899 ∧ indexed.IndexHolds .unindexed 0 ∧ 9999 < 101 + 9899 :=
  ⟨⟨31, rfl, by decide +kernel, 3, by decide, by decide +kernel⟩, ⟨11, rfl, by decide +kernel, 0, by decide,
    by decide +kernel⟩, ⟨by decide +kernel, by decide +kernel, by decide +kernel⟩, ⟨21, rfl, by decide⟩,
    ⟨by decide, by decide, by decide⟩, by decide, ⟨by decide +kernel, by decide +kernel, by decide +kernel⟩, rfl,
    by decide⟩

/-- The bench with a Privileged Area from Common location 500 on. -/
def guarded : State := { bench with inst := { bench.inst with privBase := some 500 } }

theorem witness_OperandFaults_read : bench.effective (at' 9998) (at' 0) = .ok (spot 9998, spot 0) ∧
    bench.ReadFault (spot 9998) (len1 3) .addressRange ∧
    guarded.effective (inCommon 498) (at' 0) = .ok (commonSpot 498, spot 0) ∧
    guarded.ReadFault (commonSpot 498) (len1 3) .privilegedAccess :=
  ⟨rfl, by decide +kernel, rfl, by decide +kernel⟩
theorem witness_OperandFaults_write : bench.effective (at' 0) (at' 9999) = .ok (spot 0, spot 9999) ∧
    bench.CanRead (spot 0) (len1 1) ∧ bench.WriteFault (spot 9999) (len1 2) .addressRange ∧
    bench.effective (at' 0) (inCommon 299) = .ok (spot 0, commonSpot 299) ∧
    bench.WriteFault (commonSpot 299) (len1 2) .protectedStore ∧
    guarded.effective (at' 0) (inCommon 499) = .ok (spot 0, commonSpot 499) ∧
    guarded.WriteFault (commonSpot 499) (len1 2) .privilegedAccess :=
  ⟨rfl, by decide +kernel, by decide +kernel, rfl, by decide +kernel, rfl, by decide +kernel⟩
theorem witness_OperandFaults_compare_exchange :
    bench.effective (at' 9999) (at' 9999) = .ok (spot 9999, spot 9999) ∧
    bench.ReadFault (spot 9999) (len2 0 2) .addressRange ∧ bench.WriteFault (spot 9999) (len2 0 2) .addressRange ∧
    guarded.CanRead (spot 0) (len2 0 2) ∧ guarded.CanWrite (spot 0) (len2 0 2) ∧
    guarded.ReadFault (commonSpot 499) (len2 0 2) .privilegedAccess ∧
    guarded.WriteFault (commonSpot 499) (len2 0 2) .privilegedAccess ∧
    guarded.WriteFault (commonSpot 0) (len2 0 2) .protectedStore :=
  ⟨rfl, by decide, by decide, by decide, by decide, by decide, by decide, by decide⟩
theorem witness_OperandFaults_edit : bench.effective (at' 0) (at' 9999) = .ok (spot 0, spot 9999) ∧
    bench.CanRead (spot 0) (len2 0 1) ∧
    controlLength bench.mem (spot 9999).key (bench.sizeOf (.part 0) - 9999) (len2 0 1) = none ∧
    bench.effective (at' 0) (inCommon 299) = .ok (spot 0, commonSpot 299) ∧
    controlLength bench.mem (commonSpot 299).key (bench.sizeOf .common - 299) (len2 0 1) = some 2 ∧
    bench.WriteFault (commonSpot 299) 2 .protectedStore :=
  ⟨rfl, by decide, by decide, rfl, by decide, by decide⟩

/-- A state about to fetch at a place, after the boundary of the step. -/
def fetching (common : Bool) (loc : Nat) : State :=
  (guarded.goto { common := common, loc := loc }).boundary.resume

theorem witness_FetchFaults :
    (∀ o, (guarded.goto { common := false, loc := 9001 }).boundary.me.io = some o → o.done ≠ none) ∧
    (fetching false 9001).me.pc ∉ (fetching false 9001).me.setting.stop ∧
    (fetching false 9001).me.pc.loc % 10 ≠ 0 ∧
    ((fetching false 10000).me.pc.loc % 10 = 0 ∧ ¬ (fetching false 10000).InRange (spot 10000) 10) ∧
    ((fetching true 500).me.pc.loc % 10 = 0 ∧ (fetching true 500).InRange (commonSpot 500) 10 ∧
      ¬ (fetching true 500).Accessible (commonSpot 500) 10) ∧
    ((loaded ":P10050200").me.pc.loc % 10 = 0 ∧ (loaded ":P10050200").CanRead (spot 9000) 10 ∧
      decode (loaded ":P10050200").inst.layout ((loaded ":P10050200").field (spot 9000) 10) =
        .error (.reservedEncoding .la)) :=
  ⟨idle_of_no_operation (by decide +kernel), by decide +kernel, by decide +kernel, by decide +kernel,
    by decide +kernel, by decide +kernel, by decide +kernel, rfl⟩

/-- The operands of the bench are formed without indexing. -/
theorem bench_effective (x y : String) : (operands x y).effective (at' 100) (at' 200) =
    .ok (spot 100, spot 200) := by rfl

theorem witness_AddSum : (operands "1Y" "99").Formed ∧
    (operands "1Y" "99").Ordinary (at' 100) (at' 200) (spot 100) (len1 2) (spot 200) (len1 2) ∧
    allDecimal (text "1Y") = true ∧ (operands "1Y" "99").field (spot 100) 2 = text "1Y" ∧
    (operands "1Y" "99").field (spot 200) 2 = text "99" ∧
    signedValue (text "1Y") + signedValue (text "99") = 80 ∧ (80 : Int).natAbs < 10 ^ len1 2 :=
  ⟨by decide +kernel, ⟨rfl, by decide +kernel⟩, by decide, by decide +kernel, by decide +kernel, by decide,
    by decide⟩
theorem witness_SubtractDifference :
    (operands "19" "99").Ordinary (at' 100) (at' 200) (spot 100) (len1 2) (spot 200) (len1 2) ∧
    allDecimal (text "19") = true ∧ signedValue (text "99") - signedValue (text "19") = 80 :=
  ⟨⟨rfl, by decide +kernel⟩, by decide, by decide⟩
theorem witness_SumOverflow :
    (operands "01" "99").Ordinary (at' 100) (at' 200) (spot 100) (len1 2) (spot 200) (len1 2) ∧
    10 ^ len1 2 ≤ magnitude (text "01") + magnitude (text "99") ∧ signOf (text "01") = signOf (text "99") ∧
    signOf (text "0Q") ≠ signOf (text "99") ∧ 10 ^ len1 2 ≤ magnitude (text "0Q") + magnitude (text "99") :=
  ⟨⟨rfl, by decide +kernel⟩, by decide, by decide, by decide, by decide⟩

/-- The bench of a Subtract with the sign of Operand-A reversed. -/
def reversedSign : State :=
  { operands "19" "99" with
    mem := (operands "19" "99").mem.write (Space.key (.part 0) 101) (character true true 9) }

theorem witness_SubtractReversesSign : (operands "19" "99").Formed ∧
    (operands "19" "99").Ordinary (at' 100) (at' 200) (spot 100) (len1 2) (spot 200) (len1 2) ∧
    (operands "19" "99").at (.part 0) 101 = character false true 9 ∧
    ∃ t, exec (.add 2 2 (at' 100) (at' 200)) reversedSign = .next t :=
  ⟨by decide +kernel, ⟨rfl, by decide +kernel⟩, by decide +kernel, next_of_isNext (by decide +kernel)⟩
theorem witness_MultiplyProduct :
    (operands "9" "9Y?").Ordinary (at' 100) (at' 200) (spot 100) (len1 1) (spot 200) (len1 2 + len1 1) ∧
    allDecimal ((operands "9" "9Y?").field (spot 100) 1) = true ∧
    allDecimal ((operands "9" "9Y?").field (spot 200) 2) = true :=
  ⟨⟨rfl, by decide +kernel⟩, by decide +kernel, by decide +kernel⟩
theorem witness_DivideQuotient :
    (operands "3" "29").Ordinary (at' 100) (at' 200) (spot 100) (len1 1) (spot 200) (len1 1 + len1 1) ∧
    allDecimal (text "3") = true ∧ allDecimal (text "29") = true ∧
    magnitude ((text "29").take (len1 1)) < magnitude (text "3") :=
  ⟨⟨rfl, by decide +kernel⟩, by decide, by decide, by decide⟩
theorem witness_DivideOverflow :
    (operands "3" "30").Ordinary (at' 100) (at' 200) (spot 100) (len1 1) (spot 200) (len1 1 + len1 1) ∧
    magnitude (text "3") ≤ magnitude ((text "30").take (len1 1)) ∧
    magnitude (text "0") ≤ magnitude ((text "07").take (len1 1)) ∧ magnitude (text "0") = 0 :=
  ⟨⟨rfl, by decide +kernel⟩, by decide, by decide, by decide⟩
theorem witness_UnspecifiedResults : bench.Formed ∧
    bench.effective (at' 100) (at' 109) = .ok (spot 100, spot 109) ∧ bench.CanRead (spot 100) (len1 0) ∧
    bench.CanWrite (spot 109) (len1 1) ∧ overlap (spot 100) (len1 0) (spot 109) (len1 1) = true ∧
    bench.CanWrite (spot 109) (len1 1 + len1 0) ∧
    overlap (spot 100) (len1 0) (spot 109) (len1 1 + len1 0) = true ∧
    allDecimal ((operands ":" "1").field (spot 100) 1) = false :=
  ⟨by decide, rfl, by decide, by decide, by decide, by decide, by decide, by decide +kernel⟩
theorem witness_CompareFlags :
    bench.effective (at' 9900) (inCommon 0) = .ok (spot 9900, commonSpot 0) ∧
    bench.CanRead (spot 9900) (len2 0 0) ∧ bench.CanRead (commonSpot 0) (len2 0 0) ∧
    (∀ k < 100, bench.at (.part 0) (9900 + k) = bench.at .common (0 + k)) ∧
    (operands "A" "B").at (.part 0) 100 < (operands "A" "B").at (.part 0) 200 :=
  ⟨rfl, by decide, by decide, fun _ _ => rfl, by decide +kernel⟩
theorem witness_ExchangeSwaps :
    bench.effective (at' 100) (at' 102) = .ok (spot 100, spot 102) ∧ bench.CanWrite (spot 100) (len2 0 2) ∧
    bench.CanWrite (spot 102) (len2 0 2) ∧ overlap (spot 100) (len2 0 2) (spot 102) (len2 0 2) = false ∧
    bench.effective (at' 100) (at' 101) = .ok (spot 100, spot 101) ∧
    (0 < 1 ∧ 1 < len2 0 2 ∧ (spot 101).loc = 100 + 1) ∧
    bench.effective (at' 100) (at' 100) = .ok (spot 100, spot 100) :=
  ⟨rfl, by decide, by decide, by decide, rfl, by decide, rfl⟩
theorem witness_MoveCharacterCopies :
    bench.effective (at' 101) (at' 100) = .ok (spot 101, spot 100) ∧ bench.CanRead (spot 101) (len2 0 4) ∧
    bench.CanWrite (spot 100) (len2 0 4) ∧
    ¬ ((spot 101).space = (spot 100).space ∧ (spot 101).loc < (spot 100).loc ∧
      (spot 100).loc < (spot 101).loc + len2 0 4) ∧
    bench.effective (at' 100) (at' 103) = .ok (spot 100, spot 103) ∧ (0 < 3 ∧ 3 < len2 0 4) :=
  ⟨rfl, by decide, by decide, by decide, rfl, by decide⟩
theorem witness_MoveNumericCopies :
    bench.effective (at' 104) (at' 100) = .ok (spot 104, spot 100) ∧ bench.CanRead (spot 104) (len2 0 4) ∧
    bench.CanWrite (spot 100) (len2 0 4) ∧
    bench.effective (at' 100) (at' 101) = .ok (spot 100, spot 101) ∧ (0 < 1 ∧ 1 < len2 0 4) :=
  ⟨rfl, by decide, by decide, rfl, by decide⟩
theorem witness_ControlFieldExtent : 1 ≤ 1 ∧ controlLength [] 0 2 1 = some 2 := by decide

/-- The bench of an Edit: a digit, and a control field with each kind of character. -/
def editing : State := operands "0S" "@ ,@ -"

theorem witness_EditPositions : editing.Formed ∧
    editing.effective (at' 100) (at' 200) = .ok (spot 100, spot 200) ∧ editing.CanRead (spot 100) (len2 0 2) ∧
    controlLength editing.mem (spot 200).key (editing.sizeOf (.part 0) - 200) (len2 0 2) = some 6 ∧
    editing.CanWrite (spot 200) 6 ∧ overlap (spot 100) (len2 0 2) (spot 200) 6 = false ∧
    controlLength (operands "1" ", -").mem (spot 200).key (10000 - 200) (len2 0 1) = some 3 ∧
    isPunct ((operands "1" ", -").at (.part 0) 200) = true ∧
    overlap (spot 100) (len2 0 1) (spot 200) 3 = false :=
  ⟨by decide +kernel, rfl, by decide +kernel, by decide +kernel, by decide +kernel, by decide, by decide +kernel,
    by decide +kernel, by decide⟩
theorem witness_EditOpenCases :
    controlLength (operands "1" ", -").mem (spot 200).key (10000 - 200) (len2 0 1) = some 3 ∧
    (operands "1" ", -").CanWrite (spot 200) 3 ∧ isPunct ((operands "1" ", -").at (.part 0) 200) = true ∧
    bench.effective (at' 100) (at' 100) = .ok (spot 100, spot 100) ∧
    controlLength bench.mem (spot 100).key (10000 - 100) (len2 0 1) = some 2 ∧
    overlap (spot 100) (len2 0 1) (spot 100) 2 = true :=
  ⟨by decide +kernel, by decide +kernel, by decide +kernel, rfl, by decide +kernel, by decide⟩
theorem witness_FormNumericDigits :
    (operands "1,2- " "???").Ordinary (at' 100) (at' 200) (spot 100) (len1 5) (spot 200) (len1 3) ∧
    (operands "1,2- " "???").field (spot 100) (len1 5) = text "1,2" ++ HYPHEN :: List.replicate 1 BLANK ∧
    (text "1,2").filter isDigit = text "1" ++ [18] ∧
    (operands "1R   " "???").field (spot 100) (len1 5) = text "1" ++ 50 :: List.replicate 3 BLANK ∧
    isMinusDigit 50 = true ∧
    (operands "A12+9" "???").field (spot 100) (len1 5) = text "A12+" ++ 25 :: List.replicate 0 BLANK ∧
    isDigit 25 = true ∧
    (operands "CR+  " "???").field (spot 100) (len1 5) = text "CR" ++ 11 :: List.replicate 2 BLANK ∧
    (isDigit 11 = false ∧ isMinusDigit 11 = false ∧ (11 : Character) ≠ HYPHEN) ∧
    (operands "AB-  " "???").field (spot 100) (len1 5) = text "AB" ++ HYPHEN :: List.replicate 2 BLANK ∧
    (text "AB").filter isDigit = [] :=
  ⟨⟨rfl, by decide +kernel⟩, by decide +kernel, by decide, by decide +kernel, by decide, by decide +kernel,
    by decide, by decide +kernel, by decide, by decide +kernel, by decide⟩
theorem witness_FormNumericBlank :
    bench.Formed ∧ bench.Ordinary (at' 100) (at' 200) (spot 100) (len1 0) (spot 200) (len1 0) ∧
    (∀ k < len1 0, bench.at (.part 0) (100 + k) = BLANK) :=
  ⟨by decide, ⟨rfl, by decide⟩, fun _ _ => rfl⟩

theorem witness_BranchHalves : (1, Instr.branch1) ∈ plainBranches ∧
    (withCC (.only .one)).host < (withCC (.only .one)).parts.length ∧
    Required (withCC (.only .one)).me.cc 1 ∧ Names (dest 9 9 9 9) 9999 ∧
    ¬ Required (withCC (.only .two)).me.cc 1 ∧ (2 : Numeric).toNat ∈ [1, 2, 3, 4, 5, 8] ∧
    Required (withCC (.only .two)).me.cc 2 ∧ ¬ Required (withCC (.only .four)).me.cc 1 ∧
    (3 : Numeric).toNat ∈ [0, 1, 2, 3, 4, 9] ∧ ¬ Required (withCC (.only .four)).me.cc 3 :=
  ⟨List.mem_cons_of_mem _ List.mem_cons_self, by decide, by decide, by decide, by decide, by decide, by decide,
    by decide, by decide, by decide⟩
theorem witness_BranchFaults : ((15 : Numeric).toNat = 6 ∨ (15 : Numeric).toNat = 7 ∨ 10 ≤ (15 : Numeric).toNat) ∧
    (0, Instr.branch0) ∈ plainBranches ∧ ¬ Required bench.me.cc 0 ∧ (1 : Numeric).toNat ≠ 0 ∧
    (1 : Numeric).toNat ≠ 9 ∧ (5, Instr.branch5) ∈ plainBranches ∧ Required bench.me.cc 5 ∧
    (∀ loc, ¬ Names (dest 10 0 0 0) loc) ∧ Names (dest 0 0 0 0) 0 ∧
    9990 ≤ (bench.goto { common := false, loc := 9990 }).me.pc.loc ∧ bench.me.pc.loc < 9990 ∧
    Names (dest 9 9 9 7) 9997 ∧ bench.WriteFault (spot 9997) 4 .addressRange ∧
    bench.WriteFault (commonSpot 299) 4 .protectedStore ∧ guarded.WriteFault (commonSpot 497) 4 .privilegedAccess ∧
    guarded.WriteFault (commonSpot 500) 1 .privilegedAccess ∧
    (bench.modifyMe (fun h => { h with srq := some 9 })).me.srq = some 9 :=
  ⟨by decide, List.mem_cons_self, by decide, by decide, by decide,
    by simp [plainBranches], by decide, fun _ h => absurd h.1 (by decide), by decide, by decide, by decide,
    by decide, by decide, by decide, by decide, by decide, by decide⟩
theorem witness_LinkStoresReturn : (8 : Numeric).toNat ∈ [1, 2, 3, 4, 5, 8] ∧ Required bench.me.cc 8 ∧
    Names (dest 9 9 9 6) 9996 ∧ Names (dest 0 0 0 0) 0 ∧
    (bench.goto { common := false, loc := 9980 }).me.pc.loc + 10 ≤ 9999 ∧ bench.CanWrite (spot 9996) 4 := by
  decide
theorem witness_LinkNotPerformed : bench.host < bench.parts.length ∧
    (4 : Numeric).toNat ∈ [0, 1, 2, 3, 4, 9] ∧ ¬ Required bench.me.cc 4 := by decide

/-- The bench with device 9 held for Branch on Service Request. -/
def requested : State := bench.modifyMe (fun h => { h with srq := some 9 })

theorem witness_ServiceRequestTaken : bench.me.srq = none ∧ requested.Formed ∧ requested.me.srq = some 9 ∧
    9 < 10 ∧ Names (dest 9 9 9 9) 9999 ∧ requested.CanWrite (spot 9999) 1 := by decide
theorem witness_ServiceRequestKeepsZones : requested.mem.wf = true ∧
    ∃ t, exec (.serviceRequest 9 (dest 0 0 0 1) (dest 0 0 0 0)) requested = .next t :=
  ⟨by decide, next_of_isNext (by decide +kernel)⟩

theorem witness_IocOperationIssued : bench.host < bench.parts.length ∧
    bench.effective (at' 0) (at' 0) = .ok (spot 0, spot 0) ∧ bench.CanWrite (spot 0) 10000 ∧
    bench.effective (at' 9999) (at' 1) = .ok (spot 9999, spot 1) ∧ bench.CanRead (spot 9999) 1 :=
  ⟨by decide, rfl, by decide, rfl, by decide⟩

/-- An operation at the last location of the partition. -/
def operation (direction : Direction) (left : Nat) (done : Option DeviceOutcome) : IocOperation :=
  { direction := direction, device := 1, common := false, next := 9999, left := left, first := 9999,
    total := 1, done := done }

/-- The bench with that operation in progress and a signal from the IOC. -/
def busy (o : IocOperation) (x : Option IocSignal) : State :=
  bench.modifyMe (fun h => { h with io := some o, signal := x })

/-- A state whose host is at a stop address. -/
def atStop (s : State) : State :=
  s.modifyMe (fun h => { h with setting := { h.setting with stop := [⟨false, 9000⟩] } })

/-- The bench at a stop address, an operation ended and not collected. -/
def busyAtStop : State := atStop (busy (operation (.read .fill) 0 (some .normal)) none)

/-- 60_exceptions.md R386 with R372, and the end of P5 in 95_test_vectors.md: at a stop address the outcome is collected
before the partition is finished. -/
theorem test_stop_collects : (match step busyAtStop with
    | .next t => t.host == 0 && t.me.io == none && t.me.cc == .only .two && t.me.pc == { common := false, loc := 9000 }
    | .fault _ => false
    | .refused _ => false) = true := by decide +kernel

theorem witness_IocWaitAndResume :
    (busy (operation (.read .fill) 1 none) none).boundary.me.io = some (operation (.read .fill) 1 none) ∧
    (busy (operation (.read .fill) 0 (some .normal)) none).boundary.me.io =
      some (operation (.read .fill) 0 (some .normal)) ∧
    (busy (operation (.read .fill) 0 (some .normal)) none).boundary.me.pc ∉
      (busy (operation (.read .fill) 0 (some .normal)) none).boundary.me.setting.stop ∧
    (busy (operation (.read .fill) 1 none) none).boundary.host <
      (busy (operation (.read .fill) 1 none) none).boundary.parts.length ∧
    (atStop bench).boundary.me.io = none ∧
    (atStop bench).boundary.me.pc ∈ (atStop bench).boundary.me.setting.stop ∧
    busyAtStop.boundary.me.io = some (operation (.read .fill) 0 (some .normal)) ∧
    busyAtStop.boundary.me.pc ∈ busyAtStop.boundary.me.setting.stop := by decide
theorem witness_IocReadStoresCharacter :
    (busy (operation (.read .fill) 1 none) (some (.character 33 .normal))).mem.wf = true ∧
    ((busy (operation (.read .fill) 1 none) (some (.character 33 .normal))).part 0).io =
      some (operation (.read .fill) 1 none) ∧
    ((busy (operation (.read .fill) 1 none) (some (.character 33 .normal))).part 0).signal =
      some (.character 33 .normal) ∧
    1 ≤ (operation (.read .fill) 1 none).left ∧ (operation (.read .fill) 1 none).next < 10000 := by decide
theorem witness_UnitSeparatorEndsRead :
    ((busy (operation (.read .nonfill) 1 none) (some (.unitSeparator .normal))).part 0).io =
      some (operation (.read .nonfill) 1 none) ∧
    ((busy (operation (.read .nonfill) 1 none) (some (.unitSeparator .normal))).part 0).signal =
      some (.unitSeparator .normal) ∧
    (operation (.read .nonfill) 1 none).next + (operation (.read .nonfill) 1 none).left ≤ 10000 := by decide
theorem witness_IocWriteSendsCharacter :
    ((busy (operation (.write .plain) 1 none) (some (.ready .normal))).part 0).signal = some (.ready .normal) ∧
    (operation (.write .plain) 1 none).left ≠ 0 ∧ (operation (.write .plain) 0 none).left = 0 ∧
    ((busy (operation (.write .plain) 0 none) (some (.ready .normal))).part 0).io =
      some (operation (.write .plain) 0 none) := by decide
theorem witness_IocAbnormalEnd :
    ((busy (operation (.write .control) 1 none) (some (.ended .fault))).part 0).io =
      some (operation (.write .control) 1 none) ∧
    ((busy (operation (.write .control) 1 none) (some (.ended .fault))).part 0).signal =
      some (.ended .fault) := by decide
theorem witness_EachIocServedOnce :
    ({ BoundaryInput.quiet with order := [1, 0] } : BoundaryInput).order.Perm (List.range twoPartitions.parts.length) := by
  decide
theorem witness_BoundaryChangesOnlyInputAreas : bench.Legal := legal_bench
theorem witness_IocBufferHoldsOne :
    ((busy (operation (.read .fill) 1 none) (some (.character 33 .normal))).part 0).signal ≠ none ∧
    (bench.part 0).io = none ∧ ((busy (operation (.read .fill) 1 none) none).part 0).signal = none ∧
    ((busy (operation (.read .fill) 1 none) none).part 0).io = some (operation (.read .fill) 1 none) ∧
    Asked (.read .fill) (.character 33 .normal) ∧ Asked (.read .nonfill) (.unitSeparator .flag) ∧
    Asked (.write .plain) (.ready .normal) ∧ Asked (.write .control) (.ended .fault) ∧
    ¬ Asked (.read .fill) (.ready .normal) ∧ ¬ Asked (.write .plain) (.character 33 .normal) := by
  refine ⟨by decide, rfl, by decide, by decide, ?_, ?_, ?_, ?_, ?_, ?_⟩ <;> simp [Asked]
theorem witness_ServiceRequestLatched : (requested.part 0).srq ≠ none ∧ (bench.part 0).srq = none ∧
    ((bench.part 0).poll + 9) % 10 ∈ [9] ∧ (∀ j < 9, ((bench.part 0).poll + j) % 10 ∉ [9]) ∧
    (requested.part 0).srq = some 9 ∧ ∃ t, step requested = .next t :=
  ⟨by decide, by decide, by decide, by decide, by decide, next_of_isNext (by decide +kernel)⟩
theorem witness_FacRead : bench.Formed ∧ bench.isDisc 4 = false ∧
    bench.effective (at' 0) (at' 0) = .ok (spot 0, spot 0) ∧ bench.CanWrite (spot 0) 10000 :=
  ⟨by decide, by decide, rfl, by decide⟩
theorem witness_FacWrite : bench.isDisc 8 = false ∧
    bench.effective (inCommon 0) (at' 9999) = .ok (commonSpot 0, spot 9999) ∧
    bench.CanRead (commonSpot 0) 9999 :=
  ⟨by decide, rfl, by decide⟩

/-- Two partitions; disc (0, 0) is bound to one of them, and the FAC answers with a wait or without. -/
def discBench (owner : Nat) (wait : Bool) : State :=
  { twoPartitions with
    bound := [{ device := 0, unit := 0, partition := owner }]
    fac := some { wait := wait, delivered := text "RECORD", taken := 100, outcome := .normal } }

theorem witness_DiscRead : (discBench 1 false).Formed ∧ (discBench 1 false).isDisc 0 = true ∧
    (discBench 1 false).effective (at' 9900) (at' 9994) = .ok (spot 9900, spot 9994) ∧
    (discBench 1 false).CanWrite (spot 9900) 100 ∧ (discBench 1 false).CanRead (spot 9994) 6 ∧
    0 = num ((discBench 1 false).at (.part 0) 9994) ∧ (discBench 1 false).boundTo 0 0 = some 1 ∧
    1 ≠ (discBench 1 false).host ∧ (discBench 0 true).boundTo 0 0 = some (discBench 0 true).host ∧
    (discBench 0 true).facAnswer.wait = true ∧ (discBench 0 false).facAnswer.wait = false :=
  ⟨by decide, by decide, rfl, by decide, by decide, by decide, by decide, by decide, by decide, by decide,
    by decide⟩
theorem witness_DiscWrite : (discBench 1 false).host < (discBench 1 false).parts.length ∧
    (discBench 1 false).effective (inCommon 0) (at' 0) = .ok (commonSpot 0, spot 0) ∧
    (discBench 1 false).CanRead (commonSpot 0) 100 ∧ (discBench 1 false).CanRead (spot 0) 6 ∧
    0 = num ((discBench 1 false).at (.part 0) 0) ∧ (discBench 1 false).boundTo 0 0 = some 1 ∧
    (discBench 0 true).boundTo 0 0 = some (discBench 0 true).host ∧
    (discBench 0 true).facAnswer.wait = true ∧ (discBench 0 false).facAnswer.wait = false :=
  ⟨by decide, rfl, by decide, by decide, by decide, by decide, by decide, by decide, by decide⟩
theorem witness_ReadWriteFaults : bench.effective (at' 9999) (at' 2) = .ok (spot 9999, spot 2) ∧
    bench.WriteFault (spot 9999) 2 .addressRange ∧ bench.ReadFault (spot 9999) 2 .addressRange ∧
    bench.effective (inCommon 299) (at' 1) = .ok (commonSpot 299, spot 1) ∧
    bench.WriteFault (commonSpot 299) 1 .protectedStore ∧
    guarded.effective (inCommon 500) (at' 1) = .ok (commonSpot 500, spot 1) ∧
    guarded.WriteFault (commonSpot 500) 1 .privilegedAccess ∧
    guarded.ReadFault (commonSpot 500) 1 .privilegedAccess ∧ bench.isDisc 8 = false ∧
    bench.isDisc 0 = true ∧ bench.effective (at' 9900) (at' 9995) = .ok (spot 9900, spot 9995) ∧
    bench.CanWrite (spot 9900) 100 ∧ bench.CanRead (spot 9900) 100 ∧
    bench.ReadFault (spot 9995) 6 .addressRange ∧ bench.WriteFault (spot 9901) 100 .addressRange ∧
    bench.ReadFault (spot 9901) 100 .addressRange :=
  ⟨rfl, by decide, by decide, rfl, by decide, rfl, by decide, by decide, by decide, by decide, rfl, by decide,
    by decide, by decide, by decide, by decide⟩

end Sys2Proof.Tests
end

section
/-! SUPPORT. What the decoder accepts: digits are digits, addresses have four of them (30_encoding.md R105, R106). -/

namespace Sys2Proof

open Sys2Proof.Machine

theorem AddressDigits.value_lt {d : AddressDigits} (h : d.decimal = true) : d.value < 10000 := by
  obtain ⟨h3, h2, h1, h0⟩ := of_decide_eq_true h
  unfold AddressDigits.value
  omega

theorem checkDigit_lt {field : EncodingField} {n : Numeric} {d : Nat} (h : checkDigit field n = .ok d) :
    d < 10 := by
  unfold checkDigit at h
  split at h
  · cases h; assumption
  · cases h

theorem checkOperand_wf {field : EncodingField} {common : Bool} {d : AddressDigits} {index : Index} {o : Operand}
    (h : checkOperand field common d index = .ok o) : o.wf = true := by
  unfold checkOperand at h
  split at h
  · cases h; exact decide_eq_true (AddressDigits.value_lt ‹_›)
  · cases h

theorem decodeLengths_wf {build : Nat → Nat → Operand → Operand → Instr} {fl : Fields} {i : Instr}
    (hbuild : ∀ la lb a b, (build la lb a b).wf = Instr.wfFields la lb a b)
    (h : decodeLengths build fl = .ok i) : i.wf = true := by
  unfold decodeLengths at h
  simp only [Except.bind_ok] at h
  obtain ⟨la, hla, lb, hlb, a, ha, b, hb, h⟩ := h
  cases h
  simp [hbuild, Instr.wfFields, checkDigit_lt hla, checkDigit_lt hlb, checkOperand_wf ha, checkOperand_wf hb]

theorem decodeRead_wf {fl : Fields} {i : Instr} (h : decodeRead fl = .ok i) : i.wf = true := by
  obtain ⟨device, hd, h⟩ := Except.bind_ok.mp h
  split at h
  · cases h
  · simp only [Except.bind_ok] at h
    obtain ⟨a, ha, b, hb, h⟩ := h
    cases h
    simp [Instr.wf, checkDigit_lt hd, checkOperand_wf ha, checkOperand_wf hb]

theorem decodeWrite_wf {fl : Fields} {i : Instr} (h : decodeWrite fl = .ok i) : i.wf = true := by
  obtain ⟨device, hd, h⟩ := Except.bind_ok.mp h
  split at h
  · cases h
  · simp only [Except.bind_ok] at h
    obtain ⟨a, ha, b, hb, h⟩ := h
    cases h
    simp [Instr.wf, checkDigit_lt hd, checkOperand_wf ha, checkOperand_wf hb]

theorem decodeBranch_wf {fl : Fields} {i : Instr} (h : decodeBranch fl = .ok i) : i.wf = true := by
  unfold decodeBranch at h
  dsimp only at h
  split at h <;> cases h <;> rfl

theorem instrOf_wf {fl : Fields} {i : Instr} (h : instrOf fl = .ok i) : i.wf = true := by
  unfold instrOf at h
  split at h
  · exact decodeRead_wf h
  · exact decodeWrite_wf h
  · cases h; rfl
  · cases h; rfl
  iterate 6 exact decodeLengths_wf (fun _ _ _ _ => rfl) h
  · cases h; rfl
  · exact decodeBranch_wf h
  all_goals exact decodeLengths_wf (fun _ _ _ _ => rfl) h

theorem decode_wf {lay : ZoneLayout} {cs : List Character} {i : Instr} (h : decode lay cs = .ok i) :
    i.wf = true := by
  unfold decode at h
  split at h
  · cases h
  · exact instrOf_wf h

end Sys2Proof
end

section
/-! SUPPORT. Which keys of Main Memory belong to installed locations, and that a store into installed locations keeps
a memory inside them (10_state.md R25; 20_memory.md R74). -/

namespace Sys2Proof.Machine

/-- In canonical form every listed cell is what its key reads as, and that is not BLANK. -/
theorem Memory.read_of_mem {least : Nat} {m : Memory} (h : Memory.wfFrom least m = true) {cell : Host.Cell}
    (hc : cell ∈ m) : least ≤ cell.1 ∧ m.read cell.1 ≠ Memory.unwritten := by
  induction m generalizing least with
  | nil => cases hc
  | cons first rest ih =>
    obtain ⟨a, b⟩ := first
    obtain ⟨hle, -, hb, hrest⟩ := Memory.wfFrom_cons.mp h
    rw [Memory.read_cons]
    rcases List.mem_cons.mp hc with rfl | hc
    · exact ⟨hle, by rwa [if_pos rfl]⟩
    · obtain ⟨hlt, hread⟩ := ih hrest hc
      exact ⟨by omega, by rwa [if_neg (by omega)]⟩

/-- A key that does not read as BLANK is listed. -/
theorem Memory.mem_of_read {m : Memory} {k : Nat} (h : m.read k ≠ Memory.unwritten) :
    ∃ cell ∈ m, cell.1 = k := by
  induction m with
  | nil => exact absurd rfl h
  | cons first rest ih =>
    obtain ⟨a, b⟩ := first
    rw [Memory.read_cons] at h
    by_cases hak : a = k
    · exact ⟨(a, b), List.mem_cons_self, hak⟩
    · rw [if_neg hak] at h
      obtain ⟨cell, hmem, hkey⟩ := ih h
      exact ⟨cell, List.mem_cons_of_mem _ hmem, hkey⟩

/-- The key of a location that its space has. -/
def State.Installed (s : State) (k : Nat) : Prop := ∃ space loc, k = Space.key space loc ∧ loc < s.sizeOf space

/-- The memory has its canonical form and lists installed locations only: what `State.Legal` asks of Main Memory. -/
structure State.Holds (s : State) (m : Memory) : Prop where
  wf : m.wf = true
  installed : ∀ cell ∈ m, s.Installed cell.1

theorem State.Legal.holds {s : State} (h : s.Legal) : s.Holds s.mem := ⟨h.memory, h.storage⟩

/-- Every key of a field inside its space is installed. -/
theorem State.InRange.installed {s : State} {p : Place} {n k : Nat} (h : s.InRange p n) (hlo : p.key ≤ k)
    (hhi : k < p.key + n) : s.Installed k := by
  refine ⟨p.space, p.loc + (k - p.key), ?_, ?_⟩
  · rw [Space.key_add]
    show k = p.key + (k - p.key)
    omega
  · have : p.loc + n ≤ s.sizeOf p.space := h
    omega

/-- A key that is not installed lies outside every field inside its space. -/
theorem State.InRange.outside {s : State} {p : Place} {n k : Nat} (h : s.InRange p n) (hk : ¬ s.Installed k) :
    k < p.key ∨ p.key + n ≤ k := by
  by_contra hin
  exact hk (h.installed (by omega) (by omega))

/-- A memory in canonical form stays inside the installed locations if no other location reads otherwise. -/
theorem State.Holds.of_outside {s : State} {m m' : Memory} (h : s.Holds m) (hwf : m'.wf = true)
    (hout : ∀ j, ¬ s.Installed j → m'.read j = m.read j) : s.Holds m' := by
  refine ⟨hwf, fun cell hcell => ?_⟩
  by_contra hj
  have hread := (Memory.read_of_mem hwf hcell).2
  rw [hout _ hj] at hread
  obtain ⟨cell', hcell', hkey⟩ := Memory.mem_of_read hread
  exact hj (hkey ▸ h.installed cell' hcell')

/-- As `of_outside`, for a change inside one field. -/
theorem State.Holds.of_outside_field {s : State} {m m' : Memory} {p : Place} {n : Nat} (h : s.Holds m)
    (hp : s.InRange p n) (hwf : m'.wf = true)
    (hout : ∀ j, j < p.key ∨ p.key + n ≤ j → m'.read j = m.read j) : s.Holds m' :=
  h.of_outside hwf fun j hj => hout j (hp.outside hj)

theorem State.Holds.writeField {s : State} {m : Memory} {p : Place} {n : Nat} {cs : List Character} (h : s.Holds m)
    (hp : s.InRange p n) (hcs : cs.length ≤ n) : s.Holds (m.writeField p.key cs) :=
  h.of_outside_field hp (Memory.wf_writeField h.wf _ _) fun j hj =>
    Memory.read_writeField_outside _ _ _ _ (by omega)

theorem State.Holds.write {s : State} {m : Memory} {p : Place} (h : s.Holds m) (hp : s.InRange p 1)
    (c : Character) : s.Holds (m.write p.key c) :=
  h.writeField (cs := [c]) hp (le_refl 1)

theorem State.Holds.moveLoop {s : State} {m : Memory} {pb : Place} {n : Nat} (h : s.Holds m)
    (hb : s.InRange pb n) (ka : Nat) : s.Holds (moveLoop m ka pb.key n) :=
  h.of_outside_field hb (moveLoop_wf h.wf _ _ _) fun _ hj => moveLoop_outside _ _ _ _ _ hj

theorem State.Holds.moveNumericLoop {s : State} {m : Memory} {pb : Place} {n : Nat} (h : s.Holds m)
    (hb : s.InRange pb n) (ka : Nat) : s.Holds (moveNumericLoop m ka pb.key n) :=
  h.of_outside_field hb (moveNumericLoop_wf h.wf _ _ _) fun _ hj => moveNumericLoop_outside _ _ _ _ _ hj

theorem State.Holds.exchangeLoop {s : State} {m : Memory} {pa pb : Place} {n : Nat} (h : s.Holds m)
    (ha : s.InRange pa n) (hb : s.InRange pb n) : s.Holds (exchangeLoop m pa.key pb.key n) :=
  h.of_outside (exchangeLoop_wf h.wf _ _ _) fun _ hj =>
    exchangeLoop_outside _ _ _ _ _ (ha.outside hj) (hb.outside hj)

end Sys2Proof.Machine
end

section
/-! SUPPORT. The relation every change of the state satisfies: the installation stays as it is, and a legal state
stays legal. It holds of each update of the state, and it composes. -/

namespace Sys2Proof.Machine

/-! What depends on the installation alone. -/

theorem SameInstallation.length {s t : State} (h : SameInstallation s t) : t.parts.length = s.parts.length := by
  simpa using congrArg List.length h.2

theorem SameInstallation.setting {s t : State} (h : SameInstallation s t) (q : Nat) :
    (t.part q).setting = (s.part q).setting := by
  rw [State.part, ← List.getD_map (f := fun p : Partition => p.setting), h.2, List.getD_map]
  rfl

theorem SameInstallation.sizeOf {s t : State} (h : SameInstallation s t) (sp : Space) :
    t.sizeOf sp = s.sizeOf sp := by
  cases sp with
  | common => simp only [State.sizeOf, h.1]
  | part q => simp only [State.sizeOf, h.setting]

theorem SameInstallation.legalInstallation {s t : State} (h : SameInstallation s t) (hs : s.LegalInstallation) :
    t.LegalInstallation := by
  obtain ⟨hpos, hmax, hmod, hmod', hcom, hcom', hsize, hsum, hpriv, hdisc, hlay⟩ := hs
  have hsettings := h.2
  refine ⟨by rwa [h.length], by rwa [h.length], ?_⟩
  rw [h.1]
  refine ⟨hmod, hmod', hcom, hcom', ?_, ?_, hpriv, hdisc, hlay⟩
  · intro p hp
    have hmem : p.setting ∈ s.parts.map (fun p => p.setting) := hsettings ▸ List.mem_map_of_mem hp
    obtain ⟨p', hp', heq⟩ := List.mem_map.mp hmem
    exact heq ▸ hsize p' hp'
  · have hsizes := congrArg (List.map PartitionSetting.size) hsettings
    simp only [List.map_map, Function.comp_def] at hsizes
    rwa [hsizes]

theorem SameInstallation.legalOperation {s t : State} (h : SameInstallation s t) {q : Nat} {o : IocOperation}
    (ho : s.LegalOperation q o) : t.LegalOperation q o := by
  unfold State.LegalOperation
  rw [h.sizeOf]
  exact ho

theorem SameInstallation.legalPartition {s t : State} (h : SameInstallation s t) {q : Nat} {p : Partition}
    (hp : s.LegalPartition q p) : t.LegalPartition q p := by
  obtain ⟨hpc, hpoll, hsrq, hio⟩ := hp
  exact ⟨hpc, hpoll, hsrq, fun o ho => h.legalOperation (hio o ho)⟩

theorem SameInstallation.holds {s t : State} (h : SameInstallation s t) {m : Memory} (hm : s.Holds m) :
    t.Holds m := by
  refine ⟨hm.wf, fun cell hcell => ?_⟩
  obtain ⟨sp, loc, hkey, hloc⟩ := hm.installed cell hcell
  exact ⟨sp, loc, hkey, by rwa [h.sizeOf]⟩

/-- A legal state after a change that the installation does not see, the rest legal by the old installation. -/
theorem State.Legal.transfer {s t : State} (hs : s.Legal) (h : SameInstallation s t) (hmem : s.Holds t.mem)
    (hhost : t.host < s.parts.length) (hparts : ∀ q < s.parts.length, s.LegalPartition q (t.part q))
    (hbound : ∀ d ∈ t.bound, d.partition < s.parts.length) : t.Legal where
  installation := h.legalInstallation hs.installation
  memory := hmem.wf
  storage := (h.holds hmem).installed
  host := by rwa [h.length]
  partitions := fun q hq => h.legalPartition (hparts q (by rwa [← h.length]))
  discs := fun d hd => by rw [h.length]; exact hbound d hd

theorem State.Legal.me {s : State} (h : s.Legal) : s.LegalPartition s.host s.me := h.partitions s.host h.host

/-- The operation in progress of any partition is legal. -/
theorem State.Legal.operation {s : State} (h : s.Legal) {q : Nat} {o : IocOperation}
    (ho : (s.part q).io = some o) : s.LegalOperation q o := by
  by_cases hq : q < s.parts.length
  · obtain ⟨-, -, -, hio⟩ := h.partitions q hq
    exact hio o ho
  · have habsent : s.part q = Partition.absent := List.getD_eq_default _ _ (by omega)
    rw [habsent] at ho
    cases ho

/-! The relation. -/

/-- From s to t the installation is the same, and t is legal if s is. -/
structure KeepsLegal (s t : State) : Prop where
  same : SameInstallation s t
  legal : s.Legal → t.Legal

theorem KeepsLegal.refl (s : State) : KeepsLegal s s := ⟨⟨rfl, rfl⟩, id⟩

theorem KeepsLegal.trans {s t u : State} (h : KeepsLegal s t) (h' : KeepsLegal t u) : KeepsLegal s u :=
  ⟨⟨h'.same.1.trans h.same.1, h'.same.2.trans h.same.2⟩, h'.legal ∘ h.legal⟩

/-- Several changes one after the other. -/
theorem KeepsLegal.foldl {α : Type} {f : State → α → State} (h : ∀ s x, KeepsLegal s (f s x)) (s : State)
    (xs : List α) : KeepsLegal s (xs.foldl f s) := by
  induction xs generalizing s with
  | nil => exact .refl s
  | cons x xs ih => exact (h s x).trans (ih (f s x))

theorem KeepsLegal.setMem {s : State} {m : Memory} (h : s.Legal → s.Holds m) : KeepsLegal s (s.setMem m) :=
  ⟨⟨rfl, rfl⟩, fun hs => hs.transfer ⟨rfl, rfl⟩ (h hs) hs.host hs.partitions hs.discs⟩

/-- A change of a partition that keeps its setting and leaves it legal. -/
theorem KeepsLegal.modifyPart {s : State} {q : Nat} {f : Partition → Partition}
    (hset : ∀ p, (f p).setting = p.setting)
    (hf : s.Legal → s.LegalPartition q (s.part q) → s.LegalPartition q (f (s.part q))) :
    KeepsLegal s (s.modifyPart q f) := by
  have hsame : SameInstallation s (s.modifyPart q f) := by
    refine ⟨rfl, List.ext_getElem? fun i => ?_⟩
    rw [State.modifyPart_parts, List.getElem?_map, List.getElem?_map, List.getElem?_modify]
    cases s.parts[i]? with
    | none => rfl
    | some p => by_cases hi : q = i <;> simp [hi, hset]
  refine ⟨hsame, fun hs => hs.transfer hsame hs.holds hs.host (fun q' hq' => ?_) hs.discs⟩
  rw [State.part_modifyPart]
  split
  · rename_i hq
    obtain ⟨rfl, -⟩ := hq
    exact hf hs (hs.partitions q' hq')
  · exact hs.partitions q' hq'

theorem KeepsLegal.modifyMe {s : State} {f : Partition → Partition} (hset : ∀ p, (f p).setting = p.setting)
    (hf : s.Legal → s.LegalPartition s.host s.me → s.LegalPartition s.host (f s.me)) :
    KeepsLegal s (s.modifyMe f) :=
  .modifyPart hset hf

theorem KeepsLegal.setCC (s : State) (cc : ConditionCode) : KeepsLegal s (s.setCC cc) :=
  .modifyMe (fun _ => rfl) fun _ h => h

theorem KeepsLegal.goto {s : State} {p : InstrAddress} (h : p.loc ≤ 10000) : KeepsLegal s (s.goto p) :=
  .modifyMe (fun _ => rfl) fun _ ⟨_, hrest⟩ => ⟨h, hrest⟩

theorem KeepsLegal.advance {s : State} (h : s.me.pc.loc + 10 ≤ 10000) : KeepsLegal s s.advance := .goto h

theorem KeepsLegal.emit (s : State) (es : List OutputEvent) : KeepsLegal s (s.emit es) :=
  ⟨⟨rfl, rfl⟩, fun hs => hs.transfer ⟨rfl, rfl⟩ hs.holds hs.host hs.partitions hs.discs⟩

theorem KeepsLegal.tick (s : State) (b : BoundaryInput) : KeepsLegal s (s.tick b) :=
  ⟨⟨rfl, rfl⟩, fun hs => hs.transfer ⟨rfl, rfl⟩ hs.holds hs.host hs.partitions hs.discs⟩

theorem KeepsLegal.switchPartition (s : State) : KeepsLegal s s.switchPartition :=
  ⟨⟨rfl, rfl⟩, fun hs =>
    hs.transfer ⟨rfl, rfl⟩ hs.holds (Nat.mod_lt _ (Nat.zero_lt_of_lt hs.host)) hs.partitions hs.discs⟩

theorem KeepsLegal.unbind (s : State) (device unit : Nat) : KeepsLegal s (s.unbind device unit) :=
  ⟨⟨rfl, rfl⟩, fun hs => hs.transfer ⟨rfl, rfl⟩ hs.holds hs.host hs.partitions
    fun d hd => hs.discs d (List.mem_of_mem_filter hd)⟩

theorem KeepsLegal.bindDisc (s : State) (device unit : Nat) : KeepsLegal s (s.bindDisc device unit) := by
  refine ⟨⟨rfl, rfl⟩, fun hs => hs.transfer ⟨rfl, rfl⟩ hs.holds hs.host hs.partitions fun d hd => ?_⟩
  rcases List.mem_cons.mp hd with rfl | hd
  · exact hs.host
  · exact hs.discs d (List.mem_of_mem_filter hd)

/-- P of the host partition does not change with its Condition Code. -/
theorem State.setCC_me_pc (s : State) (cc : ConditionCode) : (s.setCC cc).me.pc = s.me.pc := by
  show ((s.modifyPart s.host _).part s.host).pc = (s.part s.host).pc
  rw [State.part_modifyPart]
  split <;> rfl

theorem KeepsLegal.finish {s : State} {m : Memory} {cc : ConditionCode} (hm : s.Legal → s.Holds m)
    (hpc : s.me.pc.loc + 10 ≤ 10000) : KeepsLegal s (s.finish m cc) :=
  ((KeepsLegal.setMem hm).trans (.setCC _ cc)).trans (.advance (by rwa [State.setCC_me_pc]))

theorem KeepsLegal.taken {s : State} {target : InstrAddress} {forced : Bool} (h : target.loc ≤ 10000) :
    KeepsLegal s (s.taken target forced) := by
  unfold State.taken
  split
  · exact (KeepsLegal.goto h).trans (.switchPartition _)
  · exact .goto h

theorem Partition.collect_io {p : Partition} {o : IocOperation} (h : p.collect.io = some o) : p.io = some o := by
  unfold Partition.collect at h
  split at h
  · split at h
    · cases h
    · exact h
  · exact h

theorem KeepsLegal.resume (s : State) : KeepsLegal s s.resume := by
  refine .modifyMe Partition.collect_setting fun _ hp => ?_
  obtain ⟨hpc, hpoll, hsrq, hio⟩ := hp
  exact ⟨by simpa using hpc, by simpa using hpoll, by simpa using hsrq,
    fun o ho => hio o (Partition.collect_io ho)⟩

end Sys2Proof.Machine
end

section
/-! SUPPORT. The instruction boundary changes nothing of the installation and keeps the legal states
(60_exceptions.md R366, R367; 49_read_write.md R325 to R327). -/

namespace Sys2Proof.Machine

theorem firstRequest_lt {poll d : Nat} {devices : List Nat} (h : firstRequest poll devices = some d) : d < 10 := by
  obtain ⟨i, -, rfl⟩ := List.mem_map.mp (List.mem_of_find?_eq_some h)
  exact Nat.mod_lt _ (by omega)

theorem arriveOne_keepsLegal (s : State) (e : DeviceEvent) : KeepsLegal s (s.arriveOne e) := by
  cases e with
  | signal q x => exact .modifyPart (fun _ => rfl) fun _ hp => hp
  | request q devices =>
    refine .modifyPart (fun _ => rfl) fun _ ⟨hpc, hpoll, hsrq, hio⟩ => ⟨hpc, hpoll, fun d hd => ?_, hio⟩
    dsimp only at hd
    split at hd
    · exact firstRequest_lt hd
    · exact hsrq d hd

theorem arrive_keepsLegal (s : State) (events : List DeviceEvent) : KeepsLegal s (s.arrive events) :=
  .foldl arriveOne_keepsLegal s events

theorem KeepsLegal.setOperation {s : State} {q : Nat} {o : IocOperation} (h : s.Legal → s.LegalOperation q o) :
    KeepsLegal s (s.setOperation q o) :=
  .modifyPart (fun _ => rfl) fun hs ⟨hpc, hpoll, hsrq, _⟩ =>
    ⟨hpc, hpoll, hsrq, fun _ ho' => Option.some.inj ho' ▸ h hs⟩

/-- The outcome of an operation that ends does not matter to its area and registers. -/
theorem State.LegalOperation.ended {s : State} {q : Nat} {o : IocOperation} (h : s.LegalOperation q o)
    (outcome : DeviceOutcome) : s.LegalOperation q { o with done := some outcome } := by
  obtain ⟨hdev, hpos, hmax, hregs, hle, harea, hprot, -⟩ := h
  exact ⟨hdev, hpos, hmax, hregs, hle, harea, hprot, fun _ hd => by cases hd⟩

/-- After one character the registers still stand in the area; a Read with none left has ended. -/
theorem State.LegalOperation.stepped {s : State} {q : Nat} {o : IocOperation} (h : s.LegalOperation q o)
    (hleft : o.left ≠ 0) {done : Option DeviceOutcome}
    (hdone : (∃ mode, o.direction = .read mode) → done = none → o.step.left ≠ 0) :
    s.LegalOperation q { o.step with done := done } := by
  obtain ⟨hdev, hpos, hmax, hregs, hle, harea, hprot, -⟩ := h
  refine ⟨hdev, hpos, hmax, ?_, ?_, harea, hprot, fun hread hd => ?_⟩
  · simp only [IocOperation.step_next, IocOperation.step_left, IocOperation.step_first, IocOperation.step_total]
    omega
  · simp only [IocOperation.step_left, IocOperation.step_total]
    omega
  · exact Nat.one_le_iff_ne_zero.mpr (hdone hread hd)

/-- The positions that an operation has not transferred yet lie in the space of its area. -/
theorem State.LegalOperation.inRange {s : State} {q : Nat} {o : IocOperation} (h : s.LegalOperation q o) :
    s.InRange (o.place q) o.left := by
  obtain ⟨-, -, -, hregs, -, harea, -, -⟩ := h
  show o.next + o.left ≤ _
  rw [hregs]
  exact harea

/-- A Read in progress has a character left to transfer. -/
theorem State.Legal.read_left {s : State} (hs : s.Legal) {q : Nat} {o : IocOperation} {mode : FillMode}
    (hio : (s.part q).io = some o) (hdir : o.direction = .read mode) (hdone : o.done = none) : 1 ≤ o.left := by
  obtain ⟨-, -, -, -, -, -, -, hleft⟩ := hs.operation hio
  exact hleft ⟨mode, hdir⟩ hdone

theorem KeepsLegal.endOperation {s : State} {q : Nat} {o : IocOperation} (hio : (s.part q).io = some o)
    (outcome : DeviceOutcome) : KeepsLegal s (s.setOperation q { o with done := some outcome }) :=
  .setOperation fun hs => (hs.operation hio).ended outcome

/-- Characters stored in the rest of the area of an operation. -/
theorem KeepsLegal.storeInput {s : State} {q : Nat} {o : IocOperation} {cs : List Character}
    (hio : (s.part q).io = some o) (hcs : s.Legal → cs.length ≤ o.left) :
    KeepsLegal s (s.setMem (s.stored (o.place q) cs)) :=
  .setMem fun hs => hs.holds.writeField (hs.operation hio).inRange (hcs hs)

/-- A Read that ends with characters stored in the rest of its area. -/
theorem KeepsLegal.endInput {s : State} {q : Nat} {o : IocOperation} {cs : List Character}
    (hio : (s.part q).io = some o) (hcs : cs.length ≤ o.left) (outcome : DeviceOutcome) :
    KeepsLegal s ((s.setMem (s.stored (o.place q) cs)).setOperation q { o with done := some outcome }) :=
  (storeInput hio fun _ => hcs).trans (endOperation (s := s.setMem (s.stored (o.place q) cs)) hio outcome)

theorem freeInput_length (draw q n : Nat) : (freeInput draw q n).length = n := by simp [freeInput]

theorem serviceRead_keepsLegal {s : State} {q : Nat} {mode : FillMode} {o : IocOperation} (x : IocSignal)
    (hio : (s.part q).io = some o) (hdir : o.direction = .read mode) (hdone : o.done = none) :
    KeepsLegal s (s.serviceRead q mode o x) := by
  cases x with
  | character c outcome =>
    refine (KeepsLegal.storeInput (cs := [c]) hio fun hs => hs.read_left hio hdir hdone).trans
      (.setOperation fun hs => (hs.operation hio).stepped ?_ fun _ hnone => ?_)
    · have := hs.read_left hio hdir hdone
      omega
    · split at hnone
      · cases hnone
      · assumption
  | unitSeparator outcome =>
    cases mode with
    | fill =>
      exact .endInput hio (List.length_replicate (n := o.left) (a := BLANK)).le outcome
    | nonfill => exact .endOperation hio outcome
  | ended how =>
    exact .endInput hio (freeInput_length s.draws q o.left).le _
  | ready outcome => exact .refl s

theorem serviceWrite_keepsLegal {s : State} {q : Nat} {kind : WriteKind} {o : IocOperation} (x : IocSignal)
    (hio : (s.part q).io = some o) (hdir : o.direction = .write kind) :
    KeepsLegal s (s.serviceWrite q kind o x) := by
  cases x with
  | ready outcome =>
    dsimp only [State.serviceWrite]
    split
    · exact .endOperation hio outcome
    · refine (KeepsLegal.emit s _).trans
        (.setOperation (s := s.emit _) fun hs =>
          (hs.operation hio).stepped ‹_› (done := o.step.done) fun hread _ => ?_)
      obtain ⟨mode, hread⟩ := hread
      rw [hdir] at hread
      cases hread
  | ended how => exact .endOperation hio _
  | character c outcome => exact .refl s
  | unitSeparator outcome => exact .refl s

theorem service_keepsLegal (s : State) (q : Nat) : KeepsLegal s (s.service q) := by
  rcases s.service_cases q with h | ⟨o, x, hio, -, hdone, ⟨mode, hdir, h⟩ | ⟨kind, hdir, h⟩⟩
  · rw [h]; exact .refl s
  · rw [h]; exact serviceRead_keepsLegal x hio hdir hdone
  · rw [h]; exact serviceWrite_keepsLegal x hio hdir

theorem boundary_keepsLegal (s : State) : KeepsLegal s s.boundary :=
  (((arrive_keepsLegal s _).trans (.foldl service_keepsLegal _ _)).trans (arrive_keepsLegal _ _)).trans (.tick _ _)

end Sys2Proof.Machine
end

section
/-! SUPPORT. Every instruction that may stand at P changes nothing of the installation and keeps the legal states; so
does a step. -/

namespace Sys2Proof.Machine

/-! The instructions that finish with a memory and a Condition Code: what they store lies in a field that passed its
check. -/

theorem arithmetic_keepsLegal {s t : State} {la lb : Nat} {a b : Operand}
    {result : List Character → List Character → FieldResult}
    (hlen : ∀ x y, x.length = la → y.length = lb → (result x y).chars.length = lb)
    (hpc : s.me.pc.loc + 10 ≤ 10000) (h : s.arithmetic la lb a b result = .ok t) : KeepsLegal s t := by
  obtain ⟨pa, pb, -, -, ⟨hin, -⟩, r, hr, rfl⟩ := State.arithmetic_ok.mp h
  have hrlen : r.chars.length = lb := by
    rw [hr]
    split
    · exact freeField_length _ _
    · exact hlen _ _ (State.field_length _ _ _) (State.field_length _ _ _)
  exact .finish (fun hs => hs.holds.writeField hin hrlen.le) hpc

theorem move_keepsLegal {s t : State} {n : Nat} {a b : Operand} {loop : Memory → Nat → Nat → Nat → Memory}
    (hloop : ∀ {m pb} ka, s.Holds m → s.InRange pb n → s.Holds (loop m ka pb.key n))
    (hpc : s.me.pc.loc + 10 ≤ 10000) (h : s.move n a b loop = .ok t) : KeepsLegal s t := by
  obtain ⟨pa, pb, -, -, ⟨hin, -⟩, rfl⟩ := State.move_ok.mp h
  exact .finish (fun hs => hloop _ hs.holds hin) hpc

theorem exchange_keepsLegal {s t : State} {n : Nat} {a b : Operand} (hpc : s.me.pc.loc + 10 ≤ 10000)
    (h : s.exchange n a b = .ok t) : KeepsLegal s t := by
  obtain ⟨pa, pb, -, ⟨hina, -⟩, ⟨hinb, -⟩, rfl⟩ := State.exchange_ok.mp h
  exact .finish (fun hs => hs.holds.exchangeLoop hina hinb) hpc

theorem compare_keepsLegal {s t : State} {n : Nat} {a b : Operand} (hpc : s.me.pc.loc + 10 ≤ 10000)
    (h : s.compare n a b = .ok t) : KeepsLegal s t := by
  obtain ⟨pa, pb, -, -, -, rfl⟩ := State.compare_ok.mp h
  exact .finish (fun hs => hs.holds) hpc

theorem edit_keepsLegal {s t : State} {n : Nat} {a b : Operand} (hpc : s.me.pc.loc + 10 ≤ 10000)
    (h : s.edit n a b = .ok t) : KeepsLegal s t := by
  obtain ⟨pa, pb, m, -, -, -, ⟨hin, -⟩, r, hr, rfl⟩ := State.edit_ok.mp h
  have hrlen : r.chars.length ≤ m := by
    rw [hr]
    split
    · exact (freeField_length _ _).le
    · exact (editField_length_le _ _ _ _ _).trans (State.field_length _ _ _).le
  exact .finish (fun hs => hs.holds.writeField hin hrlen) hpc

/-! Branches. -/

theorem branch_keepsLegal {s t : State} {variant : Nat} {lb : Numeric} {a b : BranchAddress}
    (hpc : s.me.pc.loc + 10 ≤ 10000) (h : s.branch variant lb a b = .ok t) : KeepsLegal s t := by
  rcases State.branch_ok.mp h with ⟨-, ha, rfl⟩ | ⟨-, -, -, hb, rfl⟩ | ⟨-, -, -, rfl⟩
  · exact .taken (AddressDigits.value_lt ha).le
  · exact .taken (AddressDigits.value_lt hb).le
  · exact .advance hpc

theorem link_keepsLegal {s t : State} {lb : Numeric} {a b : BranchAddress} (hpc : s.me.pc.loc + 10 ≤ 10000)
    (h : s.link lb a b = .ok t) : KeepsLegal s t := by
  obtain ⟨-, ⟨-, rfl⟩ | ⟨-, -, hb, -, ⟨hin, -⟩, rfl⟩⟩ := State.link_ok.mp h
  · exact .advance hpc
  · have hlen := returnCharacters_length _ s.me.pc.next (State.field_length s (s.place a.common a.digits.value) 4)
    exact (KeepsLegal.setMem fun hs => hs.holds.writeField hin hlen.le).trans
      (.taken (AddressDigits.value_lt hb).le)

theorem serviceRequest_keepsLegal {s t : State} {lb : Numeric} {a b : BranchAddress}
    (hpc : s.me.pc.loc + 10 ≤ 10000) (h : s.serviceRequest lb a b = .ok t) : KeepsLegal s t := by
  obtain ⟨-, ⟨-, rfl⟩ | ⟨d, -, -, hb, ⟨hin, -⟩, p, rfl, rfl⟩⟩ := State.serviceRequest_ok.mp h
  · exact .advance hpc
  · have hpolled : ∀ u : State, KeepsLegal u (u.modifyMe fun h => { h with srq := none, poll := (d + 1) % 10 }) :=
      fun u => .modifyMe (fun _ => rfl) fun _ ⟨hloc, _, _, hio⟩ =>
        ⟨hloc, Nat.mod_lt _ (by omega), (fun _ hd => nomatch hd), hio⟩
    exact ((KeepsLegal.setMem fun hs => hs.holds.write hin _).trans (hpolled _)).trans
      (.taken (AddressDigits.value_lt hb).le)

/-! Read and Write. -/

theorem countOf_bounds {n : Nat} (h : n ≤ 9999) : 1 ≤ countOf n ∧ countOf n ≤ 10000 := by
  unfold countOf
  split <;> omega

/-- The area of a Read or Write passed its check, stands in the space that Address-A names, and its length is 1 to
10,000. -/
theorem State.transferOf_area {s : State} {device : Nat} {channel : Channel} {a b : Operand}
    {check : Place → Nat → Except FaultKind Unit} {r : Transfer}
    (h : s.transferOf device channel a b check = .ok r) :
    check r.area r.count = .ok () ∧ r.area.space = s.space a.common ∧ 1 ≤ r.count ∧ r.count ≤ 10000 := by
  obtain ⟨-, pa, pb, he, hcase⟩ := State.transferOf_ok.mp h
  obtain ⟨xa, xb, -, -, -, hxb, rfl, rfl⟩ := State.effective_ok.mp he
  rcases hcase with ⟨-, -, hcheck, -, rfl⟩ | ⟨-, hcheck, rfl⟩
  · exact ⟨hcheck, rfl, by simp, by simp⟩
  · exact ⟨hcheck, rfl, countOf_bounds hxb⟩

theorem issue_keepsLegal {s : State} {direction : Direction} {device : Nat} {common : Bool} {r : Transfer}
    (hpc : s.me.pc.loc + 10 ≤ 10000) (hdev : device < 10) (hspace : r.area.space = s.space common)
    (hin : s.InRange r.area r.count) (hpos : 1 ≤ r.count) (hmax : r.count ≤ 10000)
    (hprot : (∃ mode, direction = .read mode) → s.Storable r.area) :
    KeepsLegal s (s.issue direction device common r) := by
  refine KeepsLegal.trans ?_ (.switchPartition _)
  refine .modifyMe (fun _ => rfl) fun _ ⟨_, hpoll, hsrq, _⟩ => ⟨hpc, hpoll, hsrq, fun o ho => ?_⟩
  cases ho
  refine ⟨hdev, hpos, hmax, rfl, le_refl _, ?_, ?_, fun _ _ => hpos⟩
  · rw [State.InRange, hspace] at hin
    exact hin
  · intro hcommon hread
    by_contra hlow
    refine hprot hread ⟨?_, not_le.mp hlow⟩
    rw [hspace]
    dsimp only at hcommon
    rw [hcommon]
    rfl

theorem facRead_keepsLegal {s : State} {r : Transfer} (hpc : s.me.pc.loc + 10 ≤ 10000)
    (hin : s.InRange r.area r.count) : KeepsLegal s (s.facRead r) := by
  have hlen : (s.facInput s.facAnswer r.count).length = r.count := by simp [State.facInput]
  exact (KeepsLegal.setMem fun hs => hs.holds.writeField hin hlen.le).trans
    (.finish (fun hs => hs.holds) hpc)

theorem facWrite_keepsLegal {s : State} {device : Nat} {kind : WriteKind} {r : Transfer}
    (hpc : s.me.pc.loc + 10 ≤ 10000) : KeepsLegal s (s.facWrite device kind r) :=
  (KeepsLegal.emit s _).trans (.finish (fun hs => hs.holds) hpc)

theorem discAttempt_keepsLegal {s : State} {device unit : Nat} {transfer : State → State}
    (h : KeepsLegal (s.bindDisc device unit) (transfer (s.bindDisc device unit))) :
    KeepsLegal s (s.discAttempt device unit transfer) := by
  have hbind := KeepsLegal.bindDisc s device unit
  rcases s.discAttempt_cases device unit transfer with ⟨-, hcase⟩ | ⟨-, -, hcase⟩ | ⟨-, -, hcase⟩
  · rw [hcase]; exact .switchPartition s
  · rw [hcase]; exact hbind.trans (.switchPartition _)
  · rw [hcase]; exact (hbind.trans h).trans (.unbind _ _ _)

/-- The end of Read and Write on their channel, for any transfer that keeps the legal states whichever discs are
bound. -/
theorem onChannel_keepsLegal {s : State} {direction : Direction} {device : Nat} {channel : Channel} {common : Bool}
    {r : Transfer} {transfer : State → State} (hissue : KeepsLegal s (s.issue direction device common r))
    (hfac : KeepsLegal s (transfer s))
    (hdisc : ∀ unit, KeepsLegal (s.bindDisc device unit) (transfer (s.bindDisc device unit))) :
    KeepsLegal s (s.onChannel direction device channel common r transfer) := by
  obtain ⟨area, count, disc⟩ := r
  cases channel with
  | ioc => exact hissue
  | fac =>
    cases disc with
    | none => exact hfac
    | some address => exact discAttempt_keepsLegal (hdisc _)

theorem execRead_keepsLegal {device : Nat} {channel : Channel} {mode : FillMode} {a b : Operand} {s t : State}
    (hdev : device < 10) (hpc : s.me.pc.loc + 10 ≤ 10000) (h : execRead device channel mode a b s = .next t) :
    KeepsLegal s t := by
  obtain ⟨r, hr, rfl⟩ := execRead_next.mp h
  obtain ⟨hcheck, hspace, hpos, hmax⟩ := State.transferOf_area hr
  obtain ⟨hin, hstorable, -⟩ := State.checkWrite_ok.mp hcheck
  exact onChannel_keepsLegal (issue_keepsLegal hpc hdev hspace hin hpos hmax fun _ => hstorable)
    (facRead_keepsLegal hpc hin) fun unit => facRead_keepsLegal (s := s.bindDisc device unit) hpc hin

theorem execWrite_keepsLegal {device : Nat} {channel : Channel} {kind : WriteKind} {a b : Operand} {s t : State}
    (hdev : device < 10) (hpc : s.me.pc.loc + 10 ≤ 10000) (h : execWrite device channel kind a b s = .next t) :
    KeepsLegal s t := by
  obtain ⟨r, hr, rfl⟩ := execWrite_next.mp h
  obtain ⟨hcheck, hspace, hpos, hmax⟩ := State.transferOf_area hr
  obtain ⟨hin, -⟩ := State.checkRead_ok.mp hcheck
  exact onChannel_keepsLegal (issue_keepsLegal hpc hdev hspace hin hpos hmax fun ⟨_, hread⟩ => by cases hread)
    (facWrite_keepsLegal hpc) fun unit => facWrite_keepsLegal (s := s.bindDisc device unit) hpc

/-! Every instruction, and the step. -/

/-- An instruction that may stand at P: P leaves room for the next one, and the device of a Read or Write is a digit. -/
theorem exec_keepsLegal {i : Instr} {s t : State} (hwf : i.wf = true) (hpc : s.me.pc.loc + 10 ≤ 10000)
    (h : exec i s = .next t) : KeepsLegal s t := by
  cases i with
  | read device channel mode a b =>
    simp only [Instr.wf, Bool.and_eq_true, decide_eq_true_eq] at hwf
    obtain ⟨⟨hdev, -⟩, -⟩ := hwf
    exact execRead_keepsLegal hdev hpc h
  | write device channel kind a b =>
    simp only [Instr.wf, Bool.and_eq_true, decide_eq_true_eq] at hwf
    obtain ⟨⟨hdev, -⟩, -⟩ := hwf
    exact execWrite_keepsLegal hdev hpc h
  | unassigned2 => cases h
  | unassigned3 => cases h
  | unassigned10 => cases h
  | add la lb a b =>
    exact arithmetic_keepsLegal (fun _ _ _ hy => (addFields_length _ _ _ _).trans hy) hpc (State.outcome_next.mp h)
  | subtract la lb a b =>
    exact arithmetic_keepsLegal (fun _ _ _ hy => (addFields_length _ _ _ _).trans hy) hpc (State.outcome_next.mp h)
  | multiply la lb a b =>
    exact arithmetic_keepsLegal (fun _ _ _ hy => (multiplyFields_length _ _ _).trans hy) hpc
      (State.outcome_next.mp h)
  | divide la lb a b =>
    exact arithmetic_keepsLegal
      (fun _ _ hx hy => (divideFields_length _ _ _ _ (by rw [hx, hy])).trans hy) hpc (State.outcome_next.mp h)
  | formNumeric la lb a b =>
    exact arithmetic_keepsLegal (fun _ _ _ hy => (formFields_length _ _ _).trans hy) hpc (State.outcome_next.mp h)
  | moveCharacter la lb a b =>
    exact move_keepsLegal (fun ka hm hin => hm.moveLoop hin ka) hpc (State.outcome_next.mp h)
  | moveNumeric la lb a b =>
    exact move_keepsLegal (fun ka hm hin => hm.moveNumericLoop hin ka) hpc (State.outcome_next.mp h)
  | exchange la lb a b => exact exchange_keepsLegal hpc (State.outcome_next.mp h)
  | compare la lb a b => exact compare_keepsLegal hpc (State.outcome_next.mp h)
  | edit la lb a b => exact edit_keepsLegal hpc (State.outcome_next.mp h)
  | link lb a b => exact link_keepsLegal hpc (State.outcome_next.mp h)
  | serviceRequest lb a b => exact serviceRequest_keepsLegal hpc (State.outcome_next.mp h)
  | branch0 lb a b | branch1 lb a b | branch2 lb a b | branch3 lb a b | branch4 lb a b | branch5 lb a b
  | branch8 lb a b | branch9 lb a b => exact branch_keepsLegal hpc (State.outcome_next.mp h)

/-- An instruction that was fetched ends inside its space, so that P has room for the next one. -/
theorem fetch_pc_le {s : State} {i : Instr} (h : s.fetch = .ok i) : s.me.pc.loc + 10 ≤ 10000 := by
  obtain ⟨-, ⟨hin, -⟩, -⟩ := State.fetch_ok.mp h
  exact State.InRange.le hin

theorem fetch_wf {s : State} {i : Instr} (h : s.fetch = .ok i) : i.wf = true := by
  obtain ⟨-, -, hdec⟩ := State.fetch_ok.mp h
  exact decode_wf hdec

theorem step_keepsLegal {s t : State} (h : step s = .next t) : KeepsLegal s t := by
  have hboundary := boundary_keepsLegal s
  have hresume := hboundary.trans (.resume _)
  rcases step_next.mp h with ⟨-, rfl⟩ | ⟨-, -, rfl⟩ | ⟨-, -, i, hfetch, hexec⟩
  · exact hboundary.trans (.switchPartition _)
  · exact hresume.trans (.switchPartition _)
  · exact hresume.trans (exec_keepsLegal (fetch_wf hfetch) (fetch_pc_le hfetch) hexec)

/-- Settles O9: each of the boundary, the collection of an ended operation and the instruction keeps the legal
states. -/
theorem stepKeepsLegal : Obligations.StepKeepsLegal :=
  fun _ _ hs h => (step_keepsLegal h).legal hs

/-- Settles O11: the same three parts leave the installation alone, in every state. -/
theorem installationNeverChanges : Obligations.InstallationNeverChanges :=
  fun _ _ h => (step_keepsLegal h).same

end Sys2Proof.Machine
end

section
/-! SUPPORT. What the operations of the host partition leave as it is of another partition: its registers, its channel
and its storage (10_state.md R26; 60_exceptions.md R374). -/

namespace Sys2Proof.Machine

/-! The operands of the host partition lie outside the storage of every other one. -/

theorem State.space_ne_part (s : State) (common : Bool) {q : Nat} (hq : q ≠ s.host) : s.space common ≠ .part q := by
  cases common with
  | true => simp [State.space]
  | false => simpa [State.space] using hq.symm

theorem State.effective_ne_part {s : State} {a b : Operand} {pa pb : Place} {q : Nat} (hq : q ≠ s.host)
    (h : s.effective a b = .ok (pa, pb)) : pa.space ≠ .part q ∧ pb.space ≠ .part q := by
  obtain ⟨hpa, hpb⟩ := State.effective_space h
  rw [hpa, hpb]
  exact ⟨s.space_ne_part _ hq, s.space_ne_part _ hq⟩

/-- No location of a partition has its key in a field of another space. -/
theorem State.InRange.outside_part {s : State} {p : Place} {n q loc : Nat} (h : s.InRange p n)
    (hp : p.space ≠ .part q) (hloc : loc < Config.spaceLimit) :
    (Space.part q).key loc < p.key ∨ p.key + n ≤ (Space.part q).key loc := by
  have hout := mt (Place.key_in_field h.le hloc).mp (fun hin => hp hin.1.symm)
  omega

/-! The relation. -/

/-- From s to t the registers, the channel and the storage of partition q are the same. -/
structure KeepsPartition (q : Nat) (s t : State) : Prop where
  part : t.part q = s.part q
  storage : ∀ loc, loc < Config.spaceLimit → t.at (.part q) loc = s.at (.part q) loc

theorem KeepsPartition.refl (q : Nat) (s : State) : KeepsPartition q s s := ⟨rfl, fun _ _ => rfl⟩

theorem KeepsPartition.trans {q : Nat} {s t u : State} (h : KeepsPartition q s t) (h' : KeepsPartition q t u) :
    KeepsPartition q s u :=
  ⟨h'.part.trans h.part, fun loc hloc => (h'.storage loc hloc).trans (h.storage loc hloc)⟩

/-! What the host partition of u does after u itself has kept partition q. -/

theorem KeepsPartition.modifyMe {q : Nat} {s u : State} {f : Partition → Partition} (h : KeepsPartition q s u)
    (hq : q ≠ u.host) : KeepsPartition q s (u.modifyMe f) :=
  h.trans ⟨u.part_modifyMe_ne f hq, fun _ _ => rfl⟩

theorem KeepsPartition.switchPartition {q : Nat} {s u : State} (h : KeepsPartition q s u) :
    KeepsPartition q s u.switchPartition := ⟨h.part, h.storage⟩

theorem KeepsPartition.finish {q : Nat} {s u : State} {m : Memory} {cc : ConditionCode}
    (h : KeepsPartition q s (u.setMem m)) (hq : q ≠ u.host) : KeepsPartition q s (u.finish m cc) :=
  ⟨(u.part_finish_ne m cc hq).trans h.part, h.storage⟩

theorem KeepsPartition.advance {q : Nat} {s u : State} (h : KeepsPartition q s u) (hq : q ≠ u.host) :
    KeepsPartition q s u.advance := h.modifyMe hq

theorem KeepsPartition.taken {q : Nat} {s u : State} {target : InstrAddress} {forced : Bool}
    (h : KeepsPartition q s u) (hq : q ≠ u.host) : KeepsPartition q s (u.taken target forced) := by
  unfold State.taken
  split
  · exact (h.modifyMe hq).switchPartition
  · exact h.modifyMe hq

/-! What it stores. -/

/-- A memory that differs only inside a field of another space. -/
theorem KeepsPartition.setMem {q : Nat} {s : State} {m : Memory} {p : Place} {n : Nat} (hin : s.InRange p n)
    (hp : p.space ≠ .part q) (hout : ∀ j, j < p.key ∨ p.key + n ≤ j → m.read j = s.mem.read j) :
    KeepsPartition q s (s.setMem m) :=
  ⟨rfl, fun _ hloc => hout _ (hin.outside_part hp hloc)⟩

theorem KeepsPartition.stored {q : Nat} {s : State} {p : Place} {n : Nat} {cs : List Character}
    (hin : s.InRange p n) (hp : p.space ≠ .part q) (hcs : cs.length ≤ n) :
    KeepsPartition q s (s.setMem (s.stored p cs)) :=
  .setMem hin hp fun _ hj => Memory.read_writeField_outside _ _ _ _ (by omega)

/-! The instructions that finish with a memory and a Condition Code. -/

theorem arithmetic_keepsPartition {q : Nat} {s t : State} {la lb : Nat} {a b : Operand}
    {result : List Character → List Character → FieldResult}
    (hlen : ∀ x y, x.length = la → y.length = lb → (result x y).chars.length = lb)
    (hq : q ≠ s.host) (h : s.arithmetic la lb a b result = .ok t) : KeepsPartition q s t := by
  obtain ⟨pa, pb, he, -, ⟨hin, -⟩, r, hr, rfl⟩ := State.arithmetic_ok.mp h
  have hrlen : r.chars.length = lb := by
    rw [hr]
    split
    · exact freeField_length _ _
    · exact hlen _ _ (State.field_length _ _ _) (State.field_length _ _ _)
  exact .finish (.stored hin (State.effective_ne_part hq he).2 hrlen.le) hq

theorem move_keepsPartition {q : Nat} {s t : State} {n : Nat} {a b : Operand}
    {loop : Memory → Nat → Nat → Nat → Memory}
    (hloop : ∀ m ka kb j, j < kb ∨ kb + n ≤ j → (loop m ka kb n).read j = m.read j)
    (hq : q ≠ s.host) (h : s.move n a b loop = .ok t) : KeepsPartition q s t := by
  obtain ⟨pa, pb, he, -, ⟨hin, -⟩, rfl⟩ := State.move_ok.mp h
  exact .finish (.setMem hin (State.effective_ne_part hq he).2 (hloop _ _ _)) hq

theorem exchange_keepsPartition {q : Nat} {s t : State} {n : Nat} {a b : Operand} (hq : q ≠ s.host)
    (h : s.exchange n a b = .ok t) : KeepsPartition q s t := by
  obtain ⟨pa, pb, he, ⟨hina, -⟩, ⟨hinb, -⟩, rfl⟩ := State.exchange_ok.mp h
  obtain ⟨hpa, hpb⟩ := State.effective_ne_part hq he
  exact .finish ⟨rfl, fun _ hloc =>
    exchangeLoop_outside _ _ _ _ _ (hina.outside_part hpa hloc) (hinb.outside_part hpb hloc)⟩ hq

theorem compare_keepsPartition {q : Nat} {s t : State} {n : Nat} {a b : Operand} (hq : q ≠ s.host)
    (h : s.compare n a b = .ok t) : KeepsPartition q s t := by
  obtain ⟨pa, pb, -, -, -, rfl⟩ := State.compare_ok.mp h
  exact .finish (.refl q s) hq

theorem edit_keepsPartition {q : Nat} {s t : State} {n : Nat} {a b : Operand} (hq : q ≠ s.host)
    (h : s.edit n a b = .ok t) : KeepsPartition q s t := by
  obtain ⟨pa, pb, m, he, -, -, ⟨hin, -⟩, r, hr, rfl⟩ := State.edit_ok.mp h
  have hrlen : r.chars.length ≤ m := by
    rw [hr]
    split
    · exact (freeField_length _ _).le
    · exact (editField_length_le _ _ _ _ _).trans (State.field_length _ _ _).le
  exact .finish (.stored hin (State.effective_ne_part hq he).2 hrlen) hq

/-! Branches. -/

theorem branch_keepsPartition {q : Nat} {s t : State} {variant : Nat} {lb : Numeric} {a b : BranchAddress}
    (hq : q ≠ s.host) (h : s.branch variant lb a b = .ok t) : KeepsPartition q s t := by
  rcases State.branch_ok.mp h with ⟨-, -, rfl⟩ | ⟨-, -, -, -, rfl⟩ | ⟨-, -, -, rfl⟩
  · exact .taken (.refl q s) hq
  · exact .taken (.refl q s) hq
  · exact .advance (.refl q s) hq

theorem link_keepsPartition {q : Nat} {s t : State} {lb : Numeric} {a b : BranchAddress} (hq : q ≠ s.host)
    (h : s.link lb a b = .ok t) : KeepsPartition q s t := by
  obtain ⟨-, ⟨-, rfl⟩ | ⟨-, -, -, -, ⟨hin, -⟩, rfl⟩⟩ := State.link_ok.mp h
  · exact .advance (.refl q s) hq
  · have hlen := returnCharacters_length _ s.me.pc.next (State.field_length s (s.place a.common a.digits.value) 4)
    exact .taken (.stored hin (s.space_ne_part _ hq) hlen.le) hq

theorem serviceRequest_keepsPartition {q : Nat} {s t : State} {lb : Numeric} {a b : BranchAddress}
    (hq : q ≠ s.host) (h : s.serviceRequest lb a b = .ok t) : KeepsPartition q s t := by
  obtain ⟨-, ⟨-, rfl⟩ | ⟨d, -, -, -, ⟨hin, -⟩, p, rfl, rfl⟩⟩ := State.serviceRequest_ok.mp h
  · exact .advance (.refl q s) hq
  · exact .taken (.modifyMe (.stored (cs := [_]) hin (s.space_ne_part _ hq) (le_refl 1)) hq) hq

/-! Read and Write. -/

theorem issue_keepsPartition {q : Nat} {s : State} (hq : q ≠ s.host) (direction : Direction) (device : Nat)
    (common : Bool) (r : Transfer) : KeepsPartition q s (s.issue direction device common r) :=
  .switchPartition (.modifyMe (.refl q s) hq)

theorem facRead_keepsPartition {q : Nat} {s : State} {r : Transfer} (hq : q ≠ s.host)
    (hin : s.InRange r.area r.count) (hp : r.area.space ≠ .part q) : KeepsPartition q s (s.facRead r) := by
  have hlen : (s.facInput s.facAnswer r.count).length = r.count := by simp [State.facInput]
  exact .finish (u := s.setMem _) (.stored hin hp hlen.le) hq

theorem facWrite_keepsPartition {q : Nat} {s : State} (hq : q ≠ s.host) (device : Nat) (kind : WriteKind)
    (r : Transfer) : KeepsPartition q s (s.facWrite device kind r) :=
  .finish (u := s.emit _) ⟨rfl, fun _ _ => rfl⟩ hq

/-- Which discs are bound is no part of a partition. -/
theorem discAttempt_keepsPartition {q : Nat} {s : State} {device unit : Nat} {transfer : State → State}
    (h : KeepsPartition q (s.bindDisc device unit) (transfer (s.bindDisc device unit))) :
    KeepsPartition q s (s.discAttempt device unit transfer) := by
  rcases s.discAttempt_cases device unit transfer with ⟨-, hcase⟩ | ⟨-, -, hcase⟩ | ⟨-, -, hcase⟩
  · rw [hcase]; exact .switchPartition (.refl q s)
  · rw [hcase]; exact .switchPartition (u := s.bindDisc device unit) ⟨rfl, fun _ _ => rfl⟩
  · rw [hcase]; exact ⟨h.part, h.storage⟩

theorem onChannel_keepsPartition {q : Nat} {s : State} {direction : Direction} {device : Nat} {channel : Channel}
    {common : Bool} {r : Transfer} {transfer : State → State} (hq : q ≠ s.host)
    (hfac : KeepsPartition q s (transfer s))
    (hdisc : ∀ unit, KeepsPartition q (s.bindDisc device unit) (transfer (s.bindDisc device unit))) :
    KeepsPartition q s (s.onChannel direction device channel common r transfer) := by
  obtain ⟨area, count, disc⟩ := r
  cases channel with
  | ioc => exact issue_keepsPartition hq _ _ _ _
  | fac =>
    cases disc with
    | none => exact hfac
    | some address => exact discAttempt_keepsPartition (hdisc _)

theorem execRead_keepsPartition {q : Nat} {device : Nat} {channel : Channel} {mode : FillMode} {a b : Operand}
    {s t : State} (hq : q ≠ s.host) (h : execRead device channel mode a b s = .next t) : KeepsPartition q s t := by
  obtain ⟨r, hr, rfl⟩ := execRead_next.mp h
  obtain ⟨hcheck, hspace, -, -⟩ := State.transferOf_area hr
  obtain ⟨hin, -⟩ := State.checkWrite_ok.mp hcheck
  have hp : r.area.space ≠ .part q := hspace ▸ s.space_ne_part _ hq
  exact onChannel_keepsPartition hq (facRead_keepsPartition hq hin hp) fun unit =>
    facRead_keepsPartition (s := s.bindDisc device unit) hq hin hp

theorem execWrite_keepsPartition {q : Nat} {device : Nat} {channel : Channel} {kind : WriteKind} {a b : Operand}
    {s t : State} (hq : q ≠ s.host) (h : execWrite device channel kind a b s = .next t) : KeepsPartition q s t := by
  obtain ⟨r, -, rfl⟩ := execWrite_next.mp h
  exact onChannel_keepsPartition hq (facWrite_keepsPartition hq _ _ _) fun unit =>
    facWrite_keepsPartition (s := s.bindDisc device unit) hq _ _ _

/-! Every instruction. -/

theorem exec_keepsPartition {i : Instr} {s t : State} {q : Nat} (h : exec i s = .next t) (hq : q ≠ s.host) :
    KeepsPartition q s t := by
  cases i with
  | read device channel mode a b => exact execRead_keepsPartition hq h
  | write device channel kind a b => exact execWrite_keepsPartition hq h
  | unassigned2 | unassigned3 | unassigned10 => cases h
  | add la lb a b | subtract la lb a b =>
    exact arithmetic_keepsPartition (fun _ _ _ hy => (addFields_length _ _ _ _).trans hy) hq (State.outcome_next.mp h)
  | multiply la lb a b =>
    exact arithmetic_keepsPartition (fun _ _ _ hy => (multiplyFields_length _ _ _).trans hy) hq
      (State.outcome_next.mp h)
  | divide la lb a b =>
    exact arithmetic_keepsPartition (fun _ _ hx hy => (divideFields_length _ _ _ _ (by rw [hx, hy])).trans hy) hq
      (State.outcome_next.mp h)
  | formNumeric la lb a b =>
    exact arithmetic_keepsPartition (fun _ _ _ hy => (formFields_length _ _ _).trans hy) hq (State.outcome_next.mp h)
  | moveCharacter la lb a b =>
    exact move_keepsPartition (fun m ka kb => moveLoop_outside m ka kb _) hq (State.outcome_next.mp h)
  | moveNumeric la lb a b =>
    exact move_keepsPartition (fun m ka kb => moveNumericLoop_outside m ka kb _) hq (State.outcome_next.mp h)
  | exchange la lb a b => exact exchange_keepsPartition hq (State.outcome_next.mp h)
  | compare la lb a b => exact compare_keepsPartition hq (State.outcome_next.mp h)
  | edit la lb a b => exact edit_keepsPartition hq (State.outcome_next.mp h)
  | link lb a b => exact link_keepsPartition hq (State.outcome_next.mp h)
  | serviceRequest lb a b => exact serviceRequest_keepsPartition hq (State.outcome_next.mp h)
  | branch0 lb a b | branch1 lb a b | branch2 lb a b | branch3 lb a b | branch4 lb a b | branch5 lb a b
  | branch8 lb a b | branch9 lb a b => exact branch_keepsPartition hq (State.outcome_next.mp h)

/-- Settles O13: every instruction writes registers of the host partition alone, and characters only in checked fields
of Common or of the host partition. -/
theorem instructionLeavesOtherPartitions : Obligations.InstructionLeavesOtherPartitions :=
  fun _ _ _ _ h hq => ⟨(exec_keepsPartition h hq).part, (exec_keepsPartition h hq).storage⟩

end Sys2Proof.Machine
end

section
/-! SUPPORT. The instruction boundary changes no Condition Code and not the partition in control (60_exceptions.md
R367): a Condition Code is written by the instructions of its own partition, and when that partition collects. -/

namespace Sys2Proof.Machine

/-- From s to t control stays and every Condition Code is the same. -/
structure KeepsCodes (s t : State) : Prop where
  host : t.host = s.host
  cc : ∀ q, (t.part q).cc = (s.part q).cc

theorem KeepsCodes.refl (s : State) : KeepsCodes s s := ⟨rfl, fun _ => rfl⟩

theorem KeepsCodes.trans {s t u : State} (h : KeepsCodes s t) (h' : KeepsCodes t u) : KeepsCodes s u :=
  ⟨h'.host.trans h.host, fun q => (h'.cc q).trans (h.cc q)⟩

theorem KeepsCodes.foldl {α : Type} {f : State → α → State} (h : ∀ s x, KeepsCodes s (f s x)) (s : State)
    (xs : List α) : KeepsCodes s (xs.foldl f s) :=
  List.foldlRecOn xs f (motive := KeepsCodes s) (.refl s) fun t ht x _ => ht.trans (h t x)

theorem KeepsCodes.modifyPart {f : Partition → Partition} {s : State} {q : Nat} (hf : ∀ p, (f p).cc = p.cc) :
    KeepsCodes s (s.modifyPart q f) := by
  refine ⟨rfl, fun q' => ?_⟩
  rw [State.part_modifyPart]
  split
  · exact hf _
  · rfl

theorem arriveOne_keepsCodes (s : State) (e : DeviceEvent) : KeepsCodes s (s.arriveOne e) := by
  cases e with
  | signal q x => exact .modifyPart fun _ => rfl
  | request q devices => exact .modifyPart fun _ => rfl

/-- What a service step does to memory and the output events is no part of a partition. -/
theorem KeepsCodes.setOperation {s u : State} {q : Nat} {o : IocOperation} (hhost : u.host = s.host)
    (hparts : u.parts = s.parts) : KeepsCodes s (u.setOperation q o) :=
  have hu : KeepsCodes s u := ⟨hhost, fun q' => by rw [State.part, hparts]; rfl⟩
  hu.trans (.modifyPart fun _ => rfl)

theorem serviceRead_keepsCodes (s : State) (q : Nat) (mode : FillMode) (o : IocOperation) (x : IocSignal) :
    KeepsCodes s (s.serviceRead q mode o x) := by
  cases x with
  | character c outcome => exact .setOperation rfl rfl
  | unitSeparator outcome => cases mode <;> exact .setOperation rfl rfl
  | ended how => exact .setOperation rfl rfl
  | ready outcome => exact .refl s

theorem serviceWrite_keepsCodes (s : State) (q : Nat) (kind : WriteKind) (o : IocOperation) (x : IocSignal) :
    KeepsCodes s (s.serviceWrite q kind o x) := by
  cases x with
  | ready outcome =>
    dsimp only [State.serviceWrite]
    split <;> exact .setOperation rfl rfl
  | ended how => exact .setOperation rfl rfl
  | character c outcome => exact .refl s
  | unitSeparator outcome => exact .refl s

theorem service_keepsCodes (s : State) (q : Nat) : KeepsCodes s (s.service q) := by
  rcases s.service_cases q with h | ⟨o, x, -, -, -, ⟨mode, -, h⟩ | ⟨kind, -, h⟩⟩
  · rw [h]; exact .refl s
  · rw [h]; exact serviceRead_keepsCodes s q mode o x
  · rw [h]; exact serviceWrite_keepsCodes s q kind o x

theorem boundary_keepsCodes (s : State) : KeepsCodes s s.boundary :=
  have harrive : ∀ u events, KeepsCodes u (u.arrive events) := .foldl arriveOne_keepsCodes
  have hserved := (harrive s s.nextInput.early).trans
    (.foldl service_keepsCodes _ (serviceOrder s.nextInput.order s.parts.length))
  have hlate := hserved.trans (harrive _ s.nextInput.late)
  ⟨hlate.host, hlate.cc⟩

/-- Settles O12: the boundary writes no Condition Code, collecting and the instruction write that of the host alone. -/
theorem otherConditionCodesKept : Obligations.OtherConditionCodesKept := by
  intro s t q h hq
  have hboundary := boundary_keepsCodes s
  have hq' : q ≠ s.boundary.host := by rwa [hboundary.host]
  have hresume : KeepsPartition q s.boundary s.boundary.resume := .modifyMe (.refl q _) hq'
  have hcontrol : KeepsPartition q s.boundary t := by
    rcases step_next.mp h with ⟨-, rfl⟩ | ⟨-, -, rfl⟩ | ⟨-, -, i, -, hexec⟩
    · exact .switchPartition (.refl q _)
    · exact hresume.switchPartition
    · exact hresume.trans (exec_keepsPartition hexec hq')
  rw [hcontrol.part, hboundary.cc]

end Sys2Proof.Machine
end

section
/-! SUPPORT. Two runs of one instruction from states that differ in the storage of one partition: nothing that the host
partition reads differs, so that the answers differ in that storage alone (10_state.md R26; 60_exceptions.md R374). -/

namespace Sys2Proof.Machine

/-! Memories that agree outside the storage of a partition. -/

/-- The key of a location that does not belong to the storage of partition q. -/
def Outside (q k : Nat) : Prop := ∃ sp loc, sp ≠ .part q ∧ loc < Config.spaceLimit ∧ k = Space.key sp loc

/-- Two memories in canonical form that agree on every location outside the storage of partition q. -/
structure AgreeOutside (q : Nat) (m m' : Memory) : Prop where
  wf : m.wf = true
  wf' : m'.wf = true
  read : ∀ k, Outside q k → m'.read k = m.read k

/-- Every key of a field in another space is outside. -/
theorem Place.outside {p : Place} {n q k : Nat} (hp : p.space ≠ .part q) (hn : p.loc + n ≤ Config.spaceLimit)
    (hlo : p.key ≤ k) (hhi : k < p.key + n) : Outside q k := by
  refine ⟨p.space, p.loc + (k - p.key), hp, by omega, ?_⟩
  rw [Space.key_add]
  show k = p.key + (k - p.key)
  omega

theorem AgreeOutside.write {q : Nat} {m m' : Memory} (h : AgreeOutside q m m') (k : Nat) (c : Character) :
    AgreeOutside q (m.write k c) (m'.write k c) where
  wf := Memory.wf_write h.wf k c
  wf' := Memory.wf_write h.wf' k c
  read j hj := by rw [Memory.read_write h.wf, Memory.read_write h.wf', h.read j hj]

theorem AgreeOutside.writeField {q : Nat} {m m' : Memory} (h : AgreeOutside q m m') (k : Nat)
    (cs : List Character) : AgreeOutside q (m.writeField k cs) (m'.writeField k cs) := by
  induction cs generalizing m m' k with
  | nil => exact h
  | cons c cs ih => exact ih (h.write k c) (k + 1)

theorem AgreeOutside.moveLoop {q : Nat} {m m' : Memory} (h : AgreeOutside q m m') (ka kb n : Nat)
    (ha : ∀ j, ka ≤ j → j < ka + n → Outside q j) :
    AgreeOutside q (moveLoop m ka kb n) (moveLoop m' ka kb n) := by
  induction n generalizing m m' ka kb with
  | zero => exact h
  | succ n ih =>
    rw [Machine.moveLoop, Machine.moveLoop, h.read ka (ha ka (by omega) (by omega))]
    exact ih (h.write _ _) _ _ fun j hlo hhi => ha j (by omega) (by omega)

theorem AgreeOutside.moveNumericLoop {q : Nat} {m m' : Memory} (h : AgreeOutside q m m') (ka kb n : Nat)
    (ha : ∀ j, ka ≤ j → j < ka + n → Outside q j) (hb : ∀ j, kb ≤ j → j < kb + n → Outside q j) :
    AgreeOutside q (moveNumericLoop m ka kb n) (moveNumericLoop m' ka kb n) := by
  induction n generalizing m m' ka kb with
  | zero => exact h
  | succ n ih =>
    rw [Machine.moveNumericLoop, Machine.moveNumericLoop, h.read ka (ha ka (by omega) (by omega)),
      h.read kb (hb kb (by omega) (by omega))]
    exact ih (h.write _ _) _ _ (fun j hlo hhi => ha j (by omega) (by omega))
      fun j hlo hhi => hb j (by omega) (by omega)

theorem AgreeOutside.exchangeLoop {q : Nat} {m m' : Memory} (h : AgreeOutside q m m') (ka kb n : Nat)
    (ha : ∀ j, ka ≤ j → j < ka + n → Outside q j) (hb : ∀ j, kb ≤ j → j < kb + n → Outside q j) :
    AgreeOutside q (exchangeLoop m ka kb n) (exchangeLoop m' ka kb n) := by
  induction n generalizing m m' ka kb with
  | zero => exact h
  | succ n ih =>
    rw [Machine.exchangeLoop, Machine.exchangeLoop, h.read ka (ha ka (by omega) (by omega)),
      h.read kb (hb kb (by omega) (by omega))]
    exact ih ((h.write _ _).write _ _) _ _ (fun j hlo hhi => ha j (by omega) (by omega))
      fun j hlo hhi => hb j (by omega) (by omega)

/-- The scan of Edit reads no further than the end of the space. -/
theorem AgreeOutside.controlLength {q : Nat} {m m' : Memory} (h : AgreeOutside q m m') (k room n : Nat)
    (hk : ∀ j, k ≤ j → j < k + room → Outside q j) : controlLength m' k room n = controlLength m k room n := by
  induction room generalizing k n with
  | zero => cases n <;> rfl
  | succ room ih =>
    have hrest : ∀ j, k + 1 ≤ j → j < k + 1 + room → Outside q j := fun j hlo hhi => hk j (by omega) (by omega)
    cases n with
    | zero => rfl
    | succ n =>
      rw [Machine.controlLength, Machine.controlLength, h.read k (hk k (by omega) (by omega)), ih _ _ hrest,
        ih _ _ hrest]

/-! What the host partition reads. -/

@[simp] theorem State.sizeOf_setMem (s : State) (m : Memory) (sp : Space) : (s.setMem m).sizeOf sp = s.sizeOf sp := rfl

theorem AgreeOutside.field {q : Nat} {s : State} {m : Memory} (h : AgreeOutside q s.mem m) {p : Place} {n : Nat}
    (hp : p.space ≠ .part q) (hin : s.InRange p n) : (s.setMem m).field p n = s.field p n :=
  Memory.readField_congr fun j hlo hhi => h.read j (Place.outside hp hin.le hlo hhi)

/-- A check and what follows it, when the second run continues alike after every answer of the check. -/
theorem Except.bind_congr_ok {ε α β : Type} {x : Except ε α} {f g : α → Except ε β}
    (h : ∀ a, x = .ok a → f a = g a) : x >>= f = x >>= g := by
  cases x with
  | error e => rfl
  | ok a => exact h a rfl

/-- The three answers of an index register that is used. -/
theorem State.indexValue_eq (s : State) {i : Index} (hi : i ≠ .unindexed) :
    s.indexValue i =
      if ¬ s.InRange (s.indexPlace i) 4 then .error .addressRange
      else if allDecimal (s.field (s.indexPlace i) 4) then .ok (magnitude (s.field (s.indexPlace i) 4))
      else .error .nonDecimalDigit := by
  cases i with
  | unindexed => exact absurd rfl hi
  | one | two | three => rfl

theorem AgreeOutside.indexValue {q : Nat} {s : State} {m : Memory} (h : AgreeOutside q s.mem m) (hq : q ≠ s.host)
    (i : Index) : (s.setMem m).indexValue i = s.indexValue i := by
  by_cases hi : i = .unindexed
  · rw [hi]
    rfl
  · rw [State.indexValue_eq _ hi, State.indexValue_eq _ hi]
    by_cases hin : s.InRange (s.indexPlace i) 4
    · have hfield : (s.setMem m).field ((s.setMem m).indexPlace i) 4 = s.field (s.indexPlace i) 4 :=
        h.field (s.space_ne_part false hq) hin
      rw [hfield]
      rfl
    · exact (if_pos hin).trans (if_pos hin).symm

theorem AgreeOutside.effective {q : Nat} {s : State} {m : Memory} (h : AgreeOutside q s.mem m) (hq : q ≠ s.host)
    (a b : Operand) : (s.setMem m).effective a b = s.effective a b := by
  unfold State.effective
  rw [h.indexValue hq, h.indexValue hq]
  rfl

/-! The relation between the two runs. -/

/-- The second state differs from the first in the storage of partition q alone. -/
def DiffersIn (q : Nat) (t t' : State) : Prop := ∃ m, AgreeOutside q t.mem m ∧ t' = t.setMem m

/-- Two answers of the checks and the effect of an instruction: the same fault, or states that differ in the storage of
partition q alone. -/
def SameAnswers (q : Nat) : Except FaultKind State → Except FaultKind State → Prop
  | .ok t, .ok t' => DiffersIn q t t'
  | .error kind, .error kind' => kind' = kind
  | _, _ => False

theorem SameAnswers.ok {q : Nat} {t : State} {m : Memory} (h : AgreeOutside q t.mem m) :
    SameAnswers q (.ok t) (.ok (t.setMem m)) := ⟨m, h, rfl⟩

theorem SameAnswers.bind {q : Nat} {α : Type} {x : Except FaultKind α} {f f' : α → Except FaultKind State}
    (h : ∀ a, x = .ok a → SameAnswers q (f a) (f' a)) : SameAnswers q (x >>= f) (x >>= f') := by
  cases x with
  | error kind => rfl
  | ok a => exact h a rfl

/-- A change of the state that neither reads nor writes memory. -/
theorem DiffersIn.map {q : Nat} {t t' : State} (h : DiffersIn q t t') {f : State → State}
    (hf : ∀ m, f (t.setMem m) = (f t).setMem m) (hmem : (f t).mem = t.mem) : DiffersIn q (f t) (f t') := by
  obtain ⟨m, hagree, rfl⟩ := h
  exact ⟨m, by rwa [hmem], hf m⟩

@[simp] theorem State.sliceOver_setMem (s : State) (m : Memory) : (s.setMem m).sliceOver = s.sliceOver := rfl

@[simp] theorem State.taken_mem (s : State) (target : InstrAddress) (forced : Bool) :
    (s.taken target forced).mem = s.mem := by
  unfold State.taken
  split <;> rfl

@[simp] theorem State.taken_setMem (s : State) (m : Memory) (target : InstrAddress) (forced : Bool) :
    (s.setMem m).taken target forced = (s.taken target forced).setMem m := by
  unfold State.taken
  rw [State.sliceOver_setMem]
  split <;> rfl

/-- A taken branch after stores that differ in the storage of partition q alone. -/
theorem SameAnswers.taken {q : Nat} {u : State} {m : Memory} (h : AgreeOutside q u.mem m) (target : InstrAddress)
    (forced : Bool) : SameAnswers q (.ok (u.taken target forced)) (.ok ((u.setMem m).taken target forced)) := by
  rw [State.taken_setMem]
  exact .ok (by rwa [State.taken_mem])

/-! The instructions that finish with a memory and a Condition Code. -/

section
variable {q : Nat} {s : State} {m : Memory} (h : AgreeOutside q s.mem m) (hq : q ≠ s.host)
include h hq

theorem arithmetic_sameAnswers (la lb : Nat) (a b : Operand)
    (result : List Character → List Character → FieldResult) :
    SameAnswers q (s.arithmetic la lb a b result) ((s.setMem m).arithmetic la lb a b result) := by
  unfold State.arithmetic
  rw [h.effective hq]
  refine .bind fun (pa, pb) he => .bind fun _ hr => .bind fun _ hw => ?_
  obtain ⟨hpa, hpb⟩ := State.effective_ne_part hq he
  rw [h.field hpa (State.checkRead_ok.mp hr).1, h.field hpb (State.checkWrite_ok.mp hw).1]
  exact .ok (h.writeField _ _)

theorem move_sameAnswers (n : Nat) (a b : Operand) {loop : Memory → Nat → Nat → Nat → Memory}
    (hloop : ∀ ka kb, (∀ j, ka ≤ j → j < ka + n → Outside q j) → (∀ j, kb ≤ j → j < kb + n → Outside q j) →
      AgreeOutside q (loop s.mem ka kb n) (loop m ka kb n)) :
    SameAnswers q (s.move n a b loop) ((s.setMem m).move n a b loop) := by
  unfold State.move
  rw [h.effective hq]
  refine .bind fun (pa, pb) he => .bind fun _ hr => .bind fun _ hw => ?_
  obtain ⟨hpa, hpb⟩ := State.effective_ne_part hq he
  exact .ok (hloop _ _ (fun _ => Place.outside hpa (State.checkRead_ok.mp hr).1.le)
    fun _ => Place.outside hpb (State.checkWrite_ok.mp hw).1.le)

theorem exchange_sameAnswers (n : Nat) (a b : Operand) :
    SameAnswers q (s.exchange n a b) ((s.setMem m).exchange n a b) := by
  unfold State.exchange
  rw [h.effective hq]
  refine .bind fun (pa, pb) he => .bind fun _ hwa => .bind fun _ hwb => ?_
  obtain ⟨hpa, hpb⟩ := State.effective_ne_part hq he
  exact .ok (h.exchangeLoop _ _ _ (fun _ => Place.outside hpa (State.checkWrite_ok.mp hwa).1.le)
    fun _ => Place.outside hpb (State.checkWrite_ok.mp hwb).1.le)

theorem compare_sameAnswers (n : Nat) (a b : Operand) :
    SameAnswers q (s.compare n a b) ((s.setMem m).compare n a b) := by
  unfold State.compare
  rw [h.effective hq]
  refine .bind fun (pa, pb) he => .bind fun _ hra => .bind fun _ hrb => ?_
  obtain ⟨hpa, hpb⟩ := State.effective_ne_part hq he
  rw [h.field hpa (State.checkRead_ok.mp hra).1, h.field hpb (State.checkRead_ok.mp hrb).1]
  exact .ok h

theorem edit_sameAnswers (n : Nat) (a b : Operand) : SameAnswers q (s.edit n a b) ((s.setMem m).edit n a b) := by
  unfold State.edit
  rw [h.effective hq]
  refine .bind fun (pa, pb) he => .bind fun _ hr => ?_
  obtain ⟨hpa, hpb⟩ := State.effective_ne_part hq he
  have hscan : controlLength m pb.key (s.sizeOf pb.space - pb.loc) n =
      controlLength s.mem pb.key (s.sizeOf pb.space - pb.loc) n := by
    by_cases hroom : pb.loc ≤ s.sizeOf pb.space
    · have hlimit := s.sizeOf_le pb.space
      exact h.controlLength _ _ _ fun _ => Place.outside hpb (by omega)
    · exact h.controlLength _ _ _ fun _ hlo hhi => by omega
  dsimp only
  rw [State.setMem_mem, State.sizeOf_setMem, hscan]
  cases controlLength s.mem pb.key (s.sizeOf pb.space - pb.loc) n with
  | none => rfl
  | some length =>
    refine .bind fun _ hw => ?_
    rw [h.field hpa (State.checkRead_ok.mp hr).1, h.field hpb (State.checkWrite_ok.mp hw).1]
    exact .ok (h.writeField _ _)

/-! Branches. -/

omit hq in
/-- Branch reads the Condition Code and no character. -/
theorem branch_sameAnswers (variant : Nat) (lb : Numeric) (a b : BranchAddress) :
    SameAnswers q (s.branch variant lb a b) ((s.setMem m).branch variant lb a b) := by
  unfold State.branch
  rw [State.me_setMem]
  split
  · exact .bind fun target _ => .taken h target _
  · split
    · rfl
    · split
      · exact .bind fun target _ => .taken h target _
      · exact .ok (t := s.advance) h

theorem link_sameAnswers (lb : Numeric) (a b : BranchAddress) :
    SameAnswers q (s.link lb a b) ((s.setMem m).link lb a b) := by
  unfold State.link
  rw [State.me_setMem]
  split
  · rfl
  · split
    · refine .bind fun loc _ => .bind fun target _ => ?_
      dsimp only
      split
      · rfl
      · refine .bind fun _ hw => ?_
        have hfield := h.field (s.space_ne_part a.common hq) (State.checkWrite_ok.mp hw).1
        exact .taken (u := s.setMem _) (hfield ▸ h.writeField _ _) target _
    · exact .ok (t := s.advance) h

theorem serviceRequest_sameAnswers (lb : Numeric) (a b : BranchAddress) :
    SameAnswers q (s.serviceRequest lb a b) ((s.setMem m).serviceRequest lb a b) := by
  unfold State.serviceRequest
  rw [State.me_setMem]
  split
  · rfl
  · cases s.me.srq with
    | none => exact .ok (t := s.advance) h
    | some d =>
      refine .bind fun loc _ => .bind fun target _ => .bind fun _ hw => ?_
      have hin := (State.checkWrite_ok.mp hw).1.le
      have hread := h.read _ (Place.outside (s.space_ne_part a.common hq) hin (le_refl _) (by omega))
      exact .taken (u := (s.setMem _).modifyMe _) (hread ▸ h.write _ _) target _

/-! Read and Write. -/

/-- What is to be transferred, the disc address included, is formed and checked alike. -/
theorem AgreeOutside.transferOf (device : Nat) (channel : Channel) (a b : Operand)
    (check : Place → Nat → Except FaultKind Unit) :
    (s.setMem m).transferOf device channel a b check = s.transferOf device channel a b check := by
  unfold State.transferOf
  rw [h.effective hq]
  refine if_congr Iff.rfl rfl (Except.bind_congr_ok fun (pa, pb) he => if_congr Iff.rfl ?_ rfl)
  refine Except.bind_congr_ok fun _ _ => Except.bind_congr_ok fun _ hr => ?_
  rw [h.field (State.effective_ne_part hq he).2 (State.checkRead_ok.mp hr).1]

end

theorem facRead_differsIn {q : Nat} {r : Transfer} {u u' : State} (h : DiffersIn q u u') :
    DiffersIn q (u.facRead r) (u'.facRead r) := by
  obtain ⟨m, hagree, rfl⟩ := h
  exact ⟨_, hagree.writeField _ _, rfl⟩

/-- The characters that a Write sends stand in its area, which the host partition may read. -/
theorem facWrite_differsIn {q device : Nat} {kind : WriteKind} {r : Transfer} (hp : r.area.space ≠ .part q)
    (hn : r.area.loc + r.count ≤ Config.spaceLimit) {u u' : State} (h : DiffersIn q u u') :
    DiffersIn q (u.facWrite device kind r) (u'.facWrite device kind r) := by
  obtain ⟨m, hagree, rfl⟩ := h
  have hfield : (u.setMem m).field r.area r.count = u.field r.area r.count :=
    Memory.readField_congr fun j hlo hhi => hagree.read j (Place.outside hp hn hlo hhi)
  refine ⟨m, hagree, ?_⟩
  unfold State.facWrite
  rw [hfield]
  rfl

@[simp] theorem State.boundTo_setMem (s : State) (m : Memory) (device unit : Nat) :
    (s.setMem m).boundTo device unit = s.boundTo device unit := rfl
@[simp] theorem State.facAnswer_setMem (s : State) (m : Memory) : (s.setMem m).facAnswer = s.facAnswer := rfl

/-- Whether a disc is bound and what the FAC answers is the same in both runs. -/
theorem discAttempt_differsIn {q : Nat} {s s' : State} (h : DiffersIn q s s') (device unit : Nat)
    {transfer : State → State} (htransfer : ∀ u u', DiffersIn q u u' → DiffersIn q (transfer u) (transfer u')) :
    DiffersIn q (s.discAttempt device unit transfer) (s'.discAttempt device unit transfer) := by
  have hbind : DiffersIn q (s.bindDisc device unit) (s'.bindDisc device unit) :=
    h.map (f := (State.bindDisc · device unit)) (fun _ => rfl) rfl
  have hswitch := h.map (f := State.switchPartition) (fun _ => rfl) rfl
  obtain ⟨m, -, rfl⟩ := h
  unfold State.discAttempt
  rw [State.boundTo_setMem, State.facAnswer_setMem, State.setMem_host]
  split
  · exact hswitch
  · dsimp only
    split
    · exact hbind.map (f := State.switchPartition) (fun _ => rfl) rfl
    · exact (htransfer _ _ hbind).map (f := (State.unbind · device unit)) (fun _ => rfl) rfl

theorem onChannel_differsIn {q : Nat} {s s' : State} (h : DiffersIn q s s') (direction : Direction) (device : Nat)
    (channel : Channel) (common : Bool) (r : Transfer) {transfer : State → State}
    (htransfer : ∀ u u', DiffersIn q u u' → DiffersIn q (transfer u) (transfer u')) :
    DiffersIn q (s.onChannel direction device channel common r transfer)
      (s'.onChannel direction device channel common r transfer) := by
  obtain ⟨area, count, disc⟩ := r
  cases channel with
  | ioc => exact h.map (f := (State.issue · direction device common _)) (fun _ => rfl) rfl
  | fac =>
    cases disc with
    | none => exact htransfer s s' h
    | some address => exact discAttempt_differsIn h device _ htransfer

/-! The outcomes. -/

/-- Two outcomes of one instruction: next states that differ in the storage of partition q alone, or the same fault. -/
def SameOutcomes (q : Nat) (o o' : Host.Outcome State Fault Refusal) : Prop :=
  (∀ t, o = .next t → ∃ t', o' = .next t' ∧ DiffersIn q t t') ∧ ∀ f, o = .fault f → o' = .fault f

theorem SameAnswers.outcome {q : Nat} {s : State} {m : Memory} {x x' : Except FaultKind State}
    (h : SameAnswers q x x') : SameOutcomes q (s.outcome x) ((s.setMem m).outcome x') := by
  match x, x', h with
  | .ok t, .ok t', h => exact ⟨fun _ ht => ⟨t', rfl, Host.Outcome.next.inj ht ▸ h⟩, nofun⟩
  | .error kind, .error _, rfl => exact ⟨nofun, fun _ hf => hf⟩

theorem execRead_sameOutcomes {q : Nat} {s : State} {m : Memory} (h : AgreeOutside q s.mem m) (hq : q ≠ s.host)
    (device : Nat) (channel : Channel) (mode : FillMode) (a b : Operand) :
    SameOutcomes q (execRead device channel mode a b s) (execRead device channel mode a b (s.setMem m)) := by
  refine SameAnswers.outcome ?_
  rw [h.transferOf hq]
  exact .bind fun r _ => onChannel_differsIn ⟨m, h, rfl⟩ _ _ _ _ _ fun _ _ => facRead_differsIn

theorem execWrite_sameOutcomes {q : Nat} {s : State} {m : Memory} (h : AgreeOutside q s.mem m) (hq : q ≠ s.host)
    (device : Nat) (channel : Channel) (kind : WriteKind) (a b : Operand) :
    SameOutcomes q (execWrite device channel kind a b s) (execWrite device channel kind a b (s.setMem m)) := by
  refine SameAnswers.outcome ?_
  rw [h.transferOf hq]
  refine .bind fun r hr => onChannel_differsIn ⟨m, h, rfl⟩ _ _ _ _ _ fun _ _ => ?_
  obtain ⟨hcheck, hspace, -, -⟩ := State.transferOf_area hr
  obtain ⟨hin, -⟩ := State.checkRead_ok.mp hcheck
  exact facWrite_differsIn (hspace ▸ s.space_ne_part _ hq) hin.le

theorem exec_sameOutcomes {q : Nat} {s : State} {m : Memory} (h : AgreeOutside q s.mem m) (hq : q ≠ s.host)
    (i : Instr) : SameOutcomes q (exec i s) (exec i (s.setMem m)) := by
  cases i with
  | read device channel mode a b => exact execRead_sameOutcomes h hq device channel mode a b
  | write device channel kind a b => exact execWrite_sameOutcomes h hq device channel kind a b
  | unassigned2 | unassigned3 | unassigned10 =>
    exact SameAnswers.outcome (x := .error .illegalOpcode) (x' := .error .illegalOpcode) rfl
  | add la lb a b | subtract la lb a b | multiply la lb a b | divide la lb a b | formNumeric la lb a b =>
    exact (arithmetic_sameAnswers h hq _ _ a b _).outcome
  | moveCharacter la lb a b =>
    exact (move_sameAnswers h hq _ a b fun ka kb ha _ => h.moveLoop ka kb _ ha).outcome
  | moveNumeric la lb a b =>
    exact (move_sameAnswers h hq _ a b fun ka kb ha hb => h.moveNumericLoop ka kb _ ha hb).outcome
  | exchange la lb a b => exact (exchange_sameAnswers h hq _ a b).outcome
  | compare la lb a b => exact (compare_sameAnswers h hq _ a b).outcome
  | edit la lb a b => exact (edit_sameAnswers h hq _ a b).outcome
  | link lb a b => exact (link_sameAnswers h hq lb a b).outcome
  | serviceRequest lb a b => exact (serviceRequest_sameAnswers h hq lb a b).outcome
  | branch0 lb a b | branch1 lb a b | branch2 lb a b | branch3 lb a b | branch4 lb a b | branch5 lb a b
  | branch8 lb a b | branch9 lb a b => exact (branch_sameAnswers h _ lb a b).outcome

/-! The words of the statement. -/

theorem SameBut.agreeOutside {q : Nat} {s s' : State} (hwf : s.mem.wf = true) (h : SameBut q s s') :
    AgreeOutside q s.mem s'.mem := by
  obtain ⟨hwf', -, hread⟩ := h
  refine ⟨hwf, hwf'.trans hwf, ?_⟩
  rintro k ⟨sp, loc, hsp, hloc, rfl⟩
  exact hread sp loc hsp hloc

theorem DiffersIn.sameBut {q : Nat} {t t' : State} (h : DiffersIn q t t') : SameBut q t t' := by
  obtain ⟨m, hagree, rfl⟩ := h
  exact ⟨hagree.wf'.trans hagree.wf.symm, rfl, fun sp loc hsp hloc => hagree.read _ ⟨sp, loc, hsp, hloc, rfl⟩⟩

/-- Settles O14: every character an instruction reads stands in a checked field of Common or of the host partition, so
that the two runs compute the same fields, codes and faults. -/
theorem instructionLearnsNothingOfOthers : Obligations.InstructionLearnsNothingOfOthers := by
  rintro i s s' q ⟨-, hwf⟩ hq hsame
  obtain ⟨hnext, hfault⟩ := exec_sameOutcomes (SameBut.agreeOutside hwf hsame) hq i
  obtain ⟨-, hs', -⟩ := hsame
  rw [hs']
  refine ⟨fun t ht => ?_, hfault⟩
  obtain ⟨t', ht', hdiffers⟩ := hnext t ht
  exact ⟨t', ht', hdiffers.sameBut⟩

end Sys2Proof.Machine
end

section
/-! SUPPORT. Which sets of flags the instructions leave in the Condition Code (10_state.md R39, Table G3-1). -/

namespace Sys2Proof.Machine

/-! The Condition Codes of the results. -/

theorem ConditionCode.ofSign_only (zero negative : Bool) :
    ∃ k, k ≠ FlagNumber.four ∧ ConditionCode.ofSign zero negative = .only k := by
  unfold ConditionCode.ofSign
  split
  · exact ⟨.two, by decide, rfl⟩
  · split
    · exact ⟨.one, by decide, rfl⟩
    · exact ⟨.three, by decide, rfl⟩

/-- The result leaves exactly one flag ON. -/
def FieldResult.OneFlag (r : FieldResult) : Prop := ∃ k, r.cc = .only k

theorem FieldResult.OneFlag.of_ofSign {cs : List Character} {zero negative : Bool} :
    FieldResult.OneFlag { chars := cs, cc := .ofSign zero negative } := by
  obtain ⟨k, -, hk⟩ := ConditionCode.ofSign_only zero negative
  exact ⟨k, hk⟩

theorem unspecifiedResult_oneFlag (draw n : Nat) : (unspecifiedResult draw n).OneFlag := ⟨_, rfl⟩

theorem addFields_oneFlag (draw : Nat) (reverse : Bool) (a b : List Character) :
    (addFields draw reverse a b).OneFlag := by
  unfold addFields
  split
  · unfold sumResult
    dsimp only
    split
    · exact ⟨.four, rfl⟩
    · exact .of_ofSign
  · exact unspecifiedResult_oneFlag _ _

theorem multiplyFields_oneFlag (draw : Nat) (a b : List Character) : (multiplyFields draw a b).OneFlag := by
  unfold multiplyFields
  split
  · exact .of_ofSign
  · exact unspecifiedResult_oneFlag _ _

theorem divideFields_oneFlag (draw : Nat) (a b : List Character) (n : Nat) :
    (divideFields draw a b n).OneFlag := by
  unfold divideFields divideDecimal
  split
  · split
    · exact ⟨.four, rfl⟩
    · split
      · exact ⟨.four, rfl⟩
      · exact .of_ofSign
  · exact unspecifiedResult_oneFlag _ _

theorem formFields_oneFlag (draw : Nat) (a : List Character) (n : Nat) : (formFields draw a n).OneFlag := by
  unfold formFields
  dsimp only
  split
  · exact ⟨.four, rfl⟩
  · exact .of_ofSign

theorem compareFields_cases (a b : List Character) :
    compareFields a b = .only .one ∨ compareFields a b = .equal ∨ compareFields a b = .greater := by
  fun_induction compareFields a b with
  | case1 => exact .inl rfl
  | case2 => exact .inr (.inr rfl)
  | case3 _ _ _ _ _ _ ih => exact ih
  | case4 => exact .inr (.inl rfl)

theorem editFlag_ne_four (k : SignFlag) : editFlag k ≠ .four := by cases k <;> decide

/-! The Condition Codes that instructions write. -/

section
variable {s t : State} (hhost : s.host < s.parts.length)
include hhost

theorem State.finish_me_cc (m : Memory) (cc : ConditionCode) : (s.finish m cc).me.cc = cc := by
  rw [State.me_finish s m cc hhost]

theorem arithmetic_cc {la lb : Nat} {a b : Operand} {result : List Character → List Character → FieldResult}
    (hresult : ∀ x y, (result x y).OneFlag) (h : s.arithmetic la lb a b result = .ok t) :
    ∃ k, t.me.cc = .only k := by
  obtain ⟨pa, pb, -, -, -, r, rfl, rfl⟩ := State.arithmetic_ok.mp h
  rw [State.finish_me_cc hhost]
  split
  · exact unspecifiedResult_oneFlag _ _
  · exact hresult _ _

theorem move_cc {n : Nat} {a b : Operand} {loop : Memory → Nat → Nat → Nat → Memory}
    (h : s.move n a b loop = .ok t) : t.me.cc = .only .two := by
  obtain ⟨pa, pb, -, -, -, rfl⟩ := State.move_ok.mp h
  exact State.finish_me_cc hhost _ _

theorem exchange_cc {n : Nat} {a b : Operand} (h : s.exchange n a b = .ok t) : t.me.cc = .only .two := by
  obtain ⟨pa, pb, -, -, -, rfl⟩ := State.exchange_ok.mp h
  exact State.finish_me_cc hhost _ _

theorem compare_cc {n : Nat} {a b : Operand} (h : s.compare n a b = .ok t) :
    t.me.cc = .only .one ∨ t.me.cc = .equal ∨ t.me.cc = .greater := by
  obtain ⟨pa, pb, -, -, -, rfl⟩ := State.compare_ok.mp h
  rw [State.finish_me_cc hhost]
  exact compareFields_cases _ _

theorem edit_cc {n : Nat} {a b : Operand} (h : s.edit n a b = .ok t) : ∃ k, k ≠ .four ∧ t.me.cc = .only k := by
  obtain ⟨pa, pb, m, -, -, -, -, r, rfl, rfl⟩ := State.edit_ok.mp h
  rw [State.finish_me_cc hhost]
  split
  · exact ⟨_, editFlag_ne_four _, rfl⟩
  · exact ConditionCode.ofSign_only _ _

end

/-! Branch leaves the Condition Code as it is. -/

theorem State.modifyMe_cc {s : State} {f : Partition → Partition} {q : Nat} (hf : ∀ p, (f p).cc = p.cc) :
    ((s.modifyMe f).part q).cc = (s.part q).cc := (KeepsCodes.modifyPart hf).cc q

theorem State.taken_cc (s : State) (target : InstrAddress) (forced : Bool) (q : Nat) :
    ((s.taken target forced).part q).cc = (s.part q).cc := by
  unfold State.taken
  split
  · exact State.modifyMe_cc fun _ => rfl
  · exact State.modifyMe_cc fun _ => rfl

theorem State.advance_cc (s : State) (q : Nat) : (s.advance.part q).cc = (s.part q).cc :=
  State.modifyMe_cc fun _ => rfl

theorem branch_cc {s t : State} {variant : Nat} {lb : Numeric} {a b : BranchAddress}
    (h : s.branch variant lb a b = .ok t) (q : Nat) : (t.part q).cc = (s.part q).cc := by
  rcases State.branch_ok.mp h with ⟨-, -, rfl⟩ | ⟨-, -, -, -, rfl⟩ | ⟨-, -, -, rfl⟩
  · exact s.taken_cc _ _ q
  · exact s.taken_cc _ _ q
  · exact s.advance_cc q

theorem link_cc {s t : State} {lb : Numeric} {a b : BranchAddress} (h : s.link lb a b = .ok t) (q : Nat) :
    (t.part q).cc = (s.part q).cc := by
  obtain ⟨-, ⟨-, rfl⟩ | ⟨-, -, -, -, -, rfl⟩⟩ := State.link_ok.mp h
  · exact s.advance_cc q
  · exact State.taken_cc (s.setMem _) _ _ q

theorem serviceRequest_cc {s t : State} {lb : Numeric} {a b : BranchAddress} (h : s.serviceRequest lb a b = .ok t)
    (q : Nat) : (t.part q).cc = (s.part q).cc := by
  obtain ⟨-, ⟨-, rfl⟩ | ⟨d, -, -, -, -, p, -, rfl⟩⟩ := State.serviceRequest_ok.mp h
  · exact s.advance_cc q
  · exact (State.taken_cc _ _ _ q).trans (State.modifyMe_cc fun _ => rfl)

/-! The operation code that selects the clause. -/

@[simp] theorem operandFields_f (f la lb : Numeric) (a b : Operand) : (operandFields f la lb a b).f = f := rfl
@[simp] theorem lengthFields_f (f : Numeric) (la lb : Nat) (a b : Operand) : (lengthFields f la lb a b).f = f := rfl
@[simp] theorem branchFields_f (la lb : Numeric) (a b : BranchAddress) : (branchFields la lb a b).f = 11 := rfl

/-- Settles O16: an operation code falls under one clause at most, and what its instructions write is said above. -/
theorem conditionCodeSettings : Obligations.ConditionCodeSettings := by
  intro i s t hhost h
  cases i with
  | read | write => simp [Instr.fields]
  | unassigned2 | unassigned3 | unassigned10 => cases h
  | add | subtract =>
    have hcc := arithmetic_cc hhost (addFields_oneFlag _ _) (State.outcome_next.mp h)
    simp [Instr.fields, hcc]
  | multiply =>
    have hcc := arithmetic_cc hhost (multiplyFields_oneFlag _) (State.outcome_next.mp h)
    simp [Instr.fields, hcc]
  | divide =>
    have hcc := arithmetic_cc hhost (fun _ _ => divideFields_oneFlag _ _ _ _) (State.outcome_next.mp h)
    simp [Instr.fields, hcc]
  | formNumeric =>
    have hcc := arithmetic_cc hhost (fun _ _ => formFields_oneFlag _ _ _) (State.outcome_next.mp h)
    simp [Instr.fields, hcc]
  | moveCharacter | moveNumeric =>
    have hcc := move_cc hhost (State.outcome_next.mp h)
    simp [Instr.fields, hcc]
  | exchange =>
    have hcc := exchange_cc hhost (State.outcome_next.mp h)
    simp [Instr.fields, hcc]
  | compare =>
    have hcc := compare_cc hhost (State.outcome_next.mp h)
    simpa [Instr.fields] using hcc
  | edit =>
    have hcc := edit_cc hhost (State.outcome_next.mp h)
    simpa [Instr.fields] using hcc
  | link =>
    have hcc : (t.part s.host).cc = s.me.cc := link_cc (State.outcome_next.mp h) s.host
    simpa [Instr.fields] using hcc
  | serviceRequest =>
    have hcc : (t.part s.host).cc = s.me.cc := serviceRequest_cc (State.outcome_next.mp h) s.host
    simpa [Instr.fields] using hcc
  | branch0 | branch1 | branch2 | branch3 | branch4 | branch5 | branch8 | branch9 =>
    have hcc : (t.part s.host).cc = s.me.cc := branch_cc (State.outcome_next.mp h) s.host
    simpa [Instr.fields] using hcc

end Sys2Proof.Machine
end

section
/-! SUPPORT. The value of an index register, the faults of forming it, and that every indexed instruction stops with
them (10_state.md R31; 20_memory.md R64; 60_exceptions.md R361, R362). -/

namespace Sys2Proof.Machine

/-- The four characters of an index register lie in the space of the host partition exactly when the installed
partition has them. -/
theorem State.indexPlace_inRange (s : State) (i : Index) :
    s.InRange (s.indexPlace i) 4 ↔ 10 * Index.number i + 1 + 4 ≤ s.me.setting.size := by
  show 10 * Index.number i + 1 + 4 ≤ min s.me.setting.size Config.spaceLimit ↔ _
  have hlimit : 10 * Index.number i + 1 + 4 ≤ Config.spaceLimit := by cases i <;> decide
  omega

theorem indexStart_eq {i : Index} {loc : Nat} (h : loc ∈ indexStart i) :
    i ≠ .unindexed ∧ loc = 10 * Index.number i + 1 := by
  cases i <;> simp_all [indexStart, Index.number]

/-- The characters of a field of four. -/
theorem State.field_four (s : State) (sp : Space) (loc : Nat) :
    s.field { space := sp, loc := loc } 4 = [s.at sp loc, s.at sp (loc + 1), s.at sp (loc + 2), s.at sp (loc + 3)] := by
  simp only [State.field, Memory.readField, State.at, Place.key, Space.key_add]

theorem State.allDecimal_indexPlace (s : State) (i : Index) :
    allDecimal (s.field (s.indexPlace i) 4) = true ↔
      ∀ k < 4, num (s.at (.part s.host) (10 * Index.number i + 1 + k)) < 10 := by
  rw [State.indexPlace, State.field_four]
  simp only [allDecimal, List.all_cons, List.all_nil, Bool.and_true, Bool.and_eq_true, decide_eq_true_eq]
  constructor
  · rintro ⟨h0, h1, h2, h3⟩ k hk
    interval_cases k <;> assumption
  · intro h
    exact ⟨h 0 (by omega), h 1 (by omega), h 2 (by omega), h 3 (by omega)⟩

theorem State.IndexMissing.indexValue {s : State} {i : Index} (h : s.IndexMissing i) :
    s.indexValue i = .error .addressRange := by
  obtain ⟨loc, hloc, hsize⟩ := h
  obtain ⟨hi, rfl⟩ := indexStart_eq hloc
  rw [s.indexValue_eq hi, if_pos]
  rw [State.indexPlace_inRange]
  omega

theorem State.IndexNotDecimal.indexValue {s : State} {i : Index} (h : s.IndexNotDecimal i) :
    s.indexValue i = .error .nonDecimalDigit := by
  obtain ⟨loc, hloc, hsize, k, hk, hnum⟩ := h
  obtain ⟨hi, rfl⟩ := indexStart_eq hloc
  have hnot : ¬ allDecimal (s.field (s.indexPlace i) 4) = true := fun hall =>
    absurd ((s.allDecimal_indexPlace i).mp hall k hk) (by omega)
  rw [s.indexValue_eq hi, if_neg (not_not.mpr (s.indexPlace_inRange i |>.mpr hsize)), if_neg hnot]

theorem State.IndexHolds.indexValue {s : State} {i : Index} {x : Nat} (h : s.IndexHolds i x) :
    s.indexValue i = .ok x := by
  have hregister : ∀ j : Index, j ≠ .unindexed →
      State.IndexHolds.holds s x (10 * Index.number j + 1) → s.indexValue j = .ok x := by
    rintro j hj ⟨hsize, hdecimal, rfl⟩
    rw [s.indexValue_eq hj, if_neg (not_not.mpr ((s.indexPlace_inRange j).mpr hsize)),
      if_pos ((s.allDecimal_indexPlace j).mpr hdecimal), State.indexPlace, State.field_four]
    simp [magnitude, dec]
    omega
  cases i with
  | unindexed => exact congrArg Except.ok h.symm
  | one => exact hregister .one (by decide) h
  | two => exact hregister .two (by decide) h
  | three => exact hregister .three (by decide) h

/-! Both effective addresses. -/

theorem State.effective_error_a {s : State} {a : Operand} {kind : FaultKind} (h : s.indexValue a.index = .error kind)
    (b : Operand) : s.effective a b = .error kind := by
  unfold State.effective
  rw [h]
  rfl

theorem State.effective_error_b {s : State} {a b : Operand} {xa : Nat} {kind : FaultKind}
    (ha : s.indexValue a.index = .ok xa) (h : s.indexValue b.index = .error kind) :
    s.effective a b = .error kind := by
  unfold State.effective
  rw [ha, h]
  rfl

theorem State.effective_above_9999 {s : State} {a b : Operand} {xa xb : Nat} (ha : s.indexValue a.index = .ok xa)
    (hb : s.indexValue b.index = .ok xb) (h : 9999 < a.addr + xa ∨ 9999 < b.addr + xb) :
    s.effective a b = .error .addressRange := by
  unfold State.effective addressSum
  rw [ha, hb]
  by_cases hsum : a.addr + xa ≤ 9999
  · have hsum' : ¬ b.addr + xb ≤ 9999 := by omega
    simp [bind, Except.bind, hsum, hsum']
  · simp [bind, Except.bind, hsum]

/-! Every instruction with indexed operands forms its addresses before anything else can stop it. -/

theorem transferOf_error {s : State} {device : Nat} {channel : Channel} {a b : Operand} {kind : FaultKind}
    (hdev : channel = .ioc ∨ device ∈ [0, 1, 2, 3, 4, 8]) (h : s.effective a b = .error kind)
    (check : Place → Nat → Except FaultKind Unit) :
    s.transferOf device channel a b check = .error kind := by
  have hknown : ¬ (channel == Channel.fac && !facDevice device) = true := by
    rcases hdev with rfl | hdev
    · simp
    · have hall : ∀ d ∈ [0, 1, 2, 3, 4, 8], facDevice d = true := by decide
      simp [hall device hdev]
  unfold State.transferOf
  rw [if_neg hknown, h]
  rfl

theorem stops_of_effective_error {s : State} {la lb device : Nat} {channel : Channel} {mode : FillMode}
    {kind : WriteKind} {a b : Operand} {fault : FaultKind} (hdev : channel = .ioc ∨ device ∈ [0, 1, 2, 3, 4, 8])
    (h : s.effective a b = .error fault) :
    ∀ i ∈ indexedForms la lb device channel mode kind a b, s.Stops i fault := by
  have hbind : ∀ f : Place × Place → Except FaultKind State, s.effective a b >>= f = .error fault := by
    intro f
    rw [h]
    rfl
  have hstops : ∀ x : Except FaultKind State, x = .error fault →
      s.outcome x = .fault (fault.at { partition := s.host, pc := s.me.pc }) := by
    rintro _ rfl
    rfl
  have htransfer : ∀ (check : Place → Nat → Except FaultKind Unit) (f : Transfer → Except FaultKind State),
      s.transferOf device channel a b check >>= f = .error fault := by
    intro check f
    rw [transferOf_error hdev h]
    rfl
  intro i hi
  simp only [indexedForms, List.mem_cons, List.not_mem_nil, or_false] at hi
  rcases hi with rfl | rfl | rfl | rfl | rfl | rfl | rfl | rfl | rfl | rfl | rfl | rfl
  iterate 10 exact hstops _ (hbind _)
  all_goals exact hstops _ (htransfer _ _)

/-- Settles O18: the register of A is read first, then that of B, then the sums are formed. -/
theorem indexingFaults : Obligations.IndexingFaults := by
  intro s la lb device channel mode kind a b hdev i hi
  have hstops : ∀ {fault : FaultKind}, s.effective a b = .error fault → s.Stops i fault :=
    fun h => stops_of_effective_error hdev h i hi
  refine ⟨fun h => hstops (State.effective_error_a h.indexValue b),
    fun h => hstops (State.effective_error_a h.indexValue b),
    fun xa ha => ⟨fun h => ?_, fun h => ?_, fun xb hb h => ?_⟩⟩
  · exact hstops (State.effective_error_b ha.indexValue h.indexValue)
  · exact hstops (State.effective_error_b ha.indexValue h.indexValue)
  · exact hstops (State.effective_above_9999 ha.indexValue hb.indexValue h)

end Sys2Proof.Machine
end

section
/-! SUPPORT. The reset state, the faults of a fetch, and what the buffer of an IOC takes (10_state.md R37, R43, R50;
60_exceptions.md R361, R362). -/

namespace Sys2Proof.Machine

/-! The reset state. -/

theorem reset_legalInstallation : State.reset.LegalInstallation := by
  refine ⟨by decide, by decide, by decide, by decide, by decide, by decide, ?_, by decide, ?_, by decide, by decide⟩
  · intro p hp
    rw [List.mem_singleton.mp hp]
    exact le_refl Config.spaceLimit
  · exact fun _ hbase => nomatch hbase

/-- Every partition of the reset state, the absent ones included, is without an operation and a request. -/
theorem reset_part (q : Nat) :
    (State.reset.part q).io = none ∧ (State.reset.part q).srq = none ∧ (State.reset.part q).poll = 0 ∧
      (State.reset.part q).pc.loc = 0 := by
  cases q <;> exact ⟨rfl, rfl, rfl, rfl⟩

theorem reset_legal : State.reset.Legal where
  installation := reset_legalInstallation
  memory := rfl
  storage := fun _ hcell => nomatch hcell
  host := by decide
  partitions q _ := by
    obtain ⟨hio, hsrq, hpoll, hpc⟩ := reset_part q
    exact ⟨by omega, by omega, by simp [hsrq], by simp [hio]⟩
  discs := fun _ hd => nomatch hd

/-- Settles O8: nothing is in progress at reset, and the default installation has the ranges of 00_scope.md R6. -/
theorem resetIsLegal : Obligations.ResetIsLegal := by
  refine ⟨reset_legal, fun q => ?_, rfl⟩
  obtain ⟨hio, -⟩ := reset_part q
  exact hio

/-! The faults of a fetch. -/

theorem Partition.waiting_eq_false {p : Partition} (h : ∀ o, p.io = some o → o.done ≠ none) :
    p.waiting = false := by
  unfold Partition.waiting
  cases hio : p.io with
  | none => rfl
  | some o => simpa using Option.isSome_iff_ne_none.mpr (h o hio)

/-- A step of a host partition that neither waits nor stands at a stop address runs the instruction at its P, after the
boundary and the collection of an ended operation. -/
theorem step_eq_runInstruction {s : State} (hio : ∀ o, s.boundary.me.io = some o → o.done ≠ none)
    (hstop : s.boundary.resume.me.pc ∉ s.boundary.resume.me.setting.stop) :
    step s = s.boundary.resume.runInstruction := by
  have hfinished : s.boundary.resume.finished = false := by
    simpa only [State.finished, ← Bool.not_eq_true, List.contains_iff_mem] using hstop
  unfold step State.act State.proceed
  rw [Partition.waiting_eq_false hio, hfinished]
  rfl

theorem runInstruction_of_fetch_error {s : State} {kind : FaultKind} (h : s.fetch = .error kind) :
    s.runInstruction = .fault (kind.at { partition := s.host, pc := s.me.pc }) := by
  unfold State.runInstruction
  rw [h]
  rfl

theorem fetch_misaligned {s : State} (h : s.me.pc.loc % 10 ≠ 0) : s.fetch = .error .misalignedInstruction := by
  unfold State.fetch State.checkFetch
  rw [if_pos h]
  rfl

theorem fetch_of_readFault {s : State} {kind : FaultKind} (halign : s.me.pc.loc % 10 = 0)
    (h : s.ReadFault s.fetchPlace 10 kind) : s.fetch = .error kind := by
  unfold State.fetch State.checkFetch
  rw [if_neg (not_not.mpr halign), State.checkRead_error.mpr h]
  rfl

theorem fetch_undecodable {s : State} {e : DecodeError} (halign : s.me.pc.loc % 10 = 0)
    (hread : s.CanRead s.fetchPlace 10) (h : decode s.inst.layout (s.field s.fetchPlace 10) = .error e) :
    s.fetch = .error .reservedEncoding := by
  unfold State.fetch State.checkFetch
  rw [if_neg (not_not.mpr halign), State.checkRead_ok.mpr hread, h]
  cases e <;> rfl

/-- Settles O20: a step that is about to fetch answers what the fetch answers. -/
theorem fetchFaults : Obligations.FetchFaults := by
  rintro s t p hio rfl hstop rfl
  rw [step_eq_runInstruction hio hstop]
  exact ⟨fun halign => runInstruction_of_fetch_error (fetch_misaligned halign),
    fun halign hrange => runInstruction_of_fetch_error (fetch_of_readFault halign (.inl ⟨rfl, hrange⟩)),
    fun halign hrange haccess =>
      runInstruction_of_fetch_error (fetch_of_readFault halign (.inr ⟨rfl, hrange, haccess⟩)),
    fun e halign hread hdecode => runInstruction_of_fetch_error (fetch_undecodable halign hread hdecode)⟩

/-! The buffer of an IOC. -/

theorem signalFits_iff {d : Direction} {x : IocSignal} : signalFits d x = true ↔ Asked d x := by
  cases d <;> cases x <;> simp [signalFits, Asked]

/-- An IOC takes a signal exactly when its buffer is empty and its operation in progress asks for it. -/
theorem Partition.accepts_iff {p : Partition} {x : IocSignal} :
    p.accepts x = true ↔ p.signal = none ∧ ∃ o, p.io = some o ∧ o.done = none ∧ Asked o.direction x := by
  simp only [Partition.accepts, Bool.and_eq_true, Option.isNone_iff_eq_none, Option.any_eq_true, signalFits_iff]

/-- The partition of an IOC after a signal has arrived. -/
theorem State.part_arriveOne_signal {s : State} {q : Nat} (hq : q < s.parts.length) (x : IocSignal) :
    (s.arriveOne (.signal q x)).part q =
      if (s.part q).accepts x then { s.part q with signal := some x } else s.part q := by
  show (s.modifyPart q _).part q = _
  rw [State.part_modifyPart, if_pos ⟨rfl, hq⟩]
  split <;> rfl

/-- Settles O53: the three cases of a signal are those of `Partition.accepts_iff`. -/
theorem iocBufferHoldsOne : Obligations.IocBufferHoldsOne := by
  intro s q x hq
  rw [State.part_arriveOne_signal hq]
  refine ⟨fun hfull => if_neg fun hacc => ?_, fun hnone => if_neg fun hacc => ?_,
    fun o hempty hio hdone hasked => if_pos ?_, fun q' hq' => ?_⟩
  · obtain ⟨hempty, -⟩ := Partition.accepts_iff.mp hacc
    exact hfull hempty
  · obtain ⟨-, o, hio, hdone, hasked⟩ := Partition.accepts_iff.mp hacc
    rcases hnone o hio with hended | hnot
    · exact hended hdone
    · exact hnot hasked
  · exact Partition.accepts_iff.mpr ⟨hempty, o, hio, hdone, hasked⟩
  · show (s.modifyPart q _).part q' = _
    rw [State.part_modifyPart, if_neg fun h => hq' h.1]

end Sys2Proof.Machine
end

section
/-! SUPPORT. No instruction and no transfer stores into the Protected Area (20_memory.md R71; 49_read_write.md R317):
what an instruction stores lies in fields that passed their store check, and the input area of a legal operation lies
outside. -/

namespace Sys2Proof.Machine

/-- A field inside its space that does not begin in the Protected Area holds no location of it. -/
theorem State.InRange.outside_protected {s : State} {p : Place} {n loc : Nat} (h : s.InRange p n)
    (hst : s.Storable p) (hloc : loc < Config.protectedEnd) :
    Space.common.key loc < p.key ∨ p.key + n ≤ Space.common.key loc := by
  have hlimit : loc < Config.spaceLimit := lt_trans hloc (by decide)
  have hout := mt (Place.key_in_field (sp := .common) h.le hlimit).mp fun ⟨hsp, hlo, _⟩ =>
    hst ⟨hsp.symm, lt_of_le_of_lt hlo hloc⟩
  omega

/-! What an instruction stores. -/

/-- Main Memory of t reads as that of s but in fields that the host partition of s may store into. -/
def StoresChecked (s t : State) : Prop :=
  ∀ k, (∀ p n, s.CanWrite p n → k < p.key ∨ p.key + n ≤ k) → t.mem.read k = s.mem.read k

theorem StoresChecked.of_mem_eq {s t : State} (h : t.mem = s.mem) : StoresChecked s t := fun _ _ => by rw [h]

theorem StoresChecked.of_field {s t : State} {p : Place} {n : Nat} (hw : s.CanWrite p n)
    (hout : ∀ j, j < p.key ∨ p.key + n ≤ j → t.mem.read j = s.mem.read j) : StoresChecked s t :=
  fun _ hk => hout _ (hk p n hw)

theorem StoresChecked.of_stored {s t : State} {p : Place} {n : Nat} {cs : List Character} (hw : s.CanWrite p n)
    (hcs : cs.length ≤ n) (ht : t.mem = s.stored p cs) : StoresChecked s t :=
  .of_field hw fun _ hj => by
    rw [ht]
    exact Memory.read_writeField_outside _ _ _ _ (by omega)

theorem arithmetic_storesChecked {s t : State} {la lb : Nat} {a b : Operand}
    {result : List Character → List Character → FieldResult}
    (hlen : ∀ x y, x.length = la → y.length = lb → (result x y).chars.length = lb)
    (h : s.arithmetic la lb a b result = .ok t) : StoresChecked s t := by
  obtain ⟨pa, pb, -, -, hw, r, hr, rfl⟩ := State.arithmetic_ok.mp h
  have hrlen : r.chars.length = lb := by
    rw [hr]
    split
    · exact freeField_length _ _
    · exact hlen _ _ (State.field_length _ _ _) (State.field_length _ _ _)
  exact .of_stored hw hrlen.le rfl

theorem move_storesChecked {s t : State} {n : Nat} {a b : Operand} {loop : Memory → Nat → Nat → Nat → Memory}
    (hloop : ∀ m ka kb j, j < kb ∨ kb + n ≤ j → (loop m ka kb n).read j = m.read j)
    (h : s.move n a b loop = .ok t) : StoresChecked s t := by
  obtain ⟨pa, pb, -, -, hw, rfl⟩ := State.move_ok.mp h
  exact .of_field hw (hloop _ _ _)

theorem exchange_storesChecked {s t : State} {n : Nat} {a b : Operand} (h : s.exchange n a b = .ok t) :
    StoresChecked s t := by
  obtain ⟨pa, pb, -, hwa, hwb, rfl⟩ := State.exchange_ok.mp h
  exact fun _ hk => exchangeLoop_outside _ _ _ _ _ (hk pa n hwa) (hk pb n hwb)

theorem compare_storesChecked {s t : State} {n : Nat} {a b : Operand} (h : s.compare n a b = .ok t) :
    StoresChecked s t := by
  obtain ⟨pa, pb, -, -, -, rfl⟩ := State.compare_ok.mp h
  exact .of_mem_eq rfl

theorem edit_storesChecked {s t : State} {n : Nat} {a b : Operand} (h : s.edit n a b = .ok t) :
    StoresChecked s t := by
  obtain ⟨pa, pb, m, -, -, -, hw, r, hr, rfl⟩ := State.edit_ok.mp h
  have hrlen : r.chars.length ≤ m := by
    rw [hr]
    split
    · exact (freeField_length _ _).le
    · exact (editField_length_le _ _ _ _ _).trans (State.field_length _ _ _).le
  exact .of_stored hw hrlen rfl

theorem branch_storesChecked {s t : State} {variant : Nat} {lb : Numeric} {a b : BranchAddress}
    (h : s.branch variant lb a b = .ok t) : StoresChecked s t := by
  rcases State.branch_ok.mp h with ⟨-, -, rfl⟩ | ⟨-, -, -, -, rfl⟩ | ⟨-, -, -, rfl⟩
  · exact .of_mem_eq (State.taken_mem _ _ _)
  · exact .of_mem_eq (State.taken_mem _ _ _)
  · exact .of_mem_eq rfl

theorem link_storesChecked {s t : State} {lb : Numeric} {a b : BranchAddress} (h : s.link lb a b = .ok t) :
    StoresChecked s t := by
  obtain ⟨-, ⟨-, rfl⟩ | ⟨-, -, -, -, hw, rfl⟩⟩ := State.link_ok.mp h
  · exact .of_mem_eq rfl
  · exact .of_stored hw (returnCharacters_length _ _ (State.field_length _ _ _)).le (State.taken_mem _ _ _)

theorem serviceRequest_storesChecked {s t : State} {lb : Numeric} {a b : BranchAddress}
    (h : s.serviceRequest lb a b = .ok t) : StoresChecked s t := by
  obtain ⟨-, ⟨-, rfl⟩ | ⟨d, -, -, -, hw, p, rfl, rfl⟩⟩ := State.serviceRequest_ok.mp h
  · exact .of_mem_eq rfl
  · exact .of_stored (cs := [_]) hw (le_refl 1) (State.taken_mem _ _ _)

/-- A Read through the FAC stores into its whole area. -/
theorem facRead_storesChecked {s : State} {r : Transfer} (hw : s.CanWrite r.area r.count) :
    StoresChecked s (s.facRead r) :=
  .of_stored (cs := s.facInput s.facAnswer r.count) hw (by simp [State.facInput]) rfl

/-- The issue on the IOC stores nothing yet; a disc access stores what its transfer does, whichever discs are bound. -/
theorem onChannel_storesChecked {s : State} {direction : Direction} {device : Nat} {channel : Channel}
    {common : Bool} {r : Transfer} {transfer : State → State} (hfac : StoresChecked s (transfer s))
    (hdisc : ∀ unit, StoresChecked (s.bindDisc device unit) (transfer (s.bindDisc device unit))) :
    StoresChecked s (s.onChannel direction device channel common r transfer) := by
  obtain ⟨area, count, disc⟩ := r
  cases channel with
  | ioc => exact .of_mem_eq rfl
  | fac =>
    cases disc with
    | none => exact hfac
    | some address =>
      rw [State.onChannel_disc]
      rcases s.discAttempt_cases device (discAddress address).device transfer with
        ⟨-, hcase⟩ | ⟨-, -, hcase⟩ | ⟨-, -, hcase⟩
      · exact .of_mem_eq (by rw [hcase, State.switchPartition_mem])
      · exact .of_mem_eq (by rw [hcase, State.switchPartition_mem, State.bindDisc_mem])
      · rw [hcase]
        exact hdisc _

theorem execRead_storesChecked {device : Nat} {channel : Channel} {mode : FillMode} {a b : Operand} {s t : State}
    (h : execRead device channel mode a b s = .next t) : StoresChecked s t := by
  obtain ⟨r, hr, rfl⟩ := execRead_next.mp h
  obtain ⟨hcheck, -⟩ := State.transferOf_area hr
  have hw := State.checkWrite_ok.mp hcheck
  exact onChannel_storesChecked (facRead_storesChecked hw) fun unit =>
    facRead_storesChecked (s := s.bindDisc device unit) hw

theorem execWrite_storesChecked {device : Nat} {channel : Channel} {kind : WriteKind} {a b : Operand} {s t : State}
    (h : execWrite device channel kind a b s = .next t) : StoresChecked s t := by
  obtain ⟨r, -, rfl⟩ := execWrite_next.mp h
  exact onChannel_storesChecked (.of_mem_eq rfl) fun _ => .of_mem_eq rfl

/-- Every instruction stores only into fields that passed their store check. -/
theorem exec_storesChecked {i : Instr} {s t : State} (h : exec i s = .next t) : StoresChecked s t := by
  cases i with
  | read device channel mode a b => exact execRead_storesChecked h
  | write device channel kind a b => exact execWrite_storesChecked h
  | unassigned2 | unassigned3 | unassigned10 => cases h
  | add la lb a b | subtract la lb a b =>
    exact arithmetic_storesChecked (fun _ _ _ hy => (addFields_length _ _ _ _).trans hy) (State.outcome_next.mp h)
  | multiply la lb a b =>
    exact arithmetic_storesChecked (fun _ _ _ hy => (multiplyFields_length _ _ _).trans hy)
      (State.outcome_next.mp h)
  | divide la lb a b =>
    exact arithmetic_storesChecked (fun _ _ hx hy => (divideFields_length _ _ _ _ (by rw [hx, hy])).trans hy)
      (State.outcome_next.mp h)
  | formNumeric la lb a b =>
    exact arithmetic_storesChecked (fun _ _ _ hy => (formFields_length _ _ _).trans hy) (State.outcome_next.mp h)
  | moveCharacter la lb a b =>
    exact move_storesChecked (fun m ka kb => moveLoop_outside m ka kb _) (State.outcome_next.mp h)
  | moveNumeric la lb a b =>
    exact move_storesChecked (fun m ka kb => moveNumericLoop_outside m ka kb _) (State.outcome_next.mp h)
  | exchange la lb a b => exact exchange_storesChecked (State.outcome_next.mp h)
  | compare la lb a b => exact compare_storesChecked (State.outcome_next.mp h)
  | edit la lb a b => exact edit_storesChecked (State.outcome_next.mp h)
  | link lb a b => exact link_storesChecked (State.outcome_next.mp h)
  | serviceRequest lb a b => exact serviceRequest_storesChecked (State.outcome_next.mp h)
  | branch0 lb a b | branch1 lb a b | branch2 lb a b | branch3 lb a b | branch4 lb a b | branch5 lb a b
  | branch8 lb a b | branch9 lb a b => exact branch_storesChecked (State.outcome_next.mp h)

/-! The Protected Area. -/

/-- Every location of the Protected Area reads in t as in s. -/
def KeepsProtected (s t : State) : Prop := ∀ loc, loc < Config.protectedEnd → t.at .common loc = s.at .common loc

theorem KeepsProtected.of_mem_eq {s t : State} (h : t.mem = s.mem) : KeepsProtected s t :=
  fun _ _ => by rw [State.at, State.at, h]

theorem KeepsProtected.trans {s t u : State} (h : KeepsProtected s t) (h' : KeepsProtected t u) :
    KeepsProtected s u :=
  fun loc hloc => (h' loc hloc).trans (h loc hloc)

theorem StoresChecked.keepsProtected {s t : State} (h : StoresChecked s t) : KeepsProtected s t :=
  fun _ hloc => h _ fun _ _ ⟨hin, hst, _⟩ => hin.outside_protected hst hloc

/-- The rest of the input area of a Read in progress lies outside the Protected Area. -/
theorem State.LegalOperation.storable {s : State} {q : Nat} {o : IocOperation} {mode : FillMode}
    (h : s.LegalOperation q o) (hdir : o.direction = .read mode) : s.Storable (o.place q) := by
  obtain ⟨-, -, -, hregs, hle, -, hprot, -⟩ := h
  rintro ⟨hsp, hlow⟩
  have hcommon : o.common = true := by
    by_contra hnot
    simp [IocOperation.place, hnot] at hsp
  have hfirst := hprot hcommon ⟨mode, hdir⟩
  have hnext : o.next < Config.protectedEnd := hlow
  omega

/-- Characters stored in the rest of the input area of a Read in progress. -/
theorem KeepsProtected.storeInput {s t : State} {q : Nat} {o : IocOperation} {mode : FillMode}
    {cs : List Character} (h : s.LegalOperation q o) (hdir : o.direction = .read mode) (hcs : cs.length ≤ o.left)
    (ht : t.mem = s.stored (o.place q) cs) : KeepsProtected s t := fun _ hloc => by
  have hout := h.inRange.outside_protected (h.storable hdir) hloc
  rw [State.at, ht]
  exact Memory.read_writeField_outside _ _ _ _ (by omega)

theorem serviceRead_keepsProtected {s : State} (hs : s.Legal) {q : Nat} {mode : FillMode} {o : IocOperation}
    (x : IocSignal) (hio : (s.part q).io = some o) (hdir : o.direction = .read mode) (hdone : o.done = none) :
    KeepsProtected s (s.serviceRead q mode o x) := by
  have ho := hs.operation hio
  cases x with
  | character c outcome => exact .storeInput (cs := [c]) ho hdir (hs.read_left hio hdir hdone) rfl
  | unitSeparator outcome =>
    cases mode with
    | fill => exact .storeInput ho hdir (List.length_replicate (n := o.left) (a := BLANK)).le rfl
    | nonfill => exact .of_mem_eq rfl
  | ended how => exact .storeInput ho hdir (freeInput_length s.draws q o.left).le rfl
  | ready outcome => exact .of_mem_eq rfl

theorem serviceWrite_mem (s : State) (q : Nat) (kind : WriteKind) (o : IocOperation) (x : IocSignal) :
    (s.serviceWrite q kind o x).mem = s.mem := by
  cases x with
  | ready outcome =>
    dsimp only [State.serviceWrite]
    split <;> rfl
  | ended how => rfl
  | character c outcome => rfl
  | unitSeparator outcome => rfl

theorem service_keepsProtected {s : State} (hs : s.Legal) (q : Nat) : KeepsProtected s (s.service q) := by
  rcases s.service_cases q with h | ⟨o, x, hio, -, hdone, ⟨mode, hdir, h⟩ | ⟨kind, -, h⟩⟩
  · exact .of_mem_eq (by rw [h])
  · rw [h]
    exact serviceRead_keepsProtected hs x hio hdir hdone
  · exact .of_mem_eq (by rw [h, serviceWrite_mem])

/-- The channels are served one after the other, each in a legal state. -/
theorem serviceAll_keepsProtected {s : State} (hs : s.Legal) (order : List Nat) :
    KeepsProtected s (s.serviceAll order) := by
  induction order generalizing s with
  | nil => exact .of_mem_eq rfl
  | cons q order ih => exact (service_keepsProtected hs q).trans (ih ((service_keepsLegal s q).legal hs))

/-- What devices do reaches no memory before the service. -/
theorem arrive_mem (s : State) (events : List DeviceEvent) : (s.arrive events).mem = s.mem :=
  List.foldlRecOn events State.arriveOne (motive := fun t => t.mem = s.mem) rfl fun _ ht e _ => by
    cases e <;> exact ht

theorem boundary_keepsProtected {s : State} (hs : s.Legal) : KeepsProtected s s.boundary :=
  have hearly := arrive_keepsLegal s s.nextInput.early
  ((KeepsProtected.of_mem_eq (arrive_mem s _)).trans (serviceAll_keepsProtected (hearly.legal hs) _)).trans
    (.of_mem_eq ((State.tick_mem _ _).trans (arrive_mem _ _)))

/-- Settles O10: the boundary stores only into input areas of legal operations, and the instruction only into fields
that passed their store check. -/
theorem protectedAreaNeverChanges : Obligations.ProtectedAreaNeverChanges := by
  intro s t hs h
  refine (boundary_keepsProtected hs).trans ?_
  rcases step_next.mp h with ⟨-, rfl⟩ | ⟨-, -, rfl⟩ | ⟨-, -, i, -, hexec⟩
  · exact .of_mem_eq rfl
  · exact .of_mem_eq rfl
  · exact (exec_storesChecked hexec).keepsProtected

end Sys2Proof.Machine
end

section
/-! SUPPORT. The effective addresses, the faults of the operand fields, and the step that runs the decoded instruction
(20_memory.md R62, R71 to R75, R84; 60_exceptions.md R362). -/

namespace Sys2Proof.Machine

/-- Settles O17: both registers are read, and neither sum is above 9999. -/
theorem effectiveAddresses : Obligations.EffectiveAddresses :=
  fun _ _ _ _ _ ha hb hsuma hsumb =>
    State.effective_ok.mpr ⟨_, _, ha.indexValue, hb.indexValue, hsuma, hsumb, rfl, rfl⟩

/-! The operand fields: A is checked and then B, before the instruction does anything. -/

theorem State.outcome_of_error {s : State} {x : Except FaultKind State} {kind : FaultKind} (h : x = .error kind) :
    s.outcome x = .fault (kind.at { partition := s.host, pc := s.me.pc }) := by
  rw [h, State.outcome_error]

/-- Of two checks, the fault of the first ends the instruction, or that of the second when the first passes. -/
theorem Except.checks_error {ε β : Type} {x y : Except ε Unit} {e : ε}
    (h : x = .error e ∨ x = .ok () ∧ y = .error e) (f : Unit → Except ε β) :
    (x >>= fun _ => y >>= f) = .error e :=
  Except.bind_error.mpr (h.imp_right fun ⟨hx, hy⟩ => ⟨(), hx, Except.bind_error.mpr (.inl hy)⟩)

section
variable {s : State} {a b : Operand} {pa pb : Place} {kind : FaultKind}

/-- What an instruction does once its addresses are formed. -/
theorem State.effective_bind (he : s.effective a b = .ok (pa, pb)) {β : Type}
    (f : Place × Place → Except FaultKind β) : s.effective a b >>= f = f (pa, pb) := by
  rw [he]
  rfl

theorem arithmetic_error {la lb : Nat} (he : s.effective a b = .ok (pa, pb))
    (h : s.ReadFault pa la kind ∨ s.CanRead pa la ∧ s.WriteFault pb lb kind)
    (result : List Character → List Character → FieldResult) : s.arithmetic la lb a b result = .error kind := by
  rw [← State.checkRead_error, ← State.checkRead_ok, ← State.checkWrite_error] at h
  exact (State.effective_bind he _).trans (Except.checks_error h _)

theorem move_error {n : Nat} (he : s.effective a b = .ok (pa, pb))
    (h : s.ReadFault pa n kind ∨ s.CanRead pa n ∧ s.WriteFault pb n kind)
    (loop : Memory → Nat → Nat → Nat → Memory) : s.move n a b loop = .error kind := by
  rw [← State.checkRead_error, ← State.checkRead_ok, ← State.checkWrite_error] at h
  exact (State.effective_bind he _).trans (Except.checks_error h _)

theorem compare_error {n : Nat} (he : s.effective a b = .ok (pa, pb))
    (h : s.ReadFault pa n kind ∨ s.CanRead pa n ∧ s.ReadFault pb n kind) : s.compare n a b = .error kind := by
  rw [← State.checkRead_error, ← State.checkRead_ok, ← State.checkRead_error] at h
  exact (State.effective_bind he _).trans (Except.checks_error h _)

theorem exchange_error {n : Nat} (he : s.effective a b = .ok (pa, pb))
    (h : s.WriteFault pa n kind ∨ s.CanWrite pa n ∧ s.WriteFault pb n kind) : s.exchange n a b = .error kind := by
  rw [← State.checkWrite_error, ← State.checkWrite_ok, ← State.checkWrite_error] at h
  exact (State.effective_bind he _).trans (Except.checks_error h _)

/-- Edit checks A before it scans for the control field. -/
theorem edit_error_a {n : Nat} (he : s.effective a b = .ok (pa, pb)) (h : s.ReadFault pa n kind) :
    s.edit n a b = .error kind :=
  (State.effective_bind he _).trans (Except.bind_error.mpr (.inl (State.checkRead_error.mpr h)))

/-- A scan that meets the end of the space. -/
theorem edit_error_scan {n : Nat} (he : s.effective a b = .ok (pa, pb)) (hread : s.CanRead pa n)
    (h : controlLength s.mem pb.key (s.sizeOf pb.space - pb.loc) n = none) : s.edit n a b = .error .addressRange := by
  refine (State.effective_bind he _).trans (Except.bind_error.mpr (.inr ⟨(), State.checkRead_ok.mpr hread, ?_⟩))
  simp only [h]
  rfl

/-- The control field that the scan has found is checked whole. -/
theorem edit_error_b {n m : Nat} (he : s.effective a b = .ok (pa, pb)) (hread : s.CanRead pa n)
    (hscan : controlLength s.mem pb.key (s.sizeOf pb.space - pb.loc) n = some m) (h : s.WriteFault pb m kind) :
    s.edit n a b = .error kind := by
  refine (State.effective_bind he _).trans (Except.bind_error.mpr (.inr ⟨(), State.checkRead_ok.mpr hread, ?_⟩))
  simp only [hscan]
  exact Except.bind_error.mpr (.inl (State.checkWrite_error.mpr h))

end

/-- Settles O19: each frame of the instructions stops with the first of its checks that fails. -/
theorem operandFaults : Obligations.OperandFaults := by
  intro s la lb a b pa pb kind he
  refine ⟨fun x hx => ?_,
    fun h => State.outcome_of_error (compare_error he (.inl h)),
    fun hread h => State.outcome_of_error (compare_error he (.inr ⟨hread, h⟩)),
    fun h => State.outcome_of_error (exchange_error he (.inl h)),
    fun hwrite h => State.outcome_of_error (exchange_error he (.inr ⟨hwrite, h⟩)),
    fun h => State.outcome_of_error (edit_error_a he h),
    fun hread => ⟨fun hscan => State.outcome_of_error (edit_error_scan he hread hscan),
      fun m hscan h => State.outcome_of_error (edit_error_b he hread hscan h)⟩⟩
  simp only [List.mem_cons, List.not_mem_nil, or_false] at hx
  rcases hx with rfl | rfl | rfl | rfl | rfl | rfl | rfl
  iterate 5
    exact ⟨fun h => State.outcome_of_error (arithmetic_error he (.inl h) _),
      fun hread h => State.outcome_of_error (arithmetic_error he (.inr ⟨hread, h⟩) _)⟩
  all_goals
    exact ⟨fun h => State.outcome_of_error (move_error he (.inl h) _),
      fun hread h => State.outcome_of_error (move_error he (.inr ⟨hread, h⟩) _)⟩

/-! The step. -/

theorem runInstruction_of_fetch {s : State} {i : Instr} (h : s.fetch = .ok i) : s.runInstruction = exec i s := by
  unfold State.runInstruction
  rw [h]

/-- Settles O7: the step is about to fetch, and the fetch answers the decoded instruction. -/
theorem stepRunsDecodedInstruction : Obligations.StepRunsDecodedInstruction := by
  rintro s t i hio rfl hstop halign hread hdecode
  exact (step_eq_runInstruction hio hstop).trans
    (runInstruction_of_fetch (State.fetch_ok.mpr ⟨halign, hread, hdecode⟩))

end Sys2Proof.Machine
end

section
/-! SUPPORT. Ten characters and their fields: writing the fields and reading them back undo each other, apart from bit-5
(30_encoding.md R101 to R105, R121). -/

namespace Sys2Proof

open Sys2Proof.Machine

/-! The bits of a character, F, the index fields and address digits. -/

@[simp] theorem bit7_character (z7 z5 : Bool) (n : Numeric) : bit7 (character z7 z5 n) = z7 := by
  simp only [bit7, character, BitVec.getLsbD_cast, BitVec.getLsbD_append]
  simp

@[simp] theorem numeric_character (z7 z5 : Bool) (n : Numeric) : numeric (character z7 z5 n) = n := by
  refine BitVec.eq_of_getLsbD_eq fun k hk => ?_
  simp only [numeric, character, BitVec.getLsbD_setWidth, BitVec.getLsbD_cast, BitVec.getLsbD_append]
  simp [hk]

@[simp] theorem Index.ofBits_upper_lower (i : Index) : Index.ofBits i.upper i.lower = i := by
  cases i <;> rfl

@[simp] theorem Index.upper_ofBits (z1 z0 : Bool) : (Index.ofBits z1 z0).upper = z1 := by
  cases z1 <;> cases z0 <;> rfl

@[simp] theorem Index.lower_ofBits (z1 z0 : Bool) : (Index.ofBits z1 z0).lower = z0 := by
  cases z1 <;> cases z0 <;> rfl

theorem operationCode_bits (f : Numeric) :
    operationCode (f.getLsbD 3) (f.getLsbD 2) (f.getLsbD 1) (f.getLsbD 0) = f := by
  revert f
  decide

theorem bits_operationCode (f3 f2 f1 f0 : Bool) :
    (operationCode f3 f2 f1 f0).getLsbD 3 = f3 ∧ (operationCode f3 f2 f1 f0).getLsbD 2 = f2 ∧
      (operationCode f3 f2 f1 f0).getLsbD 1 = f1 ∧ (operationCode f3 f2 f1 f0).getLsbD 0 = f0 := by
  revert f3 f2 f1 f0
  decide

theorem operationCode_toNat (f3 f2 f1 f0 : Bool) :
    (operationCode f3 f2 f1 f0).toNat = 8 * f3.toNat + 4 * f2.toNat + 2 * f1.toNat + f0.toNat := by
  revert f3 f2 f1 f0
  decide

/-- Four numeric portions that are digits are the digits of their value. -/
theorem AddressDigits.ofNat_value {d : AddressDigits} (h : d.decimal = true) : AddressDigits.ofNat d.value = d := by
  obtain ⟨d3, d2, d1, d0⟩ := d
  simp only [AddressDigits.decimal, decide_eq_true_eq] at h
  simp only [AddressDigits.ofNat, AddressDigits.value, AddressDigits.mk.injEq]
  refine ⟨?_, ?_, ?_, ?_⟩ <;> (apply BitVec.eq_of_toNat_eq; rw [BitVec.toNat_ofNat]; omega)

theorem AddressDigits.value_ofNat {n : Nat} (h : n < 10000) : (AddressDigits.ofNat n).value = n := by
  simp only [AddressDigits.ofNat, AddressDigits.value, BitVec.toNat_ofNat]
  omega

theorem AddressDigits.decimal_ofNat (n : Nat) : (AddressDigits.ofNat n).decimal = true := by
  simp only [AddressDigits.ofNat, AddressDigits.decimal, BitVec.toNat_ofNat, decide_eq_true_eq]
  omega

/-! The fields of ten characters. -/

/-- bit-7 of character k. -/
def zoneAt (cs : List Character) (k : Nat) : Bool := bit7 (cs.getD k BLANK)

/-- The numeric portion of character k. -/
def numericAt (cs : List Character) (k : Nat) : Numeric := numeric (cs.getD k BLANK)

/-- The fields that the decoder reads from ten characters (`fieldsOf_eq`). -/
def fieldsAt (lay : ZoneLayout) (cs : List Character) : Fields where
  f := operationCode (zoneAt cs 0) (zoneAt cs 1) (zoneAt cs 2) (zoneAt cs 3)
  la := numericAt cs 0
  a := { d3 := numericAt cs 1, d2 := numericAt cs 2, d1 := numericAt cs 3, d0 := numericAt cs 4 }
  lb := numericAt cs 5
  b := { d3 := numericAt cs 6, d2 := numericAt cs 7, d1 := numericAt cs 8, d0 := numericAt cs 9 }
  ac := zoneAt cs 4
  bc := zoneAt cs lay.bc
  ia := Index.ofBits (zoneAt cs lay.ia1) (zoneAt cs lay.ia0)
  ib := Index.ofBits (zoneAt cs lay.ib1) (zoneAt cs lay.ib0)

theorem eq_ten_of_length {α : Type} {cs : List α} (h : cs.length = 10) :
    ∃ c0 c1 c2 c3 c4 c5 c6 c7 c8 c9, cs = [c0, c1, c2, c3, c4, c5, c6, c7, c8, c9] := by
  match cs, h with
  | [c0, c1, c2, c3, c4, c5, c6, c7, c8, c9], _ => exact ⟨c0, c1, c2, c3, c4, c5, c6, c7, c8, c9, rfl⟩

theorem fieldsOf_eq (lay : ZoneLayout) (cs : List Character) :
    fieldsOf lay cs = if cs.length = 10 then some (fieldsAt lay cs) else none := by
  unfold fieldsOf
  split
  next => rfl
  next hne =>
    refine (if_neg fun hten => ?_).symm
    obtain ⟨c0, c1, c2, c3, c4, c5, c6, c7, c8, c9, rfl⟩ := eq_ten_of_length hten
    exact hne _ _ _ _ _ _ _ _ _ _ rfl

theorem decode_eq (lay : ZoneLayout) (cs : List Character) :
    decode lay cs = if cs.length = 10 then instrOf (fieldsAt lay cs) else .error .notTenCharacters := by
  unfold decode
  rw [fieldsOf_eq]
  split_ifs <;> rfl

/-- Ten characters decode as their fields do. -/
theorem decode_of_ten {lay : ZoneLayout} {cs : List Character} (hten : cs.length = 10) :
    decode lay cs = instrOf (fieldsAt lay cs) := (decode_eq lay cs).trans (if_pos hten)

theorem decode_ok {lay : ZoneLayout} {cs : List Character} {i : Instr} :
    decode lay cs = .ok i ↔ cs.length = 10 ∧ instrOf (fieldsAt lay cs) = .ok i := by
  rw [decode_eq]
  split_ifs with hten <;> simp [hten]

theorem getD_map_bit7_numeric (cs : List Character) (k : Nat) :
    (cs.map (fun c => (bit7 c, numeric c))).getD k (bit7 BLANK, numeric BLANK) = (zoneAt cs k, numericAt cs k) :=
  List.getD_map _ _ _

/-- The fields hold nothing but bit-7 and the numeric portion of characters (30_encoding.md R104). -/
theorem fieldsAt_congr (lay : ZoneLayout) {cs cs' : List Character}
    (h : cs.map (fun c => (bit7 c, numeric c)) = cs'.map (fun c => (bit7 c, numeric c))) :
    fieldsAt lay cs = fieldsAt lay cs' := by
  have hget : ∀ k, (zoneAt cs k, numericAt cs k) = (zoneAt cs' k, numericAt cs' k) := fun k => by
    rw [← getD_map_bit7_numeric, h, getD_map_bit7_numeric]
  have hzone : zoneAt cs = zoneAt cs' := funext fun k => congrArg Prod.fst (hget k)
  have hnumeric : numericAt cs = numericAt cs' := funext fun k => congrArg Prod.snd (hget k)
  simp only [fieldsAt, hzone, hnumeric]

/-! The zone bits of the right half (30_encoding.md R103). -/

section
variable {lay : ZoneLayout}

/-- Under a legal layout the five zone fields fill characters 5 to 9. -/
theorem ZoneLayout.Legal.mem_of_right (h : lay.Legal) {k : Nat} (h5 : 5 ≤ k) (h9 : k ≤ 9) :
    k ∈ [lay.ia1, lay.ia0, lay.ib1, lay.ib0, lay.bc] := by
  obtain ⟨hrange, hnodup⟩ := h
  have hright : ∀ j, j ∈ [5, 6, 7, 8, 9] ↔ 5 ≤ j ∧ j ≤ 9 := fun j => by
    simp only [List.mem_cons, List.not_mem_nil, or_false]
    omega
  have hsub : [lay.ia1, lay.ia0, lay.ib1, lay.ib0, lay.bc] ⊆ [5, 6, 7, 8, 9] :=
    fun j hj => (hright j).mpr (hrange j hj)
  have hperm := (hnodup.subperm hsub).perm_of_length_le (Nat.le_refl 5)
  exact hperm.mem_iff.mpr ((hright k).mpr ⟨h5, h9⟩)

/-- Each zone field is written at its own character. -/
theorem rightZone_of_legal (h : lay.Legal) (fl : Fields) :
    rightZone lay fl lay.ia1 = fl.ia.upper ∧ rightZone lay fl lay.ia0 = fl.ia.lower ∧
      rightZone lay fl lay.ib1 = fl.ib.upper ∧ rightZone lay fl lay.ib0 = fl.ib.lower ∧
      rightZone lay fl lay.bc = fl.bc := by
  have hnodup := List.nodup_reverse.mpr h.2
  simp only [List.reverse_cons, List.reverse_nil, List.nil_append, List.cons_append, List.nodup_cons, List.mem_cons,
    List.not_mem_nil, or_false, not_or] at hnodup
  simp [rightZone, hnodup]

/-- What was read from the right half is written back at every character of it. -/
theorem rightZone_fieldsAt (h : lay.Legal) (cs : List Character) {k : Nat} (h5 : 5 ≤ k) (h9 : k ≤ 9) :
    rightZone lay (fieldsAt lay cs) k = zoneAt cs k := by
  obtain ⟨hia1, hia0, hib1, hib0, hbc⟩ := rightZone_of_legal h (fieldsAt lay cs)
  have hmem := h.mem_of_right h5 h9
  simp only [List.mem_cons, List.not_mem_nil, or_false] at hmem
  rcases hmem with rfl | rfl | rfl | rfl | rfl
  · exact hia1.trans (Index.upper_ofBits _ _)
  · exact hia0.trans (Index.lower_ofBits _ _)
  · exact hib1.trans (Index.upper_ofBits _ _)
  · exact hib0.trans (Index.lower_ofBits _ _)
  · exact hbc

/-! The characters written for fields. -/

/-- bit-7 of the left half holds F and AC (30_encoding.md R102). -/
theorem zoneAt_charactersOf_left (lay : ZoneLayout) (fl : Fields) {k : Nat} (h : k < 5) :
    zoneAt (charactersOf lay fl) k =
      [fl.f.getLsbD 3, fl.f.getLsbD 2, fl.f.getLsbD 1, fl.f.getLsbD 0, fl.ac].getD k false := by
  interval_cases k <;> exact bit7_character _ _ _

theorem zoneAt_charactersOf_right (lay : ZoneLayout) (fl : Fields) {k : Nat} (h5 : 5 ≤ k) (h9 : k ≤ 9) :
    zoneAt (charactersOf lay fl) k = rightZone lay fl k := by
  interval_cases k <;> exact bit7_character _ _ _

theorem map_numeric_charactersOf (lay : ZoneLayout) (fl : Fields) :
    (charactersOf lay fl).map numeric =
      [fl.la, fl.a.d3, fl.a.d2, fl.a.d1, fl.a.d0, fl.lb, fl.b.d3, fl.b.d2, fl.b.d1, fl.b.d0] := by
  simp only [charactersOf, List.map_cons, List.map_nil, numeric_character]

/-- Reading the fields of the characters written for them gives them back (30_encoding.md R101 to R103). -/
theorem fieldsAt_charactersOf (h : lay.Legal) (fl : Fields) : fieldsAt lay (charactersOf lay fl) = fl := by
  have hzone : ∀ k ∈ [lay.ia1, lay.ia0, lay.ib1, lay.ib0, lay.bc],
      zoneAt (charactersOf lay fl) k = rightZone lay fl k :=
    fun k hk => zoneAt_charactersOf_right lay fl (h.1 k hk).1 (h.1 k hk).2
  simp only [List.forall_mem_cons] at hzone
  obtain ⟨hia1, hia0, hib1, hib0, hbc, -⟩ := hzone
  obtain ⟨ria1, ria0, rib1, rib0, rbc⟩ := rightZone_of_legal h fl
  simp only [fieldsAt, hia1, hia0, hib1, hib0, hbc, ria1, ria0, rib1, rib0, rbc, Index.ofBits_upper_lower]
  simp only [zoneAt, numericAt, charactersOf, List.getD_cons_zero, List.getD_cons_succ, bit7_character,
    numeric_character, operationCode_bits]

/-- Writing the fields of ten characters gives them back, apart from bit-5. -/
theorem charactersOf_fieldsAt (h : lay.Legal) {cs : List Character} (hten : cs.length = 10) :
    (charactersOf lay (fieldsAt lay cs)).map (fun c => (bit7 c, numeric c)) =
      cs.map (fun c => (bit7 c, numeric c)) := by
  have hright : ∀ k, 5 ≤ k → k ≤ 9 → rightZone lay (fieldsAt lay cs) k = zoneAt cs k :=
    fun k h5 h9 => rightZone_fieldsAt h cs h5 h9
  obtain ⟨hf3, hf2, hf1, hf0⟩ := bits_operationCode (zoneAt cs 0) (zoneAt cs 1) (zoneAt cs 2) (zoneAt cs 3)
  obtain ⟨c0, c1, c2, c3, c4, c5, c6, c7, c8, c9, rfl⟩ := eq_ten_of_length hten
  simp only [charactersOf, List.map_cons, List.map_nil, bit7_character, numeric_character, hright, Nat.reduceLeDiff,
    Nat.le_refl]
  simp only [fieldsAt, hf3, hf2, hf1, hf0]
  rfl

end

end Sys2Proof
end

section
/-! SUPPORT. Fields and the instruction they stand for: which instruction each operation code answers, that it has the
fields it was decoded from, and that the fields of a well-formed instruction decode to it (30_encoding.md R105 to R112,
41_branch.md R160, R163, 49_read_write.md R311, R312). -/

namespace Sys2Proof

open Sys2Proof.Machine

theorem eq_ofNat_of_toNat {x : Numeric} {n : Nat} (h : x.toNat = n) : x = BitVec.ofNat 4 n := by
  rw [← h, BitVec.ofNat_toNat, BitVec.setWidth_eq]

/-! What the checks of digits and operands answer. -/

theorem checkDigit_ok {field : EncodingField} {n : Numeric} {d : Nat} :
    checkDigit field n = .ok d ↔ n.toNat < 10 ∧ d = n.toNat := by
  unfold checkDigit
  split <;> simp [*, eq_comm]

theorem checkOperand_ok {field : EncodingField} {common : Bool} {d : AddressDigits} {index : Index} {o : Operand} :
    checkOperand field common d index = .ok o ↔
      d.decimal = true ∧ o = { common := common, addr := d.value, index := index } := by
  unfold checkOperand
  split <;> simp [*, eq_comm]

/-- A digit passes its check. -/
theorem checkDigit_ofNat (field : EncodingField) {n : Nat} (h : n < 10) :
    checkDigit field (BitVec.ofNat 4 n) = .ok n := by
  have hn : (BitVec.ofNat 4 n).toNat = n := by
    rw [BitVec.toNat_ofNat]
    omega
  exact checkDigit_ok.mpr ⟨hn.symm ▸ h, hn.symm⟩

/-- A well-formed operand passes its check. -/
theorem checkOperand_ofNat (field : EncodingField) {o : Operand} (h : o.wf = true) :
    checkOperand field o.common (AddressDigits.ofNat o.addr) o.index = .ok o := by
  refine checkOperand_ok.mpr ⟨AddressDigits.decimal_ofNat _, ?_⟩
  rw [AddressDigits.value_ofNat (of_decide_eq_true h)]

/-- A digit that passed its check is written as it was read. -/
theorem ofNat_of_checkDigit {field : EncodingField} {n : Numeric} {d : Nat} (h : checkDigit field n = .ok d) :
    BitVec.ofNat 4 d = n := by
  obtain ⟨-, rfl⟩ := checkDigit_ok.mp h
  exact (eq_ofNat_of_toNat rfl).symm

/-- Two operands that passed their checks are written as they were read. -/
theorem operandFields_of_checkOperand {fl : Fields} {a b : Operand}
    (ha : checkOperand .aAddress fl.ac fl.a fl.ia = .ok a) (hb : checkOperand .bAddress fl.bc fl.b fl.ib = .ok b) :
    operandFields fl.f fl.la fl.lb a b = fl := by
  obtain ⟨hda, rfl⟩ := checkOperand_ok.mp ha
  obtain ⟨hdb, rfl⟩ := checkOperand_ok.mp hb
  simp only [operandFields, AddressDigits.ofNat_value hda, AddressDigits.ofNat_value hdb]

/-! LB of Read and Write (49_read_write.md R311, R312). -/

theorem readModeBits_of_lt {lb : Numeric} (h : ¬ 2 ≤ lb.toNat % 8) :
    readModeBits (channelOf lb) (if lb.getLsbD 3 then .nonfill else .fill) = lb := by
  revert lb
  decide

theorem writeModeBits_of_lt {lb : Numeric} (h : ¬ 4 ≤ lb.toNat) :
    writeModeBits (channelOf lb) (if lb.getLsbD 1 then .control else .plain) = lb := by
  revert lb
  decide

theorem readModeBits_meaning (channel : Channel) (mode : FillMode) :
    ¬ 2 ≤ (readModeBits channel mode).toNat % 8 ∧ channelOf (readModeBits channel mode) = channel ∧
      (if (readModeBits channel mode).getLsbD 3 then FillMode.nonfill else .fill) = mode := by
  cases channel <;> cases mode <;> decide

theorem writeModeBits_meaning (channel : Channel) (kind : WriteKind) :
    ¬ 4 ≤ (writeModeBits channel kind).toNat ∧ channelOf (writeModeBits channel kind) = channel ∧
      (if (writeModeBits channel kind).getLsbD 1 then WriteKind.control else .plain) = kind := by
  cases channel <;> cases kind <;> decide

/-! An instruction that was decoded has the fields it was decoded from. -/

section
variable {fl : Fields} {i : Instr}

theorem fields_of_decodeLengths {build : Nat → Nat → Operand → Operand → Instr}
    (hbuild : ∀ la lb a b, (build la lb a b).fields = lengthFields fl.f la lb a b)
    (h : decodeLengths build fl = .ok i) : i.fields = fl := by
  unfold decodeLengths at h
  simp only [Except.bind_ok] at h
  obtain ⟨la, hla, lb, hlb, a, ha, b, hb, h⟩ := h
  cases h
  rw [hbuild, lengthFields, ofNat_of_checkDigit hla, ofNat_of_checkDigit hlb, operandFields_of_checkOperand ha hb]

theorem fields_of_decodeRead (hf : fl.f = 0) (h : decodeRead fl = .ok i) : i.fields = fl := by
  obtain ⟨device, hdevice, h⟩ := Except.bind_ok.mp h
  split at h
  next => cases h
  next hlb =>
    simp only [Except.bind_ok] at h
    obtain ⟨a, ha, b, hb, h⟩ := h
    cases h
    rw [Instr.fields, ofNat_of_checkDigit hdevice, readModeBits_of_lt hlb, ← hf, operandFields_of_checkOperand ha hb]

theorem fields_of_decodeWrite (hf : fl.f = 1) (h : decodeWrite fl = .ok i) : i.fields = fl := by
  obtain ⟨device, hdevice, h⟩ := Except.bind_ok.mp h
  split at h
  next => cases h
  next hlb =>
    simp only [Except.bind_ok] at h
    obtain ⟨a, ha, b, hb, h⟩ := h
    cases h
    rw [Instr.fields, ofNat_of_checkDigit hdevice, writeModeBits_of_lt hlb, ← hf,
      operandFields_of_checkOperand ha hb]

/-- The fields with IA and IB as the encoder writes them for a Branch (41_branch.md R160). -/
def Fields.unindexed (fl : Fields) : Fields := { fl with ia := .unindexed, ib := .unindexed }

/-- A decoded Branch has every field but IA and IB. -/
theorem fields_of_decodeBranch (hf : fl.f = 11) (h : decodeBranch fl = .ok i) : i.fields = fl.unindexed := by
  obtain ⟨f, la, a, lb, b, ac, bc, ia, ib⟩ := fl
  unfold decodeBranch at h
  dsimp only at h hf
  split at h
  case h_11 => cases h
  all_goals
    next hla =>
      cases h
      cases hf
      obtain rfl := eq_ofNat_of_toNat hla
      rfl

theorem instrOf_branch (hf : fl.f = 11) : instrOf fl = decodeBranch fl := by
  unfold instrOf
  rw [hf]
  rfl

/-- A decoded instruction has the fields it was decoded from, apart from what its operation code ignores. -/
theorem fields_of_instrOf (h : instrOf fl = .ok i) :
    i.fields = fl ∨ (fl.f = 11 ∧ i.fields = fl.unindexed) ∨ (fl.f ∈ [2, 3, 10] ∧ i.fields = bareFields fl.f) := by
  unfold instrOf at h
  split at h
  case h_1 hf => exact .inl (fields_of_decodeRead (eq_ofNat_of_toNat hf) h)
  case h_2 hf => exact .inl (fields_of_decodeWrite (eq_ofNat_of_toNat hf) h)
  case h_3 hf | h_4 hf | h_11 hf =>
    cases h
    exact .inr (.inr (by rw [eq_ofNat_of_toNat hf]; exact ⟨by decide, rfl⟩))
  case h_12 hf =>
    have hf := eq_ofNat_of_toNat hf
    exact .inr (.inl ⟨hf, fields_of_decodeBranch hf h⟩)
  case h_16 =>
    have hf : fl.f.toNat = 15 := by simp only [imp_false] at *; omega
    exact .inl (fields_of_decodeLengths (fun _ _ _ _ => by rw [eq_ofNat_of_toNat hf]; rfl) h)
  all_goals
    next hf => exact .inl (fields_of_decodeLengths (fun _ _ _ _ => by rw [eq_ofNat_of_toNat hf]; rfl) h)

theorem fields_f_of_instrOf (h : instrOf fl = .ok i) : i.fields.f = fl.f := by
  obtain h | ⟨-, h⟩ | ⟨-, h⟩ := fields_of_instrOf h <;> rw [h] <;> rfl

end

/-! The fields of a well-formed instruction decode to it. -/

theorem decodeLengths_lengthFields (build : Nat → Nat → Operand → Operand → Instr) (f : Numeric) {la lb : Nat}
    {a b : Operand} (h : Instr.wfFields la lb a b = true) :
    decodeLengths build (lengthFields f la lb a b) = .ok (build la lb a b) := by
  simp only [Instr.wfFields, Bool.and_eq_true, decide_eq_true_eq] at h
  obtain ⟨⟨⟨hla, hlb⟩, ha⟩, hb⟩ := h
  simp only [decodeLengths, lengthFields, operandFields, Except.bind_ok]
  exact ⟨la, checkDigit_ofNat _ hla, lb, checkDigit_ofNat _ hlb, a, checkOperand_ofNat _ ha,
    b, checkOperand_ofNat _ hb, rfl⟩

theorem decodeRead_fields {device : Nat} {a b : Operand} (channel : Channel) (mode : FillMode) (hdevice : device < 10)
    (ha : a.wf = true) (hb : b.wf = true) :
    decodeRead (Instr.read device channel mode a b).fields = .ok (.read device channel mode a b) := by
  obtain ⟨hassigned, hchannel, hmode⟩ := readModeBits_meaning channel mode
  refine Except.bind_ok.mpr ⟨device, checkDigit_ofNat _ hdevice, (if_neg hassigned).trans ?_⟩
  refine Except.bind_ok.mpr ⟨a, checkOperand_ofNat _ ha, Except.bind_ok.mpr ⟨b, checkOperand_ofNat _ hb, ?_⟩⟩
  exact congrArg₂ (fun c m => Except.ok (Instr.read device c m a b)) hchannel hmode

theorem decodeWrite_fields {device : Nat} {a b : Operand} (channel : Channel) (kind : WriteKind) (hdevice : device < 10)
    (ha : a.wf = true) (hb : b.wf = true) :
    decodeWrite (Instr.write device channel kind a b).fields = .ok (.write device channel kind a b) := by
  obtain ⟨hassigned, hchannel, hkind⟩ := writeModeBits_meaning channel kind
  refine Except.bind_ok.mpr ⟨device, checkDigit_ofNat _ hdevice, (if_neg hassigned).trans ?_⟩
  refine Except.bind_ok.mpr ⟨a, checkOperand_ofNat _ ha, Except.bind_ok.mpr ⟨b, checkOperand_ofNat _ hb, ?_⟩⟩
  exact congrArg₂ (fun c m => Except.ok (Instr.write device c m a b)) hchannel hkind

theorem instrOf_fields {i : Instr} (h : i.wf = true) : instrOf i.fields = .ok i := by
  cases i with
  | read device channel mode a b =>
    simp only [Instr.wf, Bool.and_eq_true, decide_eq_true_eq] at h
    obtain ⟨⟨hdevice, ha⟩, hb⟩ := h
    exact decodeRead_fields channel mode hdevice ha hb
  | write device channel kind a b =>
    simp only [Instr.wf, Bool.and_eq_true, decide_eq_true_eq] at h
    obtain ⟨⟨hdevice, ha⟩, hb⟩ := h
    exact decodeWrite_fields channel kind hdevice ha hb
  | unassigned2 | unassigned3 | unassigned10 => rfl
  | branch0 | branch1 | branch2 | branch3 | branch4 | branch5 | link | serviceRequest | branch8 | branch9 => rfl
  | add | divide | multiply | subtract | moveCharacter | moveNumeric | edit | formNumeric | compare | exchange =>
    exact decodeLengths_lengthFields _ _ h

end Sys2Proof
end

section
/-! SUPPORT. The statements about the encoding (30_encoding.md). -/

namespace Sys2Proof

open Sys2Proof.Machine

/-- Settles O1: the characters written for the fields are read back, and the fields decode to the instruction. -/
theorem decodeOfEncode : Obligations.DecodeOfEncode := by
  intro lay i hlay hwf
  calc decode lay (charactersOf lay i.fields)
      = instrOf (fieldsAt lay (charactersOf lay i.fields)) := decode_of_ten rfl
    _ = instrOf i.fields := by rw [fieldsAt_charactersOf hlay]
    _ = .ok i := instrOf_fields hwf

/-- The numeric portions of a Branch are written as they were read: no index field is among them. -/
theorem map_numeric_charactersOf_unindexed {lay : ZoneLayout} (hlay : lay.Legal) {cs : List Character}
    (hten : cs.length = 10) : (charactersOf lay (fieldsAt lay cs).unindexed).map numeric = cs.map numeric := by
  have hall := congrArg (List.map Prod.snd) (charactersOf_fieldsAt hlay hten)
  calc (charactersOf lay (fieldsAt lay cs).unindexed).map numeric
      = (charactersOf lay (fieldsAt lay cs)).map numeric := by
        simp only [map_numeric_charactersOf, Fields.unindexed]
    _ = cs.map numeric := by simpa only [List.map_map, Function.comp_def] using hall

/-- bit-7 of a Branch is written as it was read where it is F, AC or BC. -/
theorem zoneAt_charactersOf_unindexed {lay : ZoneLayout} (hlay : lay.Legal) (cs : List Character) {k : Nat}
    (hk : k < 5 ∨ k = lay.bc) : zoneAt (charactersOf lay (fieldsAt lay cs).unindexed) k = zoneAt cs k := by
  obtain hleft | rfl := hk
  · obtain ⟨hf3, hf2, hf1, hf0⟩ := bits_operationCode (zoneAt cs 0) (zoneAt cs 1) (zoneAt cs 2) (zoneAt cs 3)
    rw [zoneAt_charactersOf_left _ _ hleft]
    interval_cases k
    exacts [hf3, hf2, hf1, hf0, rfl]
  · obtain ⟨h5, h9⟩ := hlay.1 lay.bc (by simp)
    obtain ⟨-, -, -, -, hbc⟩ := rightZone_of_legal hlay (fieldsAt lay cs).unindexed
    exact (zoneAt_charactersOf_right _ _ h5 h9).trans hbc

/-- Settles O2: a decoded instruction has the fields of its characters, a Branch all but IA and IB. -/
theorem encodeOfDecode : Obligations.EncodeOfDecode := by
  intro lay cs i hlay h
  obtain ⟨hten, h⟩ := decode_ok.mp h
  refine ⟨fun htwo => ?_, fun hbranch => ?_⟩
  · rw [fields_f_of_instrOf h] at htwo
    have hfields : i.fields = fieldsAt lay cs := by
      obtain hfields | ⟨hcode, -⟩ | ⟨hcode, -⟩ := fields_of_instrOf h
      · exact hfields
      · exact absurd (by rw [hcode]; decide) htwo
      · exact absurd (List.mem_append_left [11] hcode) htwo
    rw [encode, hfields]
    exact charactersOf_fieldsAt hlay hten
  · rw [fields_f_of_instrOf h] at hbranch
    have hfields : i.fields = (fieldsAt lay cs).unindexed := by
      rw [instrOf_branch hbranch] at h
      exact fields_of_decodeBranch hbranch h
    rw [encode, hfields]
    exact ⟨map_numeric_charactersOf_unindexed hlay hten, fun k hk => zoneAt_charactersOf_unindexed hlay cs hk⟩

/-- Settles O3, by what each operation code checks (`decode_wf`). -/
theorem decodedIsWellFormed : Obligations.DecodedIsWellFormed := fun _ _ _ h => decode_wf h

/-- Settles O4: the fields do not hold bit-5, nor does the number of characters depend on it. -/
theorem decodeIgnoresBit5 : Obligations.DecodeIgnoresBit5 := by
  intro lay cs cs' h
  have hlength : cs.length = cs'.length := by simpa only [List.length_map] using congrArg List.length h
  rw [decode_eq, decode_eq, hlength, fieldsAt_congr lay h]

/-- Settles O5: F is read from characters 0 to 3, and it selects the instruction. -/
theorem decodedOperationCode : Obligations.DecodedOperationCode := by
  intro lay c0 c1 c2 c3 c4 c5 c6 c7 c8 c9 f hf
  have hcode : (fieldsAt lay [c0, c1, c2, c3, c4, c5, c6, c7, c8, c9]).f.toNat = f :=
    (operationCode_toNat _ _ _ _).trans hf.symm
  rw [decode_of_ten rfl]
  refine ⟨fun i h => (congrArg BitVec.toNat (fields_f_of_instrOf h)).trans hcode, ?_, ?_, ?_⟩
  all_goals
    rintro rfl
    simp only [instrOf, hcode]

/-- Settles O6: each word is evaluated. -/
theorem writtenWordsDecode : Obligations.WrittenWordsDecode := ⟨rfl, rfl, rfl⟩

/-- Settles O21: the three codes raise the fault in every state. -/
theorem unassignedCodesStop : Obligations.UnassignedCodesStop := fun _ => ⟨rfl, rfl, rfl⟩

end Sys2Proof
end

section
/-! SUPPORT. What a numeric field holds, and what putting digits into a field leaves of it (00_scope.md R11; 10_state.md
R24; 40_add_subtract.md R143). -/

namespace Sys2Proof.Machine

/-! Digits and their value. -/

/-- Each digit of a list that is read puts those before it one place to the left. -/
theorem foldl_digits (n v acc : Nat) :
    (digits n v).foldl (fun v d => 10 * v + d) acc = acc * 10 ^ n + v % 10 ^ n := by
  induction n generalizing acc with
  | zero => simp [digits, Nat.mod_one]
  | succ n ih =>
    rw [digits, List.foldl_cons, ih, pow_succ, Nat.mod_mul]
    ring

theorem dec_digits (n v : Nat) : dec (digits n v) = v % 10 ^ n := by
  rw [dec, foldl_digits, Nat.zero_mul, Nat.zero_add]

theorem lt_ten_of_mem_digits {n v d : Nat} (h : d ∈ digits n v) : d < 10 := by
  induction n with
  | zero => cases h
  | succ n ih =>
    rcases List.mem_cons.mp h with rfl | h
    · exact Nat.mod_lt _ (by decide)
    · exact ih h

/-! Characters made of zone bits and a digit. -/

@[simp] theorem bit7_mkChar (z7 z5 : Bool) (n : Nat) : bit7 (mkChar z7 z5 n) = z7 := bit7_character _ _ _

@[simp] theorem bit5_mkChar (z7 z5 : Bool) (n : Nat) : bit5 (mkChar z7 z5 n) = z5 :=
  Laws.EncodesTen.bit5_character _ _ _

@[simp] theorem num_character (z7 z5 : Bool) (n : Numeric) : num (character z7 z5 n) = n.toNat := by
  rw [num, numeric_character]

theorem num_mkChar (z7 z5 : Bool) {n : Nat} (h : n < 10) : num (mkChar z7 z5 n) = n := by
  rw [mkChar, num_character, BitVec.toNat_ofNat]
  omega

/-! The sign and the numeric portions of a field. -/

theorem signOf_eq_getElem {cs : List Character} (h : 0 < cs.length) : signOf cs = bit7 (cs[cs.length - 1]) := by
  rw [signOf, List.getLastD_eq_getLast?, List.getLast?_eq_getElem?, List.getElem?_eq_getElem (by omega),
    Option.getD_some]

/-- The sign of the rightmost positions of a field is that of the field. -/
theorem signOf_drop {cs : List Character} {k : Nat} (h : k < cs.length) : signOf (cs.drop k) = signOf cs := by
  simp only [signOf, List.getLastD_eq_getLast?, List.getLast?_drop, if_neg (Nat.not_le.mpr h)]

theorem allDecimal_eq_all_map_num (cs : List Character) :
    allDecimal cs = (cs.map num).all (fun d => decide (d < 10)) := by
  rw [allDecimal, List.all_map]
  rfl

/-- Whether a field is decimal does not depend on its zone bits. -/
theorem allDecimal_congr {cs cs' : List Character} (h : cs'.map num = cs.map num) : allDecimal cs' = allDecimal cs := by
  rw [allDecimal_eq_all_map_num, allDecimal_eq_all_map_num, h]

/-- The magnitude of a field does not depend on its zone bits. -/
theorem magnitude_congr {cs cs' : List Character} (h : cs'.map num = cs.map num) : magnitude cs' = magnitude cs := by
  rw [magnitude, magnitude, h]

/-! Digits put into a field. -/

theorem putDigits_cons_cons (c c' : Character) (cs : List Character) (d : Nat) (ds : List Nat) (negative : Bool) :
    putDigits (c :: c' :: cs) (d :: ds) negative =
      mkChar (bit7 c) (bit5 c) d :: putDigits (c' :: cs) ds negative := by
  cases ds <;> rfl

/-- Every position but the rightmost keeps its zone bits; the rightmost gets the sign and bit-5 ON. -/
theorem putDigits_getElem {cs : List Character} {ds : List Nat} (h : cs.length = ds.length) (negative : Bool) {k : Nat}
    (hk : k < (putDigits cs ds negative).length) (hcs : k < cs.length) (hds : k < ds.length) :
    (putDigits cs ds negative)[k] =
      if k + 1 = cs.length then mkChar negative true ds[k] else mkChar (bit7 cs[k]) (bit5 cs[k]) ds[k] := by
  induction cs generalizing ds k with
  | nil => cases hcs
  | cons c cs ih =>
    obtain ⟨d, ds, rfl⟩ := List.exists_cons_of_length_pos (Nat.zero_lt_of_lt hds)
    have h' : cs.length = ds.length := Nat.succ.inj h
    cases cs with
    | nil =>
      obtain rfl : ds = [] := List.eq_nil_of_length_eq_zero h'.symm
      obtain rfl : k = 0 := Nat.lt_one_iff.mp hcs
      rfl
    | cons c' cs =>
      simp only [putDigits_cons_cons]
      cases k with
      | zero => rw [if_neg (by simp)]; rfl
      | succ k =>
        have hk' : k < (c' :: cs).length := Nat.lt_of_succ_lt_succ hcs
        simp only [List.getElem_cons_succ]
        rw [ih h' (by rwa [putDigits_length _ _ _ h']) hk' (by rwa [← h'])]
        simp only [List.length_cons, Nat.add_right_cancel_iff]

theorem map_num_putDigits {cs : List Character} {ds : List Nat} (h : cs.length = ds.length) (hds : ∀ d ∈ ds, d < 10)
    (negative : Bool) : (putDigits cs ds negative).map num = ds := by
  have hlen := putDigits_length cs ds negative h
  refine List.ext_getElem (by rw [List.length_map, hlen, h]) fun k hk hk' => ?_
  rw [List.getElem_map, putDigits_getElem h _ _ (by omega) hk']
  have hd := hds _ (List.getElem_mem hk')
  split <;> exact num_mkChar _ _ hd

theorem allDecimal_putDigits {cs : List Character} {ds : List Nat} (h : cs.length = ds.length) (hds : ∀ d ∈ ds, d < 10)
    (negative : Bool) : allDecimal (putDigits cs ds negative) = true := by
  rw [allDecimal_eq_all_map_num, map_num_putDigits h hds, List.all_eq_true]
  exact fun d hd => decide_eq_true (hds d hd)

theorem magnitude_putDigits_digits {cs : List Character} {n : Nat} (h : cs.length = n) (v : Nat) (negative : Bool) :
    magnitude (putDigits cs (digits n v) negative) = v % 10 ^ n := by
  rw [magnitude, map_num_putDigits (h.trans (digits_length n v).symm) fun _ => lt_ten_of_mem_digits, dec_digits]

theorem signOf_putDigits {cs : List Character} {ds : List Nat} (h : cs.length = ds.length) (hcs : 0 < cs.length)
    (negative : Bool) : signOf (putDigits cs ds negative) = negative := by
  have hlen := putDigits_length cs ds negative h
  rw [signOf_eq_getElem (by omega), putDigits_getElem h _ _ (by omega) (by omega), if_pos (by omega), bit7_mkChar]

end Sys2Proof.Machine
end

section
/-! SUPPORT. What Add, Subtract, Multiply, Divide and Form Numeric leave when their checks pass: the next instruction
follows, and only the destination is stored (10_state.md R36, R39; 20_memory.md R71 to R75). -/

namespace Sys2Proof.Machine

theorem len1_pos (d : Nat) : 0 < len1 d := by
  unfold len1
  split <;> omega

theorem State.finishes (s : State) (hhost : s.host < s.parts.length) (m : Memory) (cc : ConditionCode) :
    Finishes s (s.finish m cc) cc :=
  ⟨⟨rfl, rfl, rfl, rfl, rfl, rfl⟩, ⟨State.finish_length _ _ _, fun _ hq => State.part_finish_ne _ _ _ hq⟩, rfl, rfl,
    State.me_finish _ _ _ hhost⟩

/-- A store into a field that passed its check leaves every other location as it is. -/
theorem State.untouched_of_stored {s t : State} {p : Place} {n : Nat} {cs : List Character} (hw : s.CanWrite p n)
    (hcs : cs.length ≤ n) (ht : t.mem = s.stored p cs) : Untouched s t p n := by
  intro sp loc hloc hout
  rw [State.at, ht]
  exact s.stored_outside hcs hw.1.le hloc hout

/-- The field of n locations read back after n characters were stored there. -/
theorem State.field_of_stored_of_length {s t : State} (hwf : s.mem.wf = true) {p : Place} {n : Nat}
    {cs : List Character} (hcs : cs.length = n) (ht : t.mem = s.stored p cs) : t.field p n = cs :=
  hcs ▸ State.field_of_stored hwf ht

/-- The character at a location of a field whose characters are known. -/
theorem State.at_of_field {s : State} {p : Place} {n : Nat} {cs : List Character} (h : s.field p n = cs) {k : Nat}
    (hk : k < cs.length) : s.at p.space (p.loc + k) = cs[k] := by
  subst h
  exact (s.field_getElem p n k hk).symm

section
variable {s : State} {la lb : Nat} {a b : Operand} {pa pb : Place}
  {result : List Character → List Character → FieldResult}

/-- The checks pass, and the instruction stores its result. -/
theorem State.arithmetic_next (he : s.effective a b = .ok (pa, pb)) (hr : s.CanRead pa la) (hw : s.CanWrite pb lb)
    {r : FieldResult} (h : r = if overlap pa la pb lb then unspecifiedResult s.draws lb
      else result (s.field pa la) (s.field pb lb)) :
    s.outcome (s.arithmetic la lb a b result) = .next (s.finish (s.stored pb r.chars) r.cc) :=
  State.outcome_next.mpr (State.arithmetic_ok.mpr ⟨pa, pb, he, hr, hw, r, h, rfl⟩)

theorem State.arithmetic_next_of_ordinary (h : s.Ordinary a b pa la pb lb) {r : FieldResult}
    (hresult : result (s.field pa la) (s.field pb lb) = r) :
    s.outcome (s.arithmetic la lb a b result) = .next (s.finish (s.stored pb r.chars) r.cc) := by
  obtain ⟨he, hr, hw, hdisjoint⟩ := h
  exact State.arithmetic_next he hr hw (by rw [hdisjoint, if_neg (by decide), hresult])

/-- A result that fills the destination and has one flag, on whatever operands, overlapped ones included. -/
theorem State.arithmetic_completes (hs : s.Formed) (he : s.effective a b = .ok (pa, pb)) (hr : s.CanRead pa la)
    (hw : s.CanWrite pb lb)
    (hlen : ∀ x y : List Character, x.length = la → y.length = lb → (result x y).chars.length = lb)
    (hflag : ∀ x y, (result x y).OneFlag) :
    ∃ t k, s.outcome (s.arithmetic la lb a b result) = .next t ∧ Finishes s t (.only k) ∧ Untouched s t pb lb := by
  obtain ⟨r, hresult⟩ : ∃ r, r = if overlap pa la pb lb then unspecifiedResult s.draws lb
    else result (s.field pa la) (s.field pb lb) := ⟨_, rfl⟩
  obtain ⟨hchars, k, hk⟩ : r.chars.length = lb ∧ r.OneFlag := by
    rw [hresult]
    split
    · exact ⟨freeField_length _ _, unspecifiedResult_oneFlag _ _⟩
    · exact ⟨hlen _ _ (s.field_length _ _) (s.field_length _ _), hflag _ _⟩
  exact ⟨_, k, State.arithmetic_next he hr hw hresult, hk ▸ s.finishes hs.1 _ _,
    State.untouched_of_stored hw hchars.le rfl⟩

end

/-- Settles O29: whatever the operands are, the result fills the destination field and has one flag. -/
theorem unspecifiedResults : Obligations.UnspecifiedResults := by
  intro s la lb n a b pa pb hs he hr hw
  refine ⟨?_, ?_, ?_, ?_⟩
  · rintro rfl - i hi
    have hsum (reverse : Bool) := State.arithmetic_completes hs he hr hw
      (fun x y _ hy => (addFields_length s.draws reverse x y).trans hy) (addFields_oneFlag s.draws reverse)
    rcases List.mem_pair.mp hi with rfl | rfl
    · exact hsum false
    · exact hsum true
  · rintro rfl -
    exact State.arithmetic_completes hs he hr hw (fun x y _ hy => (formFields_length s.draws x y.length).trans hy)
      fun x y => formFields_oneFlag s.draws x y.length
  · rintro rfl -
    exact State.arithmetic_completes hs he hr hw (fun x y _ hy => (multiplyFields_length s.draws x y).trans hy)
      (multiplyFields_oneFlag s.draws)
  · rintro rfl -
    exact State.arithmetic_completes hs he hr hw
      (fun x y hx hy => (divideFields_length s.draws x y (len1 lb) (by rw [hx, hy])).trans hy)
      fun x y => divideFields_oneFlag s.draws x y (len1 lb)

end Sys2Proof.Machine
end

section
/-! SUPPORT. Add and Subtract of decimal operands: the sum, the difference and overflow (40_add_subtract.md R141 to
R145, R150). -/

namespace Sys2Proof.Machine

/-! The signed sum of two fields. -/

theorem signOf_usedPart {a b : List Character} (ha : 0 < a.length) (hb : 0 < b.length) :
    signOf (usedPart a b) = signOf a := signOf_drop (by omega)

theorem signedValue_usedPart {a b : List Character} (ha : 0 < a.length) (hb : 0 < b.length) :
    signedValue (usedPart a b) =
      if signOf a then -(magnitude (usedPart a b) : Int) else magnitude (usedPart a b) := by
  rw [signedValue, signOf_usedPart ha hb]

theorem signedSum_add {a b : List Character} (ha : 0 < a.length) (hb : 0 < b.length) :
    signedSum false a b = signedValue (usedPart a b) + signedValue b := by
  rw [signedSum, Bool.xor_false, signedValue_usedPart ha hb]

theorem signedSum_subtract {a b : List Character} (ha : 0 < a.length) (hb : 0 < b.length) :
    signedSum true a b = signedValue b - signedValue (usedPart a b) := by
  rw [signedSum, Bool.xor_true, signedValue_usedPart ha hb]
  cases signOf a
  · exact neg_add_eq_sub _ _
  · exact (add_comm _ _).trans (sub_neg_eq_add _ _).symm

/-- The magnitudes add up when the effective signs are alike. -/
theorem natAbs_signedSum {reverse : Bool} {a b : List Character} (h : (signOf a ^^ reverse) = signOf b) :
    (signedSum reverse a b).natAbs = magnitude (usedPart a b) + magnitude b := by
  rw [signedSum, signedValue, h]
  split <;> omega

/-! The results of Add and Subtract. -/

theorem ConditionCode.ofInt_eq (r : Int) :
    ConditionCode.ofInt r = if r < 0 then .only .one else if r = 0 then .only .two else .only .three := by
  rcases lt_trichotomy r 0 with h | rfl | h
  · simp [ConditionCode.ofInt, ConditionCode.ofSign, h, h.ne]
  · rfl
  · simp [ConditionCode.ofInt, ConditionCode.ofSign, h.not_gt, h.ne']

/-- Decimal operands whose sum fits. -/
theorem addFields_of_fits {draw : Nat} {reverse : Bool} {a b : List Character}
    (ha : allDecimal (usedPart a b) = true) (hb : allDecimal b = true)
    (h : (signedSum reverse a b).natAbs < 10 ^ b.length) :
    addFields draw reverse a b =
      { chars := putDigits b (digits b.length (signedSum reverse a b).natAbs)
          (if signedSum reverse a b = 0 then Config.freeBit draw else decide (signedSum reverse a b < 0))
        cc := .ofInt (signedSum reverse a b) } := by
  rw [addFields, ha, hb, Bool.and_true, if_pos rfl]
  exact if_neg (Nat.not_le.mpr h)

/-- Decimal operands whose sum does not fit. -/
theorem addFields_of_overflow {draw : Nat} {reverse : Bool} {a b : List Character}
    (ha : allDecimal (usedPart a b) = true) (hb : allDecimal b = true)
    (h : 10 ^ b.length ≤ (signedSum reverse a b).natAbs) :
    addFields draw reverse a b =
      { chars := putDigits b (digits b.length (signedSum reverse a b).natAbs) (signOf b), cc := .only .four } := by
  rw [addFields, ha, hb, Bool.and_true, if_pos rfl]
  exact if_pos h

/-! The number that an instruction leaves in its destination. -/

/-- The n characters at a place hold, in t, decimal digits of magnitude v with a sign; their zones are those of s as
R143 says. -/
structure HoldsNumber (s t : State) (p : Place) (n v : Nat) (negative : Bool) : Prop where
  keepsZones : KeepsZones s t p n
  decimal : allDecimal (t.field p n) = true
  magnitude_eq : magnitude (t.field p n) = v
  signOf_eq : signOf (t.field p n) = negative

theorem HoldsNumber.of_putDigits {s t : State} {p : Place} {n v : Nat} {negative : Bool} (hn : 0 < n)
    (h : t.field p n = putDigits (s.field p n) (digits n v) negative) :
    HoldsNumber s t p n (v % 10 ^ n) negative := by
  have hlen : (s.field p n).length = (digits n v).length := by rw [s.field_length, digits_length]
  have hat {k : Nat} (hk : k < n) := (State.at_of_field h (by simpa [putDigits_length _ _ _ hlen] using hk)).trans
    (putDigits_getElem hlen _ _ (by simpa using hk) (by simpa using hk))
  simp only [s.field_length] at hat
  refine ⟨⟨fun k hk => ?_, ?_⟩, ?_, ?_, ?_⟩
  · rw [hat (by omega), if_neg (by omega), bit7_mkChar, bit5_mkChar, s.field_getElem]
    exact ⟨rfl, rfl⟩
  · rw [hat (by omega), if_pos (by omega), bit5_mkChar]
  · rw [h, allDecimal_putDigits hlen fun _ => lt_ten_of_mem_digits]
  · rw [h, magnitude_putDigits_digits (s.field_length p n)]
  · rw [h, signOf_putDigits hlen (by simpa using hn)]

section
variable {s : State} {la lb : Nat} {a b : Operand} {pa pb : Place}

/-- A result that puts digits into the destination field. -/
theorem State.arithmetic_putDigits {result : List Character → List Character → FieldResult} {v : Nat}
    {negative : Bool} {cc : ConditionCode} (hs : s.Formed) (hord : s.Ordinary a b pa la pb lb) (hlb : 0 < lb)
    (hresult : result (s.field pa la) (s.field pb lb) =
      { chars := putDigits (s.field pb lb) (digits lb v) negative, cc := cc }) :
    ∃ t, s.outcome (s.arithmetic la lb a b result) = .next t ∧ Finishes s t cc ∧ Untouched s t pb lb ∧
      HoldsNumber s t pb lb (v % 10 ^ lb) negative := by
  have hlen : (putDigits (s.field pb lb) (digits lb v) negative).length = lb := by
    rw [putDigits_length _ _ _ (by simp), s.field_length]
  obtain ⟨hhost, hwf⟩ := hs
  obtain ⟨-, -, hwrite, -⟩ := id hord
  exact ⟨_, State.arithmetic_next_of_ordinary hord hresult, s.finishes hhost _ _,
    State.untouched_of_stored hwrite hlen.le rfl,
    .of_putDigits hlb (State.field_of_stored_of_length hwf hlen rfl)⟩

theorem State.usedPart_field (s : State) (pa pb : Place) (la lb : Nat) :
    usedPart (s.field pa la) (s.field pb lb) = (s.field pa la).drop (la - min la lb) := by
  rw [usedPart, s.field_length, s.field_length]

variable {reverse : Bool} {usedA : List Character} (hs : s.Formed) (hord : s.Ordinary a b pa (len1 la) pb (len1 lb))
  (hused : usedA = usedPart (s.field pa (len1 la)) (s.field pb (len1 lb))) (ha : allDecimal usedA = true)
  (hb : allDecimal (s.field pb (len1 lb)) = true)
include hs hord hused ha hb

/-- Add and Subtract when the signed sum fits: value, zones, flags and frame. -/
theorem sum_fits {r : Int} (hr : r = signedSum reverse (s.field pa (len1 la)) (s.field pb (len1 lb)))
    (hfits : r.natAbs < 10 ^ len1 lb) :
    ∃ t, s.outcome (s.arithmetic (len1 la) (len1 lb) a b (addFields s.draws reverse)) = .next t ∧
      Finishes s t (if r < 0 then .only .one else if r = 0 then .only .two else .only .three) ∧
      Untouched s t pb (len1 lb) ∧ KeepsZones s t pb (len1 lb) ∧
      allDecimal (t.field pb (len1 lb)) = true ∧ magnitude (t.field pb (len1 lb)) = r.natAbs ∧
      (r ≠ 0 → signedValue (t.field pb (len1 lb)) = r) := by
  subst hused hr
  have hresult := addFields_of_fits (draw := s.draws) ha hb (by rwa [s.field_length])
  simp only [s.field_length] at hresult
  obtain ⟨t, hnext, hfinish, hframe, hnumber⟩ := State.arithmetic_putDigits hs hord (len1_pos lb) hresult
  rw [Nat.mod_eq_of_lt hfits] at hnumber
  refine ⟨t, hnext, ConditionCode.ofInt_eq _ ▸ hfinish, hframe, hnumber.keepsZones, hnumber.decimal,
    hnumber.magnitude_eq, fun hne => ?_⟩
  rw [signedValue, hnumber.signOf_eq, hnumber.magnitude_eq, if_neg hne]
  split
  all_goals
    rename_i hneg
    rw [decide_eq_true_iff] at hneg
    omega

/-- Add and Subtract when the effective signs are alike and the magnitudes exceed the capacity of Operand-B. -/
theorem sum_overflows (hsign : (signOf usedA ^^ reverse) = signOf (s.field pb (len1 lb)))
    (hover : 10 ^ len1 lb ≤ magnitude usedA + magnitude (s.field pb (len1 lb))) :
    ∃ t, s.outcome (s.arithmetic (len1 la) (len1 lb) a b (addFields s.draws reverse)) = .next t ∧
      Finishes s t (.only .four) ∧ Untouched s t pb (len1 lb) ∧ KeepsZones s t pb (len1 lb) ∧
      allDecimal (t.field pb (len1 lb)) = true ∧
      signOf (t.field pb (len1 lb)) = signOf (s.field pb (len1 lb)) ∧
      magnitude (t.field pb (len1 lb)) = (magnitude usedA + magnitude (s.field pb (len1 lb))) % 10 ^ len1 lb := by
  subst hused
  rw [signOf_usedPart (by simpa using len1_pos la) (by simpa using len1_pos lb)] at hsign
  have hsum := natAbs_signedSum hsign
  have hresult := addFields_of_overflow (draw := s.draws) (reverse := reverse) ha hb
    (by rwa [s.field_length, hsum])
  rw [hsum] at hresult
  simp only [s.field_length] at hresult
  obtain ⟨t, hnext, hfinish, hframe, hnumber⟩ := State.arithmetic_putDigits hs hord (len1_pos lb) hresult
  exact ⟨t, hnext, hfinish, hframe, hnumber.keepsZones, hnumber.decimal, hnumber.signOf_eq, hnumber.magnitude_eq⟩

end

/-- Settles O22: Add is the sum that does not reverse the sign of Operand-A. -/
theorem addSum : Obligations.AddSum := by
  intro s la lb a b pa pb usedA r hs hord hused ha hb hr hfits
  rw [← s.usedPart_field pa pb] at hused
  refine sum_fits (reverse := false) hs hord hused ha hb ?_ hfits
  rw [hr, hused, signedSum_add (by simpa using len1_pos la) (by simpa using len1_pos lb)]

/-- Settles O23: Subtract is the sum that reverses the sign of Operand-A. -/
theorem subtractDifference : Obligations.SubtractDifference := by
  intro s la lb a b pa pb usedA r hs hord hused ha hb hr hfits
  rw [← s.usedPart_field pa pb] at hused
  refine sum_fits (reverse := true) hs hord hused ha hb ?_ hfits
  rw [hr, hused, signedSum_subtract (by simpa using len1_pos la) (by simpa using len1_pos lb)]

/-- Settles O24: the effective signs are alike in Add of like signs and in Subtract of unlike ones. -/
theorem sumOverflow : Obligations.SumOverflow := by
  intro s la lb a b pa pb usedA hs hord hused ha hb hover
  rw [← s.usedPart_field pa pb] at hused
  refine ⟨fun hsign => sum_overflows (reverse := false) hs hord hused ha hb ?_ hover,
    fun hsign => sum_overflows (reverse := true) hs hord hused ha hb ?_ hover⟩
  · rw [Bool.xor_false, hsign]
  · rw [Bool.xor_true, Bool.not_eq.mpr hsign]

end Sys2Proof.Machine
end

section
/-! SUPPORT. Subtract is Add with the sign of Operand-A reversed (40_add_subtract.md R150): a change of zone bits is not
seen by index registers, addresses or magnitudes, and the two memories differ in one character alone. -/

namespace Sys2Proof.Machine

/-! Memories that differ in zone bits alone. -/

/-- Every key of the second memory reads with the numeric portion it has in the first. -/
def SameNumerics (m m' : Memory) : Prop := ∀ k, num (m'.read k) = num (m.read k)

theorem SameNumerics.write {m : Memory} (hwf : m.wf = true) {k : Nat} {c : Character} (hc : num c = num (m.read k)) :
    SameNumerics m (m.write k c) := by
  intro j
  rw [Memory.read_write hwf]
  split
  · rename_i hj
    rw [hc, hj]
  · rfl

theorem SameNumerics.field {s : State} {m : Memory} (h : SameNumerics s.mem m) (p : Place) (n : Nat) :
    ((s.setMem m).field p n).map num = (s.field p n).map num := by
  refine List.ext_getElem (by simp) fun k hk hk' => ?_
  rw [List.getElem_map, List.getElem_map, State.field_getElem, State.field_getElem]
  exact h _

/-- An index register is read without its zone bits (10_state.md R31). -/
theorem SameNumerics.indexValue {s : State} {m : Memory} (h : SameNumerics s.mem m) (i : Index) :
    (s.setMem m).indexValue i = s.indexValue i := by
  by_cases hi : i = .unindexed
  · rw [hi]
    rfl
  · have hfield := h.field (s.indexPlace i) 4
    rw [State.indexValue_eq _ hi, State.indexValue_eq _ hi, ← allDecimal_congr hfield, ← magnitude_congr hfield]
    rfl

theorem SameNumerics.effective {s : State} {m : Memory} (h : SameNumerics s.mem m) (a b : Operand) :
    (s.setMem m).effective a b = s.effective a b := by
  unfold State.effective
  rw [h.indexValue, h.indexValue]
  rfl

/-! One character of one field. -/

/-- A location of the first of two fields that do not overlap lies outside the second. -/
theorem outside_of_not_overlap {p q : Place} {n m loc : Nat} (h : overlap p n q m = false) (hlo : p.loc ≤ loc)
    (hhi : loc < p.loc + n) : ¬ (p.space = q.space ∧ q.loc ≤ loc ∧ loc < q.loc + m) := by
  rintro ⟨hspace, hqlo, hqhi⟩
  exact of_decide_eq_false h ⟨hspace, by omega, by omega⟩

theorem State.field_setMem_write (s : State) {p : Place} {n : Nat} (hn : p.loc + n ≤ Config.spaceLimit) {sp : Space}
    {loc : Nat} (hloc : loc < Config.spaceLimit) (hout : ¬ (sp = p.space ∧ p.loc ≤ loc ∧ loc < p.loc + n))
    (c : Character) : (s.setMem (s.mem.write (sp.key loc) c)).field p n = s.field p n :=
  Memory.readField_congr fun _ hlo hhi => Memory.read_write_ne _ _ fun hj =>
    hout ((Place.key_in_field hn hloc).mp (hj ▸ ⟨hlo, hhi⟩))

theorem State.signOf_field (s : State) (p : Place) {n : Nat} (hn : 0 < n) :
    signOf (s.field p n) = bit7 (s.at p.space (p.loc + (n - 1))) := by
  rw [signOf_eq_getElem (by rwa [s.field_length]), s.field_getElem, s.field_length]

/-- One list of characters stored into two memories. -/
theorem Memory.read_writeField_congr {m m' : Memory} (h : m.wf = true) (h' : m'.wf = true) {j : Nat}
    (hj : m.read j = m'.read j) (k : Nat) (cs : List Character) :
    (m.writeField k cs).read j = (m'.writeField k cs).read j := by
  rw [Memory.read_writeField h, Memory.read_writeField h', hj]

/-! The state in which the sign of a field is reversed. -/

/-- The character with bit-7 reversed. -/
def reverseSign (c : Character) : Character := character (!bit7 c) (bit5 c) (numeric c)

/-- The state in which only the sign bit of the n characters at a place is reversed. -/
def State.signReversed (s : State) (p : Place) (n : Nat) : State :=
  s.setMem (s.mem.write (p.space.key (p.loc + (n - 1))) (reverseSign (s.at p.space (p.loc + (n - 1)))))

theorem State.signReversed_sameNumerics {s : State} (hwf : s.mem.wf = true) (p : Place) (n : Nat) :
    SameNumerics s.mem (s.signReversed p n).mem :=
  .write hwf (num_character _ _ _)

theorem State.signOf_signReversed {s : State} (hwf : s.mem.wf = true) (p : Place) {n : Nat} (hn : 0 < n) :
    signOf ((s.signReversed p n).field p n) = !signOf (s.field p n) := by
  rw [State.signOf_field _ _ hn, State.signOf_field _ _ hn]
  exact (congrArg bit7 (Memory.read_write_same hwf _ _)).trans (bit7_character _ _ _)

/-- A field that does not overlap is the same. -/
theorem State.field_signReversed (s : State) {p q : Place} {n m : Nat} (hn : 0 < n)
    (hp : p.loc + n ≤ Config.spaceLimit) (hq : q.loc + m ≤ Config.spaceLimit) (h : overlap p n q m = false) :
    (s.signReversed p n).field q m = s.field q m :=
  s.field_setMem_write hq (by omega) (outside_of_not_overlap h (by omega) (by omega)) _

/-! The two results. -/

theorem signedSum_of_sign_reversed {a a' b : List Character} (hnum : a'.map num = a.map num)
    (hsign : signOf a' = !signOf a) :
    (usedPart a' b).map num = (usedPart a b).map num ∧ signedSum false a' b = signedSum true a b := by
  have hlen : a'.length = a.length := by simpa only [List.length_map] using congrArg List.length hnum
  have hused : (usedPart a' b).map num = (usedPart a b).map num := by
    rw [usedPart, usedPart, List.map_drop, List.map_drop, hnum, hlen]
  exact ⟨hused, by rw [signedSum, signedSum, magnitude_congr hused, hsign, Bool.xor_false, Bool.xor_true]⟩

/-- Add on the field A with its sign reversed gives what Subtract gives on A. -/
theorem addFields_of_sign_reversed (draw : Nat) {a a' b : List Character} (hnum : a'.map num = a.map num)
    (hsign : signOf a' = !signOf a) : addFields draw false a' b = addFields draw true a b := by
  obtain ⟨hused, hsum⟩ := signedSum_of_sign_reversed (b := b) hnum hsign
  rw [addFields, addFields, allDecimal_congr hused, sumResult, sumResult, hsum]

section
variable {s : State} {la lb : Nat} {a b : Operand} {pa pb : Place} (hs : s.Formed)
  (hord : s.Ordinary a b pa (len1 la) pb (len1 lb))
include hs hord

/-- The reversed sign changes no address and no check. -/
theorem State.Ordinary.signReversed : (s.signReversed pa (len1 la)).Ordinary a b pa (len1 la) pb (len1 lb) := by
  obtain ⟨he, hread, hwrite, hdisjoint⟩ := hord
  exact ⟨((s.signReversed_sameNumerics hs.2 pa (len1 la)).effective a b).trans he, hread, hwrite, hdisjoint⟩

/-- Add where the sign of Operand-A is reversed stores the result of Subtract. -/
theorem add_signReversed_next {r : FieldResult}
    (hr : addFields s.draws true (s.field pa (len1 la)) (s.field pb (len1 lb)) = r) :
    exec (.add la lb a b) (s.signReversed pa (len1 la)) =
      .next ((s.signReversed pa (len1 la)).finish ((s.signReversed pa (len1 la)).stored pb r.chars) r.cc) := by
  obtain ⟨-, hread, hwrite, hdisjoint⟩ := id hord
  refine State.arithmetic_next_of_ordinary (State.Ordinary.signReversed hs hord) ?_
  rw [s.field_signReversed (len1_pos la) hread.1.le hwrite.1.le hdisjoint, ← hr]
  exact addFields_of_sign_reversed _ ((s.signReversed_sameNumerics hs.2 pa (len1 la)).field pa (len1 la))
    (State.signOf_signReversed hs.2 pa (len1_pos la))

end

/-- Settles O25: both instructions store the same characters, into memories that differ in the sign of Operand-A
alone. -/
theorem subtractReversesSign : Obligations.SubtractReversesSign := by
  rintro s s' t' la lb a b pa pb c k hs hord rfl rfl hs' hadd
  obtain rfl : s' = s.signReversed pa (len1 la) := hs'
  obtain ⟨r, hr⟩ : ∃ r, addFields s.draws true (s.field pa (len1 la)) (s.field pb (len1 lb)) = r := ⟨_, rfl⟩
  obtain rfl := Host.Outcome.next.inj (hadd.symm.trans (add_signReversed_next hs hord hr))
  obtain ⟨hhost, hwf⟩ := hs
  obtain ⟨-, hread, hwrite, hdisjoint⟩ := id hord
  have hla := len1_pos la
  have hlast : pa.loc + (len1 la - 1) < Config.spaceLimit := by
    have := hread.1.le
    omega
  have hframe : Untouched s (s.finish (s.stored pb r.chars) r.cc) pb (len1 lb) :=
    State.untouched_of_stored hwrite (by rw [← hr, addFields_length, s.field_length]) rfl
  refine ⟨_, State.arithmetic_next_of_ordinary hord hr, ?_,
    hframe _ _ hlast (outside_of_not_overlap hdisjoint (by omega) (by omega)), fun sp loc hloc hne => ?_⟩
  · rw [State.finish_me_cc (s := s.signReversed pa (len1 la)) hhost]
    exact s.finishes hhost _ _
  · refine Memory.read_writeField_congr hwf (Memory.wf_write hwf _ _) ?_ _ _
    exact (Memory.read_write_ne _ _ fun h => hne (Space.key_inj hloc hlast h)).symm

end Sys2Proof.Machine
end

section
/-! SUPPORT. The words of the statements about Branch, Link and Branch on Service Request, and what a taken branch and
the next sequential instruction leave of the state (41_branch.md R161 to R164, R177; 10_state.md R36). -/

namespace Sys2Proof.Machine

/-! The variant digits and the addresses. -/

theorem branchRequired_iff {cc : ConditionCode} {d : Nat} : branchRequired cc d = true ↔ Required cc d := by
  unfold branchRequired
  split <;> simp_all [Required]

theorem branchRequired_eq_false {cc : ConditionCode} {d : Nat} : branchRequired cc d = false ↔ ¬ Required cc d := by
  rw [← branchRequired_iff, Bool.not_eq_true]

theorem reservedVariant_iff {d : Nat} : reservedVariant d = true ↔ d = 6 ∨ d = 7 ∨ 10 ≤ d := by
  simp [reservedVariant, or_assoc, Nat.succ_le_iff]

/-- A digit that requires a branch is 1, 2, 3, 4, 5 or 8. -/
theorem Required.not_reserved {cc : ConditionCode} {d : Nat} (h : Required cc d) : reservedVariant d = false := by
  rw [← Bool.not_eq_true, reservedVariant_iff]
  omega

/-- The digits that may require no branch. -/
theorem reservedVariant_of_not_taken {d : Nat} (h : d ∈ [0, 1, 2, 3, 4, 9]) : reservedVariant d = false :=
  (show ∀ d ∈ [0, 1, 2, 3, 4, 9], reservedVariant d = false by decide) d h

theorem names_iff {a : BranchAddress} {loc : Nat} :
    Names a loc ↔ a.digits.decimal = true ∧ loc = a.digits.value := by
  simp only [Names, AddressDigits.decimal, AddressDigits.value, decide_eq_true_eq, and_assoc]

theorem not_decimal_of_names_nothing {a : BranchAddress} (h : ∀ loc, ¬ Names a loc) : ¬ a.digits.decimal = true :=
  fun hd => h _ (names_iff.mpr ⟨hd, rfl⟩)

theorem branchLocation_error {a : BranchAddress} (h : ∀ loc, ¬ Names a loc) :
    branchLocation a = .error .reservedEncoding := if_neg (not_decimal_of_names_nothing h)

theorem branchTarget_error {a : BranchAddress} (h : ∀ loc, ¬ Names a loc) :
    branchTarget a = .error .reservedEncoding := Except.bind_error.mpr (.inl (branchLocation_error h))

/-- The variants that are executed half by half have one meaning, which takes the digit LA. -/
theorem exec_plainBranch {va : Nat} {make : Numeric → BranchAddress → BranchAddress → Instr}
    (h : (va, make) ∈ plainBranches) (s : State) (lb : Numeric) (a b : BranchAddress) :
    exec (make lb a b) s = s.outcome (s.branch va lb a b) := by
  simp only [plainBranches, List.mem_cons, List.not_mem_nil, or_false, Prod.mk.injEq] at h
  rcases h with ⟨rfl, rfl⟩ | ⟨rfl, rfl⟩ | ⟨rfl, rfl⟩ | ⟨rfl, rfl⟩ | ⟨rfl, rfl⟩ | ⟨rfl, rfl⟩ | ⟨rfl, rfl⟩ | ⟨rfl, rfl⟩
  all_goals rfl

/-! What passing control leaves. -/

theorem State.sameOthers_modifyMe (s : State) (f : Partition → Partition) : SameOthers s (s.modifyMe f) :=
  ⟨s.modifyPart_length _ _, fun _ hq => s.part_modifyMe_ne f hq⟩

theorem State.advance_finishes {s : State} (h : s.host < s.parts.length) : Finishes s s.advance s.me.cc :=
  ⟨⟨rfl, rfl, rfl, rfl, rfl, rfl⟩, s.sameOthers_modifyMe _, rfl, rfl, s.me_modifyMe _ h⟩

/-- Control passes on exactly when the switch is forced or the time slice is over. -/
theorem State.taken_arrives {s : State} (h : s.host < s.parts.length) (target : InstrAddress) {forced : Bool}
    {P : Prop} (hforced : forced = true ↔ P) : Arrives s (s.taken target forced) target P := by
  have hpart : (s.goto target).part s.host = { s.me with pc := target } := s.me_modifyMe _ h
  have hcond : (forced || s.sliceOver) = true ↔ P ∨ Config.timeSlice < s.timer := by
    rw [Bool.or_eq_true, hforced, State.sliceOver, decide_eq_true_iff]
  unfold Arrives
  rw [← hcond]
  unfold State.taken
  split
  · rename_i hswitch
    exact ⟨⟨rfl, rfl, rfl, rfl, rfl, rfl⟩, s.sameOthers_modifyMe _, hpart,
      fun _ => ⟨congrArg ((s.host + 1) % ·) (s.modifyPart_length _ _), rfl⟩, fun hstay => absurd hswitch hstay⟩
  · rename_i hstay
    exact ⟨⟨rfl, rfl, rfl, rfl, rfl, rfl⟩, s.sameOthers_modifyMe _, hpart, fun hswitch => absurd hswitch hstay,
      fun _ => ⟨rfl, rfl⟩⟩

theorem State.taken_sameMemory (s : State) (target : InstrAddress) (forced : Bool) :
    SameMemory s (s.taken target forced) := fun _ _ _ => by rw [State.at, State.taken_mem, State.at]

end Sys2Proof.Machine
end

section
/-! SUPPORT. What Branch, Link and Branch on Service Request do when their checks pass (41_branch.md R161 to R175). -/

namespace Sys2Proof.Machine

/-! Branch. -/

/-- Settles O39: the left half decides first, then LB, and else the next instruction follows. -/
theorem branchHalves : Obligations.BranchHalves := by
  intro s va make lb a b hhost hmake
  simp only [exec_plainBranch hmake, State.outcome_next, State.branch_ok]
  refine ⟨fun loc hva ha => ?_, fun loc hva _ hlb hb => ?_, fun hva hdigit hlb => ?_⟩
  · obtain ⟨hdecimal, rfl⟩ := names_iff.mp ha
    exact ⟨_, .inl ⟨branchRequired_iff.mpr hva, hdecimal, rfl⟩, s.taken_sameMemory _ _,
      State.taken_arrives hhost _ beq_iff_eq⟩
  · obtain ⟨hdecimal, rfl⟩ := names_iff.mp hb
    exact ⟨_, .inr (.inl ⟨branchRequired_eq_false.mpr hva, hlb.not_reserved, branchRequired_iff.mpr hlb, hdecimal,
      rfl⟩), s.taken_sameMemory _ _, State.taken_arrives hhost _ beq_iff_eq⟩
  · exact ⟨_, .inr (.inr ⟨branchRequired_eq_false.mpr hva, reservedVariant_of_not_taken hdigit,
      branchRequired_eq_false.mpr hlb, rfl⟩), fun _ _ _ => rfl, State.advance_finishes hhost⟩

/-! Link. -/

/-- The return address is put into its field as a result of Add is, with the Common bit in the place of the sign. -/
theorem returnCharacters_eq_putDigits (old : List Character) (ret : InstrAddress) :
    returnCharacters old ret = putDigits old (digits 4 ret.loc) ret.common := by
  unfold returnCharacters
  generalize digits 4 ret.loc = ds
  induction old generalizing ds with
  | nil => cases ds <;> rfl
  | cons c cs ih =>
    cases ds with
    | nil => cases cs <;> rfl
    | cons d ds =>
      cases cs with
      | nil => cases ds <;> rfl
      | cons c' cs =>
        rw [putDigits_cons_cons, ← ih]
        cases ds <;> rfl

/-- Settles O42: a Link that is not required is the next sequential instruction. -/
theorem linkNotPerformed : Obligations.LinkNotPerformed := fun _ _ _ _ hhost hdigit hlb =>
  ⟨_, State.outcome_next.mpr (State.link_ok.mpr
    ⟨reservedVariant_of_not_taken hdigit, .inl ⟨branchRequired_eq_false.mpr hlb, rfl⟩⟩), fun _ _ _ => rfl,
    State.advance_finishes hhost⟩

/-- With LB = 8 the free bit decides whether control passes on; with another LB it does not. -/
theorem State.taken_link_arrives {s : State} (h : s.host < s.parts.length) (target : InstrAddress) (lb : Nat)
    (free : Bool) : Arrives s (s.taken target (lb == 8 && free)) target False ∨
      lb = 8 ∧ Arrives s (s.taken target (lb == 8 && free)) target True := by
  cases hforced : lb == 8 && free with
  | false => exact .inl (State.taken_arrives h target (by simp))
  | true =>
    rw [Bool.and_eq_true, beq_iff_eq] at hforced
    exact .inr ⟨hforced.1, State.taken_arrives h target (by simp)⟩

/-- A performed Link passes control to Address-B with the return address stored at Address-A. -/
theorem State.link_performed {s : State} {lb : Numeric} {a b : BranchAddress} {la start : Nat}
    (hlb : Required s.me.cc lb.toNat) (ha : Names a la) (hb : Names b start) (hret : s.me.pc.loc + 10 ≤ 9999)
    (hwrite : s.CanWrite (s.place a.common la) 4) :
    s.link lb a b = .ok ((s.taken { common := b.common, loc := start } (lb.toNat == 8 && Config.freeBit s.draws)).setMem
      (s.stored (s.place a.common la)
        (putDigits (s.field (s.place a.common la) 4) (digits 4 (s.me.pc.loc + 10)) s.me.pc.common))) := by
  obtain ⟨hdecimala, rfl⟩ := names_iff.mp ha
  obtain ⟨hdecimalb, rfl⟩ := names_iff.mp hb
  rw [← State.taken_setMem]
  exact State.link_ok.mpr ⟨hlb.not_reserved, .inr ⟨branchRequired_iff.mpr hlb, hdecimala, hdecimalb, hret, hwrite,
    by rw [returnCharacters_eq_putDigits]; rfl⟩⟩

/-- Settles O41: the field at Address-A holds the return address as a number, and control is at Address-B. -/
theorem linkStoresReturn : Obligations.LinkStoresReturn := by
  rintro s lb a b la start ret p ⟨hhost, hwf⟩ - hlb ha hb hret hmax hp hwrite
  obtain rfl : s.place a.common la = p := hp.symm
  have hnext := State.link_performed hlb ha hb (hret ▸ hmax) hwrite
  rw [← hret] at hnext
  generalize s.place a.common la = p at hwrite hnext
  have hlen : (putDigits (s.field p 4) (digits 4 ret) s.me.pc.common).length = 4 := by
    rw [putDigits_length _ _ _ (by simp), s.field_length]
  have harrives := State.taken_link_arrives hhost { common := b.common, loc := start } lb.toNat
    (Config.freeBit s.draws)
  generalize s.taken _ _ = u at hnext harrives
  have hnumber : HoldsNumber s (u.setMem (s.stored p (putDigits (s.field p 4) (digits 4 ret) s.me.pc.common))) p 4
    (ret % 10 ^ 4) s.me.pc.common :=
    .of_putDigits (by decide) (State.field_of_stored_of_length hwf hlen (State.setMem_mem _ _))
  refine ⟨_, State.outcome_next.mpr hnext, State.untouched_of_stored hwrite hlen.le rfl, hnumber.keepsZones,
    hnumber.magnitude_eq.trans (Nat.mod_eq_of_lt (by omega)), hnumber.decimal,
    (State.signOf_field _ p (n := 4) (by decide)).symm.trans hnumber.signOf_eq, harrives⟩

/-! Branch on Service Request. -/

/-- Device d has been reported in the character at a place, and polling resumes at the device after it. -/
def State.reported (s : State) (p : Place) (d : Nat) : State :=
  (s.setMem (s.mem.write p.key (mkChar (bit7 (s.mem.read p.key)) (bit5 (s.mem.read p.key)) d))).modifyMe
    fun h => { h with srq := none, poll := (d + 1) % 10 }

@[simp] theorem State.reported_length (s : State) (p : Place) (d : Nat) :
    (s.reported p d).parts.length = s.parts.length := by simp [State.reported]

theorem State.reported_me {s : State} (h : s.host < s.parts.length) (p : Place) {d : Nat} (hd : d < 10) :
    (s.reported p d).me = { s.me with srq := none, poll := if d = 9 then 0 else d + 1 } := by
  have hpoll : (d + 1) % 10 = if d = 9 then 0 else d + 1 := by split <;> omega
  rw [← hpoll]
  exact State.me_modifyMe (s.setMem _) _ h

theorem State.num_reported {s : State} (hwf : s.mem.wf = true) (p : Place) {d : Nat} (hd : d < 10) :
    num ((s.reported p d).at p.space p.loc) = d :=
  (congrArg num (Memory.read_write_same hwf _ _)).trans (num_mkChar _ _ hd)

/-- A held request passes control to Address-B once the device is reported at Address-A. -/
theorem State.serviceRequest_performed {s : State} {lb : Numeric} {a b : BranchAddress} {d la target : Nat}
    (hlb : lb.toNat = 0 ∨ lb.toNat = 9) (hd : s.me.srq = some d) (ha : Names a la) (hb : Names b target)
    (hwrite : s.CanWrite (s.place a.common la) 1) :
    s.serviceRequest lb a b =
      .ok ((s.reported (s.place a.common la) d).taken { common := b.common, loc := target } false) := by
  obtain ⟨hdecimala, rfl⟩ := names_iff.mp ha
  obtain ⟨hdecimalb, rfl⟩ := names_iff.mp hb
  exact State.serviceRequest_ok.mpr ⟨hlb, .inr ⟨d, hd, hdecimala, hdecimalb, hwrite, _, rfl, rfl⟩⟩

/-- Settles O43: a held request is taken from the host partition before control passes to Address-B. -/
theorem serviceRequestTaken : Obligations.ServiceRequestTaken := by
  rintro s lb a b ⟨hhost, hwf⟩ hlb
  refine ⟨fun hnone => ⟨_, State.outcome_next.mpr (State.serviceRequest_ok.mpr ⟨hlb, .inl ⟨hnone, rfl⟩⟩),
    fun _ _ _ => rfl, State.advance_finishes hhost⟩, ?_⟩
  intro d la target p hsome hd ha hb hp hwrite
  obtain rfl : s.place a.common la = p := hp.symm
  have hnext := State.serviceRequest_performed hlb hsome ha hb hwrite
  generalize s.place a.common la = p at hwrite hnext
  have hlen := s.reported_length p d
  have hround : (s.reported p d).nextPartition = s.nextPartition := congrArg ((s.host + 1) % ·) hlen
  obtain ⟨hmachine, ⟨hparts, hothers⟩, hpart, hswitch, hstay⟩ := State.taken_arrives (s := s.reported p d)
    (hlen ▸ hhost) { common := b.common, loc := target } (forced := false) (P := False) (by simp)
  refine ⟨_, State.outcome_next.mpr hnext,
    State.untouched_of_stored (cs := [_]) hwrite (le_refl 1) (State.taken_mem _ _ _), ?_, hmachine,
    ⟨hparts.trans hlen, fun q hq => (hothers q hq).trans (State.part_modifyMe_ne (s.setMem _) _ hq)⟩,
    hpart.trans (by rw [State.reported_me hhost p hd]),
    fun h => (hswitch (.inr h)).imp_left (·.trans hround), fun h => hstay (not_or.mpr ⟨id, h⟩)⟩
  rw [State.at, State.taken_mem]
  exact State.num_reported hwf p hd

/-- Settles O44: the one character that is stored is made with the zone bits that stand there. -/
theorem serviceRequestKeepsZones : Obligations.ServiceRequestKeepsZones := by
  intro s t lb a b hwf h sp loc _
  obtain ⟨-, ⟨-, rfl⟩ | ⟨d, -, -, -, -, p, -, rfl⟩⟩ := State.serviceRequest_ok.mp (State.outcome_next.mp h)
  · exact ⟨rfl, rfl⟩
  · rw [State.at, State.taken_mem, State.modifyMe_mem, State.setMem_mem, Memory.read_write hwf, State.at]
    split
    · rename_i hkey
      rw [bit7_mkChar, bit5_mkChar, hkey]
      exact ⟨rfl, rfl⟩
    · exact ⟨rfl, rfl⟩

end Sys2Proof.Machine
end

section
/-! SUPPORT. The faults of Branch, Link and Branch on Service Request, in the order of their checks (41_branch.md R163,
R171, R174; 60_exceptions.md R362). -/

namespace Sys2Proof.Machine

/-! Branch. -/

section
variable {s : State} {va : Nat} {lb : Numeric} {a b : BranchAddress}

theorem branch_error_target_a (hva : Required s.me.cc va) (ha : ∀ loc, ¬ Names a loc) :
    s.branch va lb a b = .error .reservedEncoding := by
  unfold State.branch
  rw [if_pos (branchRequired_iff.mpr hva), branchTarget_error ha]
  rfl

theorem branch_error_variant (hva : ¬ Required s.me.cc va) (hlb : reservedVariant lb.toNat = true) :
    s.branch va lb a b = .error .reservedEncoding := by
  unfold State.branch
  rw [if_neg (mt branchRequired_iff.mp hva), if_pos hlb]

theorem branch_error_target_b (hva : ¬ Required s.me.cc va) (hlb : Required s.me.cc lb.toNat)
    (hb : ∀ loc, ¬ Names b loc) : s.branch va lb a b = .error .reservedEncoding := by
  unfold State.branch
  rw [if_neg (mt branchRequired_iff.mp hva), if_neg (Bool.eq_false_iff.mp hlb.not_reserved),
    if_pos (branchRequired_iff.mpr hlb), branchTarget_error hb]
  rfl

/-! The two addresses, which Link and Branch on Service Request look at before anything else. -/

theorem addresses_error (h : (∀ loc, ¬ Names a loc) ∨ (∀ loc, ¬ Names b loc))
    (f : Nat → InstrAddress → Except FaultKind State) :
    (branchLocation a >>= fun loc => branchTarget b >>= f loc) = .error .reservedEncoding := by
  by_cases ha : a.digits.decimal = true
  · have hb := h.resolve_left fun hnone => not_decimal_of_names_nothing hnone ha
    exact Except.bind_error.mpr (.inr ⟨_, branchLocation_ok.mpr ⟨ha, rfl⟩,
      Except.bind_error.mpr (.inl (branchTarget_error hb))⟩)
  · exact Except.bind_error.mpr (.inl (if_neg ha))

theorem addresses_named {la target : Nat} (ha : Names a la) (hb : Names b target)
    (f : Nat → InstrAddress → Except FaultKind State) :
    (branchLocation a >>= fun loc => branchTarget b >>= f loc) = f la { common := b.common, loc := target } := by
  rw [branchLocation_ok.mpr (names_iff.mp ha)]
  obtain ⟨hdecimal, rfl⟩ := names_iff.mp hb
  show (branchTarget b >>= f la) = _
  rw [branchTarget_ok.mpr ⟨hdecimal, rfl⟩]
  rfl

/-! Link. -/

theorem link_error_variant (hlb : reservedVariant lb.toNat = true) : s.link lb a b = .error .reservedEncoding :=
  if_pos hlb

section
variable (hlb : Required s.me.cc lb.toNat)
include hlb

theorem link_error_addresses (h : (∀ loc, ¬ Names a loc) ∨ (∀ loc, ¬ Names b loc)) :
    s.link lb a b = .error .reservedEncoding := by
  unfold State.link
  rw [if_neg (Bool.eq_false_iff.mp hlb.not_reserved), if_pos (branchRequired_iff.mpr hlb)]
  exact addresses_error h _

variable {la start : Nat} (ha : Names a la) (hb : Names b start)
include ha hb

theorem link_error_return (h : 9990 ≤ s.me.pc.loc) : s.link lb a b = .error .addressRange := by
  unfold State.link
  rw [if_neg (Bool.eq_false_iff.mp hlb.not_reserved), if_pos (branchRequired_iff.mpr hlb)]
  refine (addresses_named ha hb _).trans (if_pos ?_)
  show 9999 < s.me.pc.loc + 10
  omega

theorem link_error_store {kind : FaultKind} (hpc : s.me.pc.loc < 9990)
    (h : s.WriteFault (s.place a.common la) 4 kind) : s.link lb a b = .error kind := by
  unfold State.link
  rw [if_neg (Bool.eq_false_iff.mp hlb.not_reserved), if_pos (branchRequired_iff.mpr hlb)]
  refine (addresses_named ha hb _).trans ((if_neg ?_).trans
    (Except.bind_error.mpr (.inl (State.checkWrite_error.mpr h))))
  show ¬ 9999 < s.me.pc.loc + 10
  omega

end

/-! Branch on Service Request. -/

theorem serviceRequest_error_variant (h0 : lb.toNat ≠ 0) (h9 : lb.toNat ≠ 9) :
    s.serviceRequest lb a b = .error .reservedEncoding := if_pos (not_or.mpr ⟨h0, h9⟩)

section
variable {d : Nat} (hlb : lb.toNat = 0 ∨ lb.toNat = 9) (hd : s.me.srq = some d)
include hlb hd

theorem serviceRequest_error_addresses (h : (∀ loc, ¬ Names a loc) ∨ (∀ loc, ¬ Names b loc)) :
    s.serviceRequest lb a b = .error .reservedEncoding := by
  unfold State.serviceRequest
  rw [if_neg (not_not.mpr hlb)]
  simp only [hd]
  exact addresses_error h _

theorem serviceRequest_error_store {la target : Nat} {kind : FaultKind} (ha : Names a la) (hb : Names b target)
    (h : s.WriteFault (s.place a.common la) 1 kind) : s.serviceRequest lb a b = .error kind := by
  unfold State.serviceRequest
  rw [if_neg (not_not.mpr hlb)]
  simp only [hd]
  exact (addresses_named ha hb _).trans (Except.bind_error.mpr (.inl (State.checkWrite_error.mpr h)))

end

end

/-- Settles O40: each of the three stops with the first of its checks that fails. -/
theorem branchFaults : Obligations.BranchFaults := by
  intro s lb a b
  refine ⟨fun hlb => ?_, fun h0 h9 => State.outcome_of_error (serviceRequest_error_variant h0 h9),
    fun va make hmake => ⟨fun hva ha => ?_, fun hva hlb hb => ?_⟩, fun hlb => ⟨fun h => ?_, fun la start ha hb => ?_⟩,
    fun d hlb hd => ⟨fun h => ?_, ?_⟩⟩
  · have hreserved := reservedVariant_iff.mpr hlb
    exact ⟨fun va make hmake hva =>
      (exec_plainBranch hmake s lb a b).trans (State.outcome_of_error (branch_error_variant hva hreserved)),
      State.outcome_of_error (link_error_variant hreserved)⟩
  · exact (exec_plainBranch hmake s lb a b).trans (State.outcome_of_error (branch_error_target_a hva ha))
  · exact (exec_plainBranch hmake s lb a b).trans (State.outcome_of_error (branch_error_target_b hva hlb hb))
  · exact State.outcome_of_error (link_error_addresses hlb h)
  · refine ⟨fun h => State.outcome_of_error (link_error_return hlb ha hb h), ?_⟩
    rintro p kind rfl hpc h
    exact State.outcome_of_error (link_error_store hlb ha hb hpc h)
  · exact State.outcome_of_error (serviceRequest_error_addresses hlb hd h)
  · rintro la target p kind ha hb rfl h
    exact State.outcome_of_error (serviceRequest_error_store hlb hd ha hb h)

end Sys2Proof.Machine
end

section
/-! SUPPORT. Compare: the flags of two lists of characters follow their first difference, and two fields that agree in
every location read as one list (42_compare.md R191 to R193). -/

namespace Sys2Proof.Machine

/-! The Condition Code of two lists. -/

@[simp] theorem compareFields_cons_self (c : Character) (xs ys : List Character) :
    compareFields (c :: xs) (c :: ys) = compareFields xs ys := by
  simp [compareFields]

/-- Equal leftmost characters decide nothing. -/
theorem compareFields_append (cs xs ys : List Character) :
    compareFields (cs ++ xs) (cs ++ ys) = compareFields xs ys := by
  induction cs with
  | nil => rfl
  | cons c cs ih => rw [List.cons_append, List.cons_append, compareFields_cons_self, ih]

theorem compareFields_self (cs : List Character) : compareFields cs cs = .equal := by
  simpa [compareFields] using compareFields_append cs [] []

theorem compareFields_of_lt {x y : Character} (h : x < y) (xs ys : List Character) :
    compareFields (x :: xs) (y :: ys) = .only .one := if_pos h

theorem compareFields_of_gt {x y : Character} (h : y < x) (xs ys : List Character) :
    compareFields (x :: xs) (y :: ys) = .greater :=
  (if_neg (Nat.lt_asymm h)).trans (if_pos h)

/-! The two fields. -/

/-- Fields that agree in every location are one list of characters. -/
theorem State.field_eq_of_at {s : State} {p q : Place} {n : Nat}
    (h : ∀ k < n, s.at p.space (p.loc + k) = s.at q.space (q.loc + k)) : s.field p n = s.field q n := by
  refine List.ext_getElem (by simp) fun k hk _ => ?_
  rw [State.field_getElem, State.field_getElem]
  exact h k (s.field_length p n ▸ hk)

/-- A field is its first k characters, the character after them and the rest. -/
theorem State.field_split (s : State) (p : Place) {n k : Nat} (hk : k < n) :
    s.field p n = s.field p k ++ s.at p.space (p.loc + k) :: (s.field p n).drop (k + 1) := by
  have hlen : k < (s.field p n).length := by rwa [s.field_length]
  have htake : (s.field p n).take k = s.field p k := by
    refine List.ext_getElem (by simp [hk.le]) fun j _ _ => ?_
    rw [List.getElem_take, State.field_getElem, State.field_getElem]
  rw [← htake, ← State.field_getElem s p n k hlen, ← List.drop_eq_getElem_cons hlen, List.take_append_drop]

/-- Where two fields agree to the left of a position, Compare goes on with the characters of that position. -/
theorem compareFields_field {s : State} {pa pb : Place} {n k : Nat} (hk : k < n)
    (hfirst : ∀ j < k, s.at pa.space (pa.loc + j) = s.at pb.space (pb.loc + j)) :
    ∃ xs ys, compareFields (s.field pa n) (s.field pb n) =
      compareFields (s.at pa.space (pa.loc + k) :: xs) (s.at pb.space (pb.loc + k) :: ys) := by
  refine ⟨(s.field pa n).drop (k + 1), (s.field pb n).drop (k + 1), ?_⟩
  conv_lhs => rw [s.field_split pa hk, s.field_split pb hk, State.field_eq_of_at hfirst]
  exact compareFields_append _ _ _

/-- Settles O30: Compare finishes with memory as it was, under the Condition Code of the two fields. -/
theorem compareFlags : Obligations.CompareFlags := by
  rintro s la lb n a b pa pb rfl hhost he ha hb
  refine ⟨_, compareFields (s.field pa (len2 la lb)) (s.field pb (len2 la lb)),
    State.outcome_next.mpr (State.compare_ok.mpr ⟨pa, pb, he, ha, hb, rfl⟩), s.finishes hhost _ _, fun _ _ _ => rfl,
    fun hequal => ?_, fun k hk hfirst => ?_⟩
  · rw [State.field_eq_of_at hequal]
    exact compareFields_self _
  · obtain ⟨xs, ys, hcc⟩ := compareFields_field hk hfirst
    exact ⟨fun hless => hcc.trans (compareFields_of_lt hless xs ys),
      fun hgreater => hcc.trans (compareFields_of_gt hgreater xs ys)⟩

end Sys2Proof.Machine
end

section
/-! SUPPORT. Divide of decimal operands: overflow, division by zero, quotient and remainder (43_divide.md R201 to
R206). -/

namespace Sys2Proof.Machine

/-! Two parts of a field. -/

theorem dec_eq_ofDigits (ds : List Nat) : dec ds = Nat.ofDigits 10 ds.reverse := by
  simp only [dec, Nat.ofDigits_eq_foldr, List.foldr_reverse, add_comm, Nat.cast_id]

/-- The left part counts as many powers of ten as the right part has positions. -/
theorem magnitude_append (xs ys : List Character) :
    magnitude (xs ++ ys) = magnitude xs * 10 ^ ys.length + magnitude ys := by
  simp only [magnitude, dec_eq_ofDigits, List.map_append, List.reverse_append, Nat.ofDigits_append,
    List.length_reverse, List.length_map]
  ring

theorem magnitude_lt_of_allDecimal {cs : List Character} (h : allDecimal cs = true) :
    magnitude cs < 10 ^ cs.length := by
  rw [allDecimal_eq_all_map_num, List.all_eq_true] at h
  rw [magnitude, dec_eq_ofDigits]
  refine (Nat.ofDigits_lt_base_pow_length (by decide) fun d hd => ?_).trans_eq (by simp)
  exact of_decide_eq_true (h d (List.mem_reverse.mp hd))

theorem allDecimal_append {xs ys : List Character} :
    allDecimal (xs ++ ys) = true ↔ allDecimal xs = true ∧ allDecimal ys = true := by
  rw [allDecimal, List.all_append, Bool.and_eq_true]
  rfl

/-- The leftmost positions of a decimal field hold its magnitude without the positions to their right. -/
theorem magnitude_take_of_allDecimal {cs : List Character} {m n : Nat} (h : allDecimal cs = true)
    (hlen : cs.length = m + n) : magnitude (cs.take m) = magnitude cs / 10 ^ n := by
  have hright : magnitude (cs.drop m) < 10 ^ n := by
    rw [← List.take_append_drop m cs] at h
    have hlt := magnitude_lt_of_allDecimal (allDecimal_append.mp h).2
    rwa [List.length_drop, hlen, Nat.add_sub_cancel_left] at hlt
  have hparts := magnitude_append (cs.take m) (cs.drop m)
  rw [List.take_append_drop, List.length_drop, hlen, Nat.add_sub_cancel_left] at hparts
  rw [hparts, Nat.mul_comm, Nat.mul_add_div (by positivity), Nat.div_eq_of_lt hright, Nat.add_zero]

/-- A field of m + n characters is its leftmost m and, from the place after them on, its rightmost n. -/
theorem State.field_add (s : State) (p : Place) (m n : Nat) :
    s.field p (m + n) = s.field p m ++ s.field { p with loc := p.loc + m } n := by
  refine List.ext_getElem (by simp) fun k hk _ => ?_
  rw [List.getElem_append, State.field_getElem]
  split
  · rw [State.field_getElem]
  · rename_i hright
    rw [State.field_getElem, s.field_length]
    rw [s.field_length] at hright
    exact congrArg (s.at p.space) (by simp only; omega)

theorem State.drop_field_add (s : State) (p : Place) (m n : Nat) :
    (s.field p (m + n)).drop m = s.field { p with loc := p.loc + m } n := by
  rw [s.field_add, List.drop_left' (s.field_length p m)]

/-- Memory is the same when a field has its old characters and nothing outside it is different. -/
theorem Untouched.sameMemory {s t : State} {p : Place} {n : Nat} (hframe : Untouched s t p n)
    (hfield : t.field p n = s.field p n) : SameMemory s t := by
  intro sp loc hloc
  by_cases hin : sp = p.space ∧ p.loc ≤ loc ∧ loc < p.loc + n
  · obtain ⟨rfl, hlo, hhi⟩ := hin
    have hk : loc - p.loc < (s.field p n).length := by
      rw [s.field_length]
      omega
    have hat := (State.at_of_field hfield hk).trans (s.field_getElem p n _ hk)
    rwa [Nat.add_sub_cancel' hlo] at hat
  · exact hframe sp loc hloc hin

/-! Digit characters. -/

theorem isDigit_mkChar {d : Nat} (h : d < 10) : isDigit (mkChar false true d) = true := by
  revert d
  decide

/-- Digit characters are digits put into a field of zeros. -/
theorem digitField_eq_putDigits (ds : List Nat) (negative : Bool) :
    digitField ds negative = putDigits (List.replicate ds.length ZERO) ds negative := by
  fun_induction digitField ds negative with
  | case1 => rfl
  | case2 => rfl
  | case3 d ds negative hds ih =>
    obtain ⟨d', ds, rfl⟩ := List.exists_cons_of_ne_nil hds
    rw [ih]
    rfl

/-- The n characters at a place are the digit characters of a number of magnitude v; the rightmost has the sign. -/
structure HoldsDigits (t : State) (p : Place) (n v : Nat) (negative : Bool) : Prop where
  isDigit_left : ∀ k, k + 1 < n → isDigit (t.at p.space (p.loc + k)) = true
  bit5_right : bit5 (t.at p.space (p.loc + (n - 1))) = true
  decimal : allDecimal (t.field p n) = true
  magnitude_eq : magnitude (t.field p n) = v
  signOf_eq : signOf (t.field p n) = negative

theorem HoldsDigits.of_digitField {t : State} {p : Place} {n v : Nat} {negative : Bool} (hn : 0 < n)
    (h : t.field p n = digitField (digits n v) negative) : HoldsDigits t p n (v % 10 ^ n) negative := by
  rw [digitField_eq_putDigits, digits_length] at h
  have hlen : (List.replicate n ZERO).length = (digits n v).length := by simp
  have hat {k : Nat} (hk : k < n) := (State.at_of_field h (by simpa [putDigits_length _ _ _ hlen] using hk)).trans
    (putDigits_getElem hlen _ _ (by simpa using hk) (by simpa using hk))
  simp only [List.length_replicate, List.getElem_replicate] at hat
  refine ⟨fun k hk => ?_, ?_, ?_, ?_, ?_⟩
  · rw [hat (by omega), if_neg (by omega)]
    exact isDigit_mkChar (lt_ten_of_mem_digits (List.getElem_mem _))
  · rw [hat (by omega), if_pos (by omega), bit5_mkChar]
  · rw [h, allDecimal_putDigits hlen fun _ => lt_ten_of_mem_digits]
  · rw [h, magnitude_putDigits_digits List.length_replicate]
  · rw [h, signOf_putDigits hlen (by simpa using hn)]

/-! The results of Divide. -/

theorem ConditionCode.ofSign_xor (v : Nat) (x y : Bool) :
    ConditionCode.ofSign (decide (v = 0)) (x ^^ y) =
      if v = 0 then .only .two else if x = y then .only .three else .only .one := by
  by_cases hv : v = 0
  · simp only [ConditionCode.ofSign, hv, decide_true, if_true]
  · cases x <;> cases y <;> simp [ConditionCode.ofSign, hv]

/-- Division of magnitudes, the quotient negative for unlike signs and the remainder with the sign of the dividend, is
division of the signed values. -/
theorem signedValue_eq_mul_add {x y q r : List Character} (hq : magnitude q = magnitude y / magnitude x)
    (hr : magnitude r = magnitude y % magnitude x) (hqsign : signOf q = (signOf x ^^ signOf y))
    (hrsign : signOf r = signOf y) : signedValue y = signedValue q * signedValue x + signedValue r := by
  have hdiv : (magnitude y : Int) = magnitude q * magnitude x + magnitude r := by
    rw [hq, hr]
    exact_mod_cast (Nat.div_add_mod' _ _).symm
  simp only [signedValue, hqsign, hrsign, hdiv]
  cases signOf x <;> cases signOf y <;> simp <;> ring

section
variable {draw : Nat} {x y : List Character} {n : Nat} (hx : allDecimal x = true) (hy : allDecimal y = true)
include hx hy

theorem divideFields_of_decimal : divideFields draw x y n = divideDecimal draw x y n := by
  rw [divideFields, hx, hy, Bool.and_true, if_pos rfl]

/-- A zero divisor leaves the dividend as it is (43_divide.md R206). -/
theorem divideFields_of_zero (h : magnitude x = 0) :
    divideFields draw x y n = { chars := y, cc := .only .four } := by
  rw [divideFields_of_decimal hx hy, divideDecimal, if_pos h]

variable (hlen : y.length = x.length + n)
include hlen

/-- Flag 4 when the leftmost positions of the dividend equal or exceed the divisor, a zero divisor included. -/
theorem divideFields_cc_of_overflow (h : magnitude x ≤ magnitude (y.take x.length)) :
    (divideFields draw x y n).cc = .only .four := by
  rw [magnitude_take_of_allDecimal hy hlen] at h
  rw [divideFields_of_decimal hx hy, divideDecimal, if_pos h]
  split <;> rfl

theorem divideFields_of_fits (h : magnitude (y.take x.length) < magnitude x) :
    divideFields draw x y n = quotientResult x y n := by
  rw [magnitude_take_of_allDecimal hy hlen] at h
  rw [divideFields_of_decimal hx hy, divideDecimal, if_neg (Nat.ne_zero_of_lt h), if_neg (Nat.not_le.mpr h)]

omit hx in
/-- The quotient fits into the n positions that are left for it. -/
theorem quotient_lt (h : magnitude (y.take x.length) < magnitude x) : magnitude y / magnitude x < 10 ^ n := by
  rw [magnitude_take_of_allDecimal hy hlen] at h
  exact Nat.div_lt_of_lt_mul ((Nat.div_lt_iff_lt_mul (by positivity)).mp h)

end

/-! What Divide leaves. -/

/-- A result that fills the destination field is read back from it. -/
theorem State.arithmetic_stores {s : State} {la lb : Nat} {a b : Operand} {pa pb : Place}
    {result : List Character → List Character → FieldResult} (hs : s.Formed) (hord : s.Ordinary a b pa la pb lb)
    {r : FieldResult} (hresult : result (s.field pa la) (s.field pb lb) = r) (hlen : r.chars.length = lb) :
    ∃ t, s.outcome (s.arithmetic la lb a b result) = .next t ∧ Finishes s t r.cc ∧ Untouched s t pb lb ∧
      t.field pb lb = r.chars := by
  obtain ⟨hhost, hwf⟩ := hs
  obtain ⟨-, -, hwrite, -⟩ := id hord
  exact ⟨_, State.arithmetic_next_of_ordinary hord hresult, s.finishes hhost _ _,
    State.untouched_of_stored hwrite hlen.le rfl, State.field_of_stored_of_length hwf hlen rfl⟩

/-- The quotient stands in the leftmost n positions as digit characters, the remainder in the others with the zones of
the dividend (43_divide.md R202, R203). -/
theorem holds_quotient_remainder {s t : State} {p : Place} {x y : List Character} {n : Nat} (hx : 0 < x.length)
    (hn : 0 < n) (hy : y = s.field p (n + x.length)) (h : t.field p (n + x.length) = (quotientResult x y n).chars) :
    HoldsDigits t p n (magnitude y / magnitude x % 10 ^ n) (signOf x ^^ signOf y) ∧
      HoldsNumber s t { p with loc := p.loc + n } x.length (magnitude y % magnitude x % 10 ^ x.length) (signOf y) := by
  have hright : y.drop n = s.field { p with loc := p.loc + n } x.length := by rw [hy, s.drop_field_add]
  rw [quotientResult, hright, t.field_add] at h
  obtain ⟨hquotient, hremainder⟩ := List.append_inj h (by simp)
  exact ⟨.of_digitField hn hquotient, .of_putDigits hx hremainder⟩

/-- Settles O28: overflow fills the dividend field under flag 4, and a zero divisor stores the dividend again. -/
theorem divideOverflow : Obligations.DivideOverflow := by
  rintro s la lb n a b pa pb rfl hs hord hx hy hover
  have hlen : (s.field pb (len1 la + len1 lb)).length = (s.field pa (len1 la)).length + len1 lb := by simp
  obtain ⟨t, hnext, hfinish, hframe, hfield⟩ := State.arithmetic_stores hs hord
    (result := fun x y => divideFields s.draws x y (len1 lb)) rfl
    ((divideFields_length _ _ _ _ hlen).trans (s.field_length _ _))
  rw [divideFields_cc_of_overflow hx hy hlen (by rwa [s.field_length])] at hfinish
  refine ⟨t, hnext, hfinish, hframe, fun hzero => hframe.sameMemory ?_⟩
  rw [hfield, divideFields_of_zero hx hy hzero]

/-- Settles O27: the quotient fits its positions and the remainder is less than the divisor, so both parts of the
dividend field hold their numbers in full. -/
theorem divideQuotient : Obligations.DivideQuotient := by
  rintro s la lb n a b pa pb pr x y hn hs hord hxfield hyfield hx hy hfits rfl
  have hxlen : x.length = len1 la := by rw [hxfield, s.field_length]
  have hlen : y.length = x.length + len1 lb := by rw [hyfield, s.field_length, hxlen, hn]
  rw [← hxlen] at hfits ⊢
  have hresult := divideFields_of_fits (draw := s.draws) hx hy hlen hfits
  obtain ⟨t, hnext, hfinish, hframe, hfield⟩ := State.arithmetic_stores hs hord
    (result := fun x y => divideFields s.draws x y (len1 lb)) (by rw [← hxfield, ← hyfield, hresult])
    (by rw [← hresult, divideFields_length _ _ _ _ hlen, hyfield, s.field_length])
  have hwidth : n = len1 lb + x.length := by omega
  rw [hwidth] at hyfield hfield
  obtain ⟨hquotient, hremainder⟩ := holds_quotient_remainder (hxlen ▸ len1_pos la) (len1_pos lb) hyfield hfield
  have hless : magnitude y % magnitude x < magnitude x := Nat.mod_lt _ (Nat.zero_lt_of_lt hfits)
  rw [Nat.mod_eq_of_lt (quotient_lt hy hlen hfits)] at hquotient
  rw [Nat.mod_eq_of_lt (hless.trans (magnitude_lt_of_allDecimal hx))] at hremainder
  refine ⟨t, by subst hn; exact hnext, ?_, hframe, ?_, ?_, ?_, ?_, hremainder.signOf_eq, hremainder.keepsZones,
    hquotient.isDigit_left, hquotient.bit5_right⟩
  · rw [hquotient.magnitude_eq, ← ConditionCode.ofSign_xor]
    exact hfinish
  · rw [hwidth, t.field_add]
    exact allDecimal_append.mpr ⟨hquotient.decimal, hremainder.decimal⟩
  · exact signedValue_eq_mul_add hquotient.magnitude_eq hremainder.magnitude_eq hquotient.signOf_eq
      hremainder.signOf_eq
  · rwa [hremainder.magnitude_eq]
  · rw [hquotient.signOf_eq, Bool.xor_iff_ne]

end Sys2Proof.Machine
end

section
/-! SUPPORT. The scan of Edit: a control field ends one position after the last of the fillers that Operand-A needs
(44_edit.md R223). -/

namespace Sys2Proof.Machine

/-- One position of the scan: a filler takes one off the count. -/
theorem controlLength_succ {m : Memory} {k room n l : Nat} :
    controlLength m k (room + 1) (n + 1) = some (l + 1) ↔
      controlLength m (k + 1) room (if isFiller (m.read k) then n else n + 1) = some l := by
  rw [controlLength]
  split <;> simp

theorem controlLength_ne_zero (m : Memory) (k room n : Nat) : controlLength m k room n ≠ some 0 := by
  cases room with
  | zero => simp [controlLength]
  | succ room =>
    cases n with
    | zero => simp [controlLength]
    | succ n =>
      rw [controlLength]
      split <;> simp

/-- The scan passes p positions and takes the next as the sign position when those p hold n fillers and end in one. -/
theorem controlLength_eq_succ {m : Memory} {k room n p : Nat} :
    controlLength m k room n = some (p + 1) ↔
      p < room ∧ (m.readField k p).countP isFiller = n ∧ ∀ i, p = i + 1 → isFiller (m.read (k + i)) = true := by
  induction room generalizing k n p with
  | zero => simp [controlLength]
  | succ room ih =>
    cases n with
    | zero =>
      cases p with
      | zero => simp [controlLength, Memory.readField]
      | succ p =>
        have hlast : m.read (k + p) ∈ m.readField k (p + 1) := by
          rw [← Memory.readField_getElem m k (p + 1) p (by simp)]
          exact List.getElem_mem _
        refine iff_of_false (by simp [controlLength]) ?_
        rintro ⟨-, hnone, hfiller⟩
        exact List.countP_eq_zero.mp hnone _ hlast (hfiller p rfl)
    | succ n =>
      rw [controlLength_succ]
      cases p with
      | zero => simp [Memory.readField, controlLength_ne_zero]
      | succ p =>
        rw [ih, Memory.readField, List.countP_cons]
        cases p with
        | zero => by_cases hfirst : isFiller (m.read k) = true <;> simp [hfirst, Memory.readField, @eq_comm _ 0 n]
        | succ p =>
          rw [Nat.add_lt_add_iff_right]
          exact and_congr_right' (and_congr (by split <;> omega) (by simp [Nat.add_right_comm, Nat.add_assoc]))

/-- Settles O34: before the sign position stand l - 1 positions, which hold n fillers and end in one. -/
theorem controlFieldExtent : Obligations.ControlFieldExtent := by
  intro m k room n l hn
  match l with
  | 0 => simp [controlLength_ne_zero]
  | 1 =>
    rw [controlLength_eq_succ]
    refine iff_of_false ?_ (by omega)
    rintro ⟨-, hcount, -⟩
    exact Nat.ne_of_lt hn hcount
  | l + 2 =>
    rw [controlLength_eq_succ]
    constructor
    · rintro ⟨hroom, hcount, hlast⟩
      exact ⟨by omega, hroom, hlast l rfl, hcount⟩
    · rintro ⟨-, hroom, hlast, hcount⟩
      exact ⟨hroom, hcount, fun i hi => Nat.succ.inj hi ▸ hlast⟩

end Sys2Proof.Machine
end

section
/-! SUPPORT. Edit: the walk along the control field, one position at a time, and what Edit leaves when its checks pass
(44_edit.md R221 to R229). -/

namespace Sys2Proof.Machine

/-! One position. -/

/-- Whether significance has started at or left of a position that holds c, d being the digit of the next filler. -/
def significantAfter (c : Character) (d : Nat) (significant : Bool) : Bool :=
  significant || (isFiller c && (d != 0 || c == ZERO))

/-- What such a position becomes: `left` is its neighbour on the left as edited, `significant` counts the position
itself. -/
def editedCharacter (c : Character) (d : Nat) (left : Character) (significant : Bool) : Character :=
  if isAt c then BLANK
  else if isPunct c then if significant then c else left
  else if significant then mkChar false true d else c

theorem not_isAt_of_isPunct {c : Character} (h : isPunct c = true) : ¬ isAt c = true := by
  revert h
  simp only [isPunct, isAt, Bool.or_eq_true, beq_iff_eq]
  rintro (((rfl | rfl) | rfl) | rfl) <;> decide

theorem isFiller_iff {c : Character} : isFiller c = true ↔ ¬ isAt c = true ∧ ¬ isPunct c = true := by
  simp [isFiller]

theorem editedCharacter_at (d : Nat) (left : Character) (significant : Bool) :
    editedCharacter AT d left significant = BLANK := rfl

theorem editedCharacter_of_isPunct {c : Character} (h : isPunct c = true) (d : Nat) (left : Character)
    (significant : Bool) : editedCharacter c d left significant = if significant then c else left := by
  rw [editedCharacter, if_neg (not_isAt_of_isPunct h), if_pos h]

theorem editedCharacter_of_isFiller {c : Character} (h : isFiller c = true) (d : Nat) (left : Character)
    (significant : Bool) :
    editedCharacter c d left significant = if significant then mkChar false true d else c := by
  obtain ⟨hat, hpunct⟩ := isFiller_iff.mp h
  rw [editedCharacter, if_neg hat, if_neg hpunct]

/-- The digit 0 in the place of the character 0 is that character (44_edit.md R221). -/
theorem mkChar_zero : mkChar false true 0 = ZERO := by decide

/-- Edit goes from position to position; a filler takes a digit. -/
theorem editField_cons (keepSign : Bool) (c : Character) (cs : List Character) (d : Nat) (ds : List Nat)
    (left : Character) (significant : Bool) :
    editField keepSign (c :: cs) (d :: ds) left significant =
      editedCharacter c d left (significantAfter c d significant) ::
        editField keepSign cs (if isFiller c then ds else d :: ds)
          (editedCharacter c d left (significantAfter c d significant)) (significantAfter c d significant) := by
  rw [editField]
  by_cases hat : isAt c = true
  · simp [editedCharacter, significantAfter, isFiller, hat]
  · by_cases hpunct : isPunct c = true
    · cases significant <;> simp [editedCharacter, significantAfter, isFiller, hat, hpunct]
    · have hfiller := isFiller_iff.mpr ⟨hat, hpunct⟩
      rw [editedCharacter_of_isFiller hfiller]
      by_cases hdigit : significant = true ∨ d ≠ 0
      · have hafter : significantAfter c d significant = true := by
          simpa [significantAfter, hfiller, or_assoc] using Or.inl hdigit
        simp [hat, hpunct, hfiller, hafter, hdigit]
      · obtain ⟨hbefore, hd⟩ := not_or.mp hdigit
        obtain rfl : d = 0 := not_not.mp hd
        by_cases hzero : c = ZERO
        · subst hzero
          simp [significantAfter, hat, hpunct, hfiller, hbefore, mkChar_zero]
        · simp [significantAfter, hat, hpunct, hfiller, hbefore, hzero]

/-! Fields. -/

/-- A field from position k on is the character of that position and the field from the next one on. -/
theorem State.drop_field (s : State) (p : Place) {n k : Nat} (hk : k < n) :
    (s.field p n).drop k = s.at p.space (p.loc + k) :: (s.field p n).drop (k + 1) := by
  rw [List.drop_eq_getElem_cons (by rwa [s.field_length]), State.field_getElem]

theorem State.countP_field_succ (s : State) (p : Place) (f : Character → Bool) (k : Nat) :
    (s.field p (k + 1)).countP f = (s.field p k).countP f + if f (s.at p.space (p.loc + k)) then 1 else 0 := by
  rw [s.field_split p (Nat.lt_succ_self k), List.countP_append, List.drop_eq_nil_of_le (s.field_length _ _).le,
    List.countP_singleton]

theorem State.countP_field_mono (s : State) (p : Place) (f : Character → Bool) {j k : Nat} (h : j ≤ k) :
    (s.field p j).countP f ≤ (s.field p k).countP f := by
  obtain ⟨d, rfl⟩ := Nat.exists_eq_add_of_le h
  rw [s.field_add, List.countP_append]
  exact Nat.le_add_right _ _

theorem State.at_of_getElem? {s : State} {p : Place} {n k : Nat} {cs : List Character} (h : s.field p n = cs)
    {c : Character} (hc : cs[k]? = some c) : s.at p.space (p.loc + k) = c := by
  obtain ⟨hk, rfl⟩ := List.getElem?_eq_some_iff.mp hc
  exact State.at_of_field h hk

theorem State.allZero_field (s : State) (p : Place) (n : Nat) :
    allZero (s.field p n) = true ↔ ∀ k < n, num (s.at p.space (p.loc + k)) = 0 := by
  simp [allZero, List.all_eq_true, List.forall_mem_iff_getElem, State.field_getElem]

theorem length_eq_succ_of_drop_eq_singleton {α : Type} {xs : List α} {k : Nat} {x : α} (h : xs.drop k = [x]) :
    xs.length = k + 1 := by
  have hlength := congrArg List.length h
  rw [List.length_drop, List.length_singleton] at hlength
  omega

theorem len2_pos (t u : Nat) : 0 < len2 t u := by
  unfold len2
  split <;> omega

/-- Left of the sign position each position has a digit of its own or that of a filler to its right; at the sign
position there is no digit left. -/
theorem State.countP_field_of_controlLength {s : State} {p : Place} {room n m : Nat} (hn : 0 < n)
    (h : controlLength s.mem p.key room n = some m) :
    0 < m ∧ (∀ j < m - 1, (s.field p j).countP isFiller < n) ∧ (s.field p (m - 1)).countP isFiller = n := by
  obtain ⟨hm, -, hlast, hcount⟩ := (controlFieldExtent s.mem p.key room n m hn).mp h
  refine ⟨by omega, fun j hj => ?_, hcount⟩
  have hsucc := s.countP_field_succ p isFiller (m - 2)
  have hend : isFiller (s.at p.space (p.loc + (m - 2))) = true := by rwa [State.at, Space.key_add]
  rw [show m - 2 + 1 = m - 1 by omega, if_pos hend, State.field, hcount] at hsucc
  have hmono := s.countP_field_mono p isFiller (show j ≤ m - 2 by omega)
  omega

/-! The walk. -/

/-- The digit of Operand-A for position j of the control field: that of the filler there, or of the next one. -/
def State.editDigit (s : State) (pa pb : Place) (j : Nat) : Nat :=
  num (s.at pa.space (pa.loc + (s.field pb j).countP isFiller))

/-- Position i starts significance unless it has started before (44_edit.md R224). -/
def State.StartsSignificance (s : State) (pa pb : Place) (i : Nat) : Prop :=
  isFiller (s.at pb.space (pb.loc + i)) = true ∧
    (s.editDigit pa pb i ≠ 0 ∨ s.at pb.space (pb.loc + i) = ZERO)

/-- The walk along the control field of m positions has come to position j: what is left to do from there, and what the
walk remembers of the positions before it. -/
structure State.EditsFrom (s : State) (pa pb : Place) (n m : Nat) (keepSign : Bool) (result : List Character) (j : Nat)
    (left : Character) (significant : Bool) : Prop where
  rest : result.drop j = editField keepSign ((s.field pb m).drop j)
    (((s.field pa n).map num).drop ((s.field pb j).countP isFiller)) left significant
  left_eq : ∀ i, j = i + 1 → result[i]? = some left
  significant_iff : significant = true ↔ ∃ i < j, s.StartsSignificance pa pb i

section
variable {s : State} {pa pb : Place} {n m j : Nat} {keepSign significant : Bool} {result : List Character}
  {left : Character}

theorem State.EditsFrom.start (h : result = editField keepSign (s.field pb m) ((s.field pa n).map num) left false) :
    s.EditsFrom pa pb n m keepSign result 0 left false where
  rest := h
  left_eq _ hi := nomatch hi
  significant_iff := by simp

theorem State.significantAfter_iff :
    significantAfter (s.at pb.space (pb.loc + j)) (s.editDigit pa pb j) significant = true ↔
      significant = true ∨ s.StartsSignificance pa pb j := by
  simp [significantAfter, State.StartsSignificance]

/-- One position of the walk, where Operand-A has a digit left. -/
theorem State.EditsFrom.step (h : s.EditsFrom pa pb n m keepSign result j left significant) (hj : j < m)
    (hdigit : (s.field pb j).countP isFiller < n) {c : Character} {after : Bool}
    (hafter : after = significantAfter (s.at pb.space (pb.loc + j)) (s.editDigit pa pb j) significant)
    (hc : c = editedCharacter (s.at pb.space (pb.loc + j)) (s.editDigit pa pb j) left after) :
    s.EditsFrom pa pb n m keepSign result (j + 1) c after := by
  have hdigits : ((s.field pa n).map num).drop ((s.field pb j).countP isFiller) =
      s.editDigit pa pb j :: ((s.field pa n).map num).drop ((s.field pb j).countP isFiller + 1) := by
    simp only [← List.map_drop, s.drop_field pa hdigit, List.map_cons, State.editDigit]
  have hrest := h.rest
  rw [s.drop_field pb hj, hdigits, editField_cons, ← hafter, ← hc] at hrest
  refine ⟨?_, fun i hi => ?_, ?_⟩
  · rw [← List.tail_drop, hrest, List.tail_cons, s.countP_field_succ]
    split
    · rfl
    · rw [← hdigits]
      rfl
  · obtain rfl : j = i := Nat.succ.inj hi
    rw [← List.head?_drop, hrest, List.head?_cons]
  · rw [hafter, State.significantAfter_iff, h.significant_iff, Nat.exists_lt_succ_right]

/-- The walk comes to every position before which Operand-A has a digit left. -/
theorem State.EditsFrom.reach {free : Character}
    (h : result = editField keepSign (s.field pb m) ((s.field pa n).map num) free false) (hj : j ≤ m)
    (hdigits : ∀ i < j, (s.field pb i).countP isFiller < n) :
    ∃ left significant, s.EditsFrom pa pb n m keepSign result j left significant := by
  induction j with
  | zero => exact ⟨free, false, .start h⟩
  | succ j ih =>
    obtain ⟨left, significant, hwalk⟩ := ih (Nat.le_of_succ_le hj) fun i hi => hdigits i (Nat.lt_succ_of_lt hi)
    exact ⟨_, _, hwalk.step hj (hdigits j (Nat.lt_succ_self j)) rfl rfl⟩

/-- What stands in a position before which Operand-A has a digit left, by its neighbour on the left as edited and by
whether significance has started there or before. -/
theorem State.editField_position {free : Character}
    (h : result = editField keepSign (s.field pb m) ((s.field pa n).map num) free false) (hj : j < m)
    (hdigits : ∀ i ≤ j, (s.field pb i).countP isFiller < n) :
    ∃ left significant,
      result[j]? = some (editedCharacter (s.at pb.space (pb.loc + j)) (s.editDigit pa pb j) left significant) ∧
        (significant = true ↔ ∃ i ≤ j, s.StartsSignificance pa pb i) ∧ ∀ i, j = i + 1 → result[i]? = some left := by
  obtain ⟨left, before, hwalk⟩ := State.EditsFrom.reach h hj.le fun i hi => hdigits i hi.le
  have hstep := hwalk.step hj (hdigits j le_rfl) rfl rfl
  refine ⟨left, _, hstep.left_eq j rfl, ?_, hwalk.left_eq⟩
  simpa only [Nat.lt_succ_iff] using hstep.significant_iff

/-- The result ends with the sign position, where no digit is left. -/
theorem State.editField_signPosition {free : Character}
    (h : result = editField keepSign (s.field pb (j + 1)) ((s.field pa n).map num) free false)
    (hdigits : ∀ i < j, (s.field pb i).countP isFiller < n) (hspent : (s.field pb j).countP isFiller = n) :
    result.drop j = [if keepSign then s.at pb.space (pb.loc + j) else BLANK] := by
  obtain ⟨left, before, hwalk⟩ := State.EditsFrom.reach h j.le_succ hdigits
  have hnone : ((s.field pa n).map num).drop ((s.field pb j).countP isFiller) = [] :=
    List.drop_eq_nil_of_le (by simp [hspent])
  rw [hwalk.rest, s.drop_field pb (Nat.lt_succ_self j), hnone, editField]

end

/-! What Edit leaves. -/

theorem State.edit_next {s : State} {la lb m : Nat} {a b : Operand} {pa pb : Place}
    (he : s.effective a b = .ok (pa, pb)) (hr : s.CanRead pa (len2 la lb))
    (hscan : controlLength s.mem pb.key (s.sizeOf pb.space - pb.loc) (len2 la lb) = some m) (hw : s.CanWrite pb m)
    {r : FieldResult} (h : r = if overlap pa (len2 la lb) pb m then unspecifiedEdit s.draws m
      else editFields s.draws (s.field pa (len2 la lb)) (s.field pb m)) :
    exec (.edit la lb a b) s = .next (s.finish (s.stored pb r.chars) r.cc) :=
  State.outcome_next.mpr (State.edit_ok.mpr ⟨pa, pb, m, he, hr, hscan, hw, r, h, rfl⟩)

/-- A result that fills the control field is read back from it. -/
theorem State.edit_stores {s : State} {la lb m : Nat} {a b : Operand} {pa pb : Place} (hs : s.Formed)
    (he : s.effective a b = .ok (pa, pb)) (hr : s.CanRead pa (len2 la lb))
    (hscan : controlLength s.mem pb.key (s.sizeOf pb.space - pb.loc) (len2 la lb) = some m) (hw : s.CanWrite pb m)
    (hdisjoint : overlap pa (len2 la lb) pb m = false) {r : FieldResult}
    (hresult : editFields s.draws (s.field pa (len2 la lb)) (s.field pb m) = r) (hlen : r.chars.length = m) :
    ∃ t, exec (.edit la lb a b) s = .next t ∧ Finishes s t r.cc ∧ Untouched s t pb m ∧ t.field pb m = r.chars := by
  obtain ⟨hhost, hwf⟩ := hs
  exact ⟨_, State.edit_next he hr hscan hw (by rw [hdisjoint, if_neg (by decide), hresult]), s.finishes hhost _ _,
    State.untouched_of_stored hw hlen.le rfl, State.field_of_stored_of_length hwf hlen rfl⟩

theorem unspecifiedEdit_flag (draw n : Nat) : ∃ k, k ≠ FlagNumber.four ∧ (unspecifiedEdit draw n).cc = .only k :=
  ⟨_, editFlag_ne_four _, rfl⟩

/-- Settles O36: the free characters of overlapped operands fill the control field, what Edit makes of any control field
is no longer than it, and either result has one of the flags 1, 2, 3. -/
theorem editOpenCases : Obligations.EditOpenCases := by
  rintro s la lb n m a b pa pb rfl ⟨hhost, -⟩ he hr hscan hw -
  obtain ⟨r, hresult⟩ : ∃ r, r = if overlap pa (len2 la lb) pb m then unspecifiedEdit s.draws m
    else editFields s.draws (s.field pa (len2 la lb)) (s.field pb m) := ⟨_, rfl⟩
  obtain ⟨hlen, k, hk, hcc⟩ : r.chars.length ≤ m ∧ ∃ k, k ≠ FlagNumber.four ∧ r.cc = .only k := by
    rw [hresult]
    split
    · exact ⟨(freeField_length _ _).le, unspecifiedEdit_flag _ _⟩
    · exact ⟨(editField_length_le _ _ _ _ _).trans (s.field_length _ _).le, ConditionCode.ofSign_only _ _⟩
  exact ⟨_, k, State.edit_next he hr hscan hw hresult, hk, hcc ▸ s.finishes hhost _ _,
    State.untouched_of_stored hw hlen rfl⟩

/-- The flags of Edit, by the digits of Operand-A and its sign (44_edit.md R221). -/
theorem State.editFields_cc (s : State) (draw : Nat) (pa : Place) {n : Nat} (hn : 0 < n) (b : List Character) :
    (editFields draw (s.field pa n) b).cc =
      if ∀ k < n, num (s.at pa.space (pa.loc + k)) = 0 then .only .two
      else if bit7 (s.at pa.space (pa.loc + (n - 1))) = true then .only .one else .only .three := by
  rw [← s.signOf_field pa hn]
  exact if_congr (s.allZero_field pa n) rfl rfl

/-- The sign position keeps its character for a negative operand other than zero (44_edit.md R227). -/
theorem State.keepsSign_iff (s : State) (pa : Place) {n : Nat} (hn : 0 < n) :
    (signOf (s.field pa n) && !allZero (s.field pa n)) = true ↔
      bit7 (s.at pa.space (pa.loc + (n - 1))) = true ∧ ¬ ∀ k < n, num (s.at pa.space (pa.loc + k)) = 0 := by
  rw [← s.signOf_field pa hn, ← s.allZero_field, Bool.and_eq_true, Bool.not_eq_true', Bool.not_eq_true]

/-- Settles O35: the walk edits every position left of the sign position when it comes there, and it ends at the sign
position. -/
theorem editPositions : Obligations.EditPositions := by
  rintro s la lb n m a b pa pb digit significant rfl hs he hr hscan hw hdisjoint hdigit hsignificant
  obtain rfl : digit = s.editDigit pa pb := funext hdigit
  have hn := len2_pos la lb
  obtain ⟨hm, hdigits, hspent⟩ := State.countP_field_of_controlLength hn hscan
  obtain ⟨q, rfl⟩ : ∃ q, m = q + 1 := Nat.exists_eq_add_one_of_ne_zero hm.ne'
  rw [Nat.add_sub_cancel] at hdigits hspent ⊢
  obtain ⟨r, hresult⟩ : ∃ r, editFields s.draws (s.field pa (len2 la lb)) (s.field pb (q + 1)) = r := ⟨_, rfl⟩
  have hchars := congrArg FieldResult.chars hresult.symm
  have hsign := State.editField_signPosition hchars hdigits hspent
  obtain ⟨t, hnext, hfinish, hframe, hfield⟩ := State.edit_stores hs he hr hscan hw hdisjoint hresult
    (length_eq_succ_of_drop_eq_singleton hsign)
  rw [← hresult, s.editFields_cc _ _ hn] at hfinish
  refine ⟨t, hnext, hfinish, hframe, fun j hj => ?_, ?_⟩
  · obtain ⟨left, after, hedited, hafter, hleft⟩ := State.editField_position hchars (Nat.lt_of_succ_lt hj)
      fun i hi => hdigits i (by omega)
    rw [State.at_of_getElem? hfield hedited, show significant j ↔ after = true from (hsignificant j).trans hafter.symm]
    refine ⟨fun hat => ?_, fun hfiller hyes => ?_, fun hfiller hno => ?_, fun hpunct hyes => ?_,
      fun hpunct hno hpos => ?_⟩
    · rw [hat, editedCharacter_at]
    · rw [editedCharacter_of_isFiller hfiller, if_pos hyes]
    · rw [editedCharacter_of_isFiller hfiller, if_neg hno]
    · rw [editedCharacter_of_isPunct hpunct, if_pos hyes]
    · rw [editedCharacter_of_isPunct hpunct, if_neg hno]
      exact (State.at_of_getElem? hfield (hleft (j - 1) (by omega))).symm
  · have hlast := congrArg List.head? hsign
    rw [List.head?_drop, List.head?_cons] at hlast
    rw [State.at_of_getElem? hfield hlast]
    exact if_congr (s.keepsSign_iff pa hn) rfl rfl

end Sys2Proof.Machine
end

section
/-! SUPPORT. Exchange: the loop swaps one pair of characters after the other, so the lower of the two fields receives the
upper one, and what stood in the lower field before the upper one begins is carried to the right end
(45_exchange.md R241 to R243). -/

namespace Sys2Proof.Machine

/-! One position. -/

/-- Main Memory after one pass of the loop. -/
def Memory.exchanged (m : Memory) (ka kb : Nat) : Memory := (m.write kb (m.read ka)).write ka (m.read kb)

theorem exchangeLoop_succ (m : Memory) (ka kb n : Nat) :
    exchangeLoop m ka kb (n + 1) = exchangeLoop (m.exchanged ka kb) (ka + 1) (kb + 1) n := rfl

theorem Memory.wf_exchanged {m : Memory} (h : m.wf = true) (ka kb : Nat) : (m.exchanged ka kb).wf = true :=
  Memory.wf_write (Memory.wf_write h _ _) _ _

theorem Memory.read_exchanged {m : Memory} (h : m.wf = true) (ka kb j : Nat) :
    (m.exchanged ka kb).read j = m.read (Equiv.swap ka kb j) := by
  rw [Memory.exchanged, Memory.read_write (Memory.wf_write h _ _), Memory.read_write h, Equiv.swap_apply_def,
    apply_ite m.read, apply_ite m.read]

/-! The loop. -/

/-- Operand-A and Operand-B play the same part in the loop. -/
theorem exchangeLoop_symm {m m' : Memory} (h : m.wf = true) (h' : m'.wf = true) (hread : ∀ j, m.read j = m'.read j)
    (ka kb n j : Nat) : (exchangeLoop m ka kb n).read j = (exchangeLoop m' kb ka n).read j := by
  induction n generalizing m m' ka kb with
  | zero => exact hread j
  | succ n ih =>
    rw [exchangeLoop_succ, exchangeLoop_succ]
    refine ih (Memory.wf_exchanged h _ _) (Memory.wf_exchanged h' _ _) (fun i => ?_) _ _
    rw [Memory.read_exchanged h, Memory.read_exchanged h', Equiv.swap_comm, hread]

/-- The lower field receives the upper one: the loop has not yet come to a character of the upper field when it takes
it. -/
theorem exchangeLoop_lower {m : Memory} (h : m.wf = true) {k n j : Nat} (d : Nat) (hj : j < n) :
    (exchangeLoop m k (k + d) n).read (k + j) = m.read (k + j + d) := by
  induction n generalizing m k j with
  | zero => exact absurd hj (Nat.not_lt_zero j)
  | succ n ih =>
    rw [exchangeLoop_succ]
    cases j with
    | zero =>
      rw [exchangeLoop_outside _ _ _ _ _ (by omega) (by omega), Memory.read_exchanged h]
      exact congrArg m.read (Equiv.swap_apply_left k (k + d))
    | succ j =>
      have hlower := ih (Memory.wf_exchanged h k (k + d)) (k := k + 1) (Nat.lt_of_succ_lt_succ hj)
      rw [Memory.read_exchanged h, Equiv.swap_apply_of_ne_of_ne (by omega) (by omega)] at hlower
      rwa [Nat.add_right_comm k 1 d, Nat.add_right_comm k 1 j] at hlower

/-- The d locations at the right end receive the first d characters, which the loop has carried along with it in
turn. -/
theorem exchangeLoop_upper {m : Memory} (h : m.wf = true) {k n d j : Nat} (hlo : n ≤ j) (hhi : j < n + d) :
    (exchangeLoop m k (k + d) n).read (k + j) = m.read (k + j % d) := by
  induction n generalizing m k j with
  | zero => rw [exchangeLoop, Nat.mod_eq_of_lt (by omega)]
  | succ n ih =>
    obtain ⟨i, rfl⟩ : ∃ i, j = i + 1 := Nat.exists_eq_add_one_of_ne_zero (by omega)
    have hupper := ih (Memory.wf_exchanged h k (k + d)) (k := k + 1) (Nat.le_of_succ_le_succ hlo) (by omega)
    have hmod : i % d + 1 ≤ d := Nat.mod_lt i (by omega)
    rw [exchangeLoop_succ, ← Nat.add_assoc, Nat.add_right_comm k i 1, Nat.add_right_comm k d 1, hupper,
      Memory.read_exchanged h, ← Nat.mod_add_mod i d 1, Nat.add_right_comm k 1, Nat.add_assoc k]
    rcases hmod.eq_or_lt with hlast | hnext
    · rw [hlast, Equiv.swap_apply_right, Nat.mod_self, Nat.add_zero]
    · rw [Nat.mod_eq_of_lt hnext, Equiv.swap_apply_of_ne_of_ne (by omega) (by omega)]

/-- The lower of two fields begins at k and the other one d to the right of it, whichever of them is Operand-A. -/
def BeginApart (ka kb k d : Nat) : Prop := ka = k ∧ kb = k + d ∨ kb = k ∧ ka = k + d

/-- The loop moves the characters of both fields together d places to the left, and the first d to the right end
(45_exchange.md R243). -/
theorem exchangeLoop_rotates {m : Memory} (h : m.wf = true) {ka kb k d : Nat} (hends : BeginApart ka kb k d)
    (n : Nat) :
    (∀ j < n, (exchangeLoop m ka kb n).read (k + j) = m.read (k + j + d)) ∧
      ∀ j, n ≤ j → j < n + d → (exchangeLoop m ka kb n).read (k + j) = m.read (k + j % d) := by
  have hloop (j : Nat) : (exchangeLoop m ka kb n).read j = (exchangeLoop m k (k + d) n).read j := by
    obtain ⟨rfl, rfl⟩ | ⟨rfl, rfl⟩ := hends
    · rfl
    · exact exchangeLoop_symm h h (fun _ => rfl) _ _ _ _
  exact ⟨fun j hj => (hloop _).trans (exchangeLoop_lower h d hj),
    fun j hlo hhi => (hloop _).trans (exchangeLoop_upper h hlo hhi)⟩

/-- Fields that do not overlap are swapped: the lower field is the first n characters of those that the loop carries to
the right end. -/
theorem exchangeLoop_swaps {m : Memory} (h : m.wf = true) {ka kb n j : Nat} (hdisjoint : ka + n ≤ kb ∨ kb + n ≤ ka)
    (hj : j < n) :
    (exchangeLoop m ka kb n).read (ka + j) = m.read (kb + j) ∧
      (exchangeLoop m ka kb n).read (kb + j) = m.read (ka + j) := by
  obtain ⟨k, d, hd, hends⟩ : ∃ k d, n ≤ d ∧ BeginApart ka kb k d :=
    ⟨min ka kb, max ka kb - min ka kb, by omega, by unfold BeginApart; omega⟩
  obtain ⟨hlower, hupper⟩ := exchangeLoop_rotates h hends n
  have hleft := hlower j hj
  have hright := hupper (d + j) (by omega) (by omega)
  rw [Nat.add_right_comm] at hleft
  rw [Nat.add_mod_left, Nat.mod_eq_of_lt (by omega), ← Nat.add_assoc] at hright
  obtain ⟨rfl, rfl⟩ | ⟨rfl, rfl⟩ := hends
  · exact ⟨hleft, hright⟩
  · exact ⟨hright, hleft⟩

/-- A field exchanged with itself stands. -/
theorem exchangeLoop_self {m : Memory} (h : m.wf = true) (k n j : Nat) : (exchangeLoop m k k n).read j = m.read j := by
  by_cases hin : k ≤ j ∧ j < k + n
  · obtain ⟨i, rfl⟩ := Nat.exists_eq_add_of_le hin.1
    exact exchangeLoop_lower h 0 (by omega)
  · exact exchangeLoop_outside _ _ _ _ _ (by omega) (by omega)

/-! The fields. -/

/-- The keys of two fields that share no location lie apart. -/
theorem Place.keys_disjoint {p q : Place} {n m : Nat} (hn : 0 < n) (hm : 0 < m)
    (hp : p.loc + n ≤ Config.spaceLimit) (hq : q.loc + m ≤ Config.spaceLimit) (h : overlap p n q m = false) :
    p.key + n ≤ q.key ∨ q.key + m ≤ p.key := by
  have hpq : ¬ (q.key ≤ p.key ∧ p.key < q.key + m) :=
    mt (Place.key_in_field hq (by omega)).mp (outside_of_not_overlap h le_rfl (by omega))
  have hqp : ¬ (p.key ≤ q.key ∧ q.key < p.key + n) := fun hin => by
    obtain ⟨hspace, hlo, hhi⟩ := (Place.key_in_field hp (by omega)).mp hin
    exact of_decide_eq_false h ⟨hspace.symm, by omega, by omega⟩
  omega

/-- Fields of one space are as far apart in keys as in locations. -/
theorem BeginApart.keys {p q : Place} {lo d : Nat} (hspace : p.space = q.space) (h : BeginApart p.loc q.loc lo d) :
    BeginApart p.key q.key (p.space.key lo) d := by
  rw [Place.key, Place.key, ← hspace, BeginApart, ← Space.key_add]
  exact h.imp (.imp (congrArg _) (congrArg _)) (.imp (congrArg _) (congrArg _))

/-- Settles O31: Exchange finishes with what its loop leaves of memory, and the keys of two fields lie apart when the
fields do not overlap and d apart when one begins d locations into the other. -/
theorem exchangeSwaps : Obligations.ExchangeSwaps := by
  rintro s la lb n a b pa pb rfl ⟨hhost, hwf⟩ he ha hb
  have hn := len2_pos la lb
  have hale := ha.1.le
  have hble := hb.1.le
  refine ⟨_, State.outcome_next.mpr (State.exchange_ok.mpr ⟨pa, pb, he, ha, hb, rfl⟩), s.finishes hhost _ _,
    fun sp loc hloc houta houtb => ?_, fun hdisjoint k hk => ?_, ?_, fun lo d hspace hd hdn hends => ?_⟩
  · have hkeya := mt (Place.key_in_field hale hloc).mp houta
    have hkeyb := mt (Place.key_in_field hble hloc).mp houtb
    exact exchangeLoop_outside _ _ _ _ _ (by omega) (by omega)
  · simp only [State.at, Space.key_add]
    exact exchangeLoop_swaps hwf (Place.keys_disjoint hn hn hale hble hdisjoint) hk
  · rintro rfl sp loc -
    exact exchangeLoop_self hwf _ _ _
  · simp only [State.at, Space.key_add]
    exact exchangeLoop_rotates hwf (.keys hspace hends) _

end Sys2Proof.Machine
end

section
/-! SUPPORT. Form Numeric: the search of Operand-A from the right, the field it fills, and what Form Numeric leaves of
operands that do not overlap (46_form_numeric.md R251 to R257). -/

namespace Sys2Proof.Machine

/-! The search, Operand-A read from the right. -/

/-- Blanks on the right are passed over. -/
theorem formDigits_blanks_append (n : Nat) (cs : List Character) :
    formDigits (List.replicate n BLANK ++ cs) = formDigits cs := by
  induction n with
  | zero => rfl
  | succ n ih => exact ih

theorem isDigit_eq_false_of_isMinusDigit {c : Character} (h : isMinusDigit c = true) : isDigit c = false := by
  rw [isMinusDigit, decide_eq_true_eq] at h
  rw [isDigit, decide_eq_false_iff_not]
  omega

section
variable {c : Character} {rest : List Character} (hblank : c ≠ BLANK)
include hblank

/-- A digit, with or without a minus sign, is itself the units digit. -/
theorem formDigits_cons_of_units {negative : Bool}
    (h : isDigit c = true ∧ negative = false ∨ isMinusDigit c = true ∧ negative = true) :
    formDigits (c :: rest) = { out := c :: rest.filter isDigit, negative := negative, hyphenOnly := false } := by
  obtain ⟨hdigit, rfl⟩ | ⟨hminus, rfl⟩ := h
  · simp [formDigits, hblank, hdigit]
  · simp [formDigits, hblank, isDigit_eq_false_of_isMinusDigit hminus, hminus]

variable (hdigit : isDigit c = false) (hminus : isMinusDigit c = false)
include hdigit hminus

/-- A character that is no digit decides the sign; the next digit is the units digit. -/
theorem formDigits_cons_of_filter_eq_cons {d : Character} {ds : List Character} (h : rest.filter isDigit = d :: ds) :
    formDigits (c :: rest) =
      { out := (if c == HYPHEN then mkChar true true (num d) else d) :: ds, negative := c == HYPHEN,
        hyphenOnly := false } := by
  simp [formDigits, hblank, hdigit, hminus, h]

theorem formDigits_cons_of_filter_eq_nil (h : rest.filter isDigit = []) :
    formDigits (c :: rest) = { out := [], negative := false, hyphenOnly := c == HYPHEN } := by
  simp [formDigits, hblank, hdigit, hminus, h]

end

/-! The search, by the characters of Operand-A, leftmost first: c is the rightmost that is not blank. -/

/-- The digits that a search has found, leftmost first, and their sign. -/
def FormedDigits.signed (digits : List Character) (negative : Bool) : FormedDigits :=
  { out := digits.reverse, negative := negative, hyphenOnly := false }

/-- Operand-A holds nothing but blanks: there is no digit to move. -/
theorem formDigits_blanks (n : Nat) : formDigits (List.replicate n BLANK).reverse = .signed [] false := by
  have h := formDigits_blanks_append n []
  rwa [List.append_nil, ← List.reverse_replicate] at h

section
variable {left : List Character} {c : Character} {blanks : Nat}

theorem formDigits_passes_blanks :
    formDigits (left ++ c :: List.replicate blanks BLANK).reverse = formDigits (c :: left.reverse) := by
  rw [List.reverse_append, List.reverse_cons, List.reverse_replicate, List.append_assoc, formDigits_blanks_append]
  rfl

theorem formDigits_of_units (hblank : c ≠ BLANK) {negative : Bool}
    (h : isDigit c = true ∧ negative = false ∨ isMinusDigit c = true ∧ negative = true) :
    formDigits (left ++ c :: List.replicate blanks BLANK).reverse =
      .signed (left.filter isDigit ++ [c]) negative := by
  rw [formDigits_passes_blanks, formDigits_cons_of_units hblank h, FormedDigits.signed, List.reverse_concat,
    List.filter_reverse]

theorem formDigits_of_hyphen {ds : List Character} {d : Character} (h : left.filter isDigit = ds ++ [d]) :
    formDigits (left ++ HYPHEN :: List.replicate blanks BLANK).reverse =
      .signed (ds ++ [mkChar true true (num d)]) true := by
  rw [formDigits_passes_blanks, formDigits_cons_of_filter_eq_cons (by decide) (by decide) (by decide)
    (by rw [List.filter_reverse, h, List.reverse_concat]), FormedDigits.signed, List.reverse_concat]
  rfl

theorem formDigits_of_hyphenOnly (h : left.filter isDigit = []) :
    formDigits (left ++ HYPHEN :: List.replicate blanks BLANK).reverse =
      { out := [], negative := false, hyphenOnly := true } := by
  rw [formDigits_passes_blanks]
  exact formDigits_cons_of_filter_eq_nil (by decide) (by decide) (by decide) (by rw [List.filter_reverse, h]; rfl)

theorem formDigits_of_other (hblank : c ≠ BLANK) (hdigit : isDigit c = false) (hminus : isMinusDigit c = false)
    (hhyphen : c ≠ HYPHEN) :
    formDigits (left ++ c :: List.replicate blanks BLANK).reverse = .signed (left.filter isDigit) false := by
  rw [formDigits_passes_blanks, FormedDigits.signed, ← List.filter_reverse]
  cases hrest : left.reverse.filter isDigit with
  | nil => rw [formDigits_cons_of_filter_eq_nil hblank hdigit hminus hrest, beq_false_of_ne hhyphen]
  | cons d ds =>
    rw [formDigits_cons_of_filter_eq_cons hblank hdigit hminus hrest, beq_false_of_ne hhyphen, if_neg (by decide)]

end

/-! The field filled. -/

theorem magnitude_eq_zero_iff (cs : List Character) : magnitude cs = 0 ↔ allZero cs = true := by
  induction cs with
  | nil => exact iff_of_true rfl rfl
  | cons c cs ih =>
    have hcons := magnitude_append [c] cs
    have hunit : magnitude [c] = num c := Nat.zero_add _
    rw [List.singleton_append, hunit] at hcons
    rw [hcons, Nat.add_eq_zero_iff, ih]
    simp [allZero]

section
variable {draw n : Nat} {a digits : List Character} {negative : Bool}

theorem formFields_of_fits (h : formDigits a.reverse = .signed digits negative) (hfits : digits.length ≤ n) :
    formFields draw a n =
      { chars := List.replicate (n - digits.length) ZERO ++ digits
        cc := if magnitude digits = 0 then .only .two else if negative then .only .one else .only .three } := by
  simp [formFields, h, FormedDigits.signed, Nat.not_lt.mpr hfits, filledUnitsFirst, ConditionCode.ofSign,
    magnitude_eq_zero_iff, allZero]

theorem formFields_of_overflow (h : formDigits a.reverse = .signed digits negative) (hover : n < digits.length) :
    formFields draw a n = { chars := digits.drop (digits.length - n), cc := .only .four } := by
  simp [formFields, h, FormedDigits.signed, hover, List.take_reverse]

/-- After a hyphen with no digit the sign of the zero is a free choice. -/
theorem formFields_of_hyphenOnly (h : formDigits a.reverse = { out := [], negative := false, hyphenOnly := true })
    (hn : 0 < n) :
    formFields draw a n =
      { chars := List.replicate (n - 1) ZERO ++ [mkChar (Config.freeBit draw) true 0], cc := .only .two } := by
  obtain ⟨n, rfl⟩ := Nat.exists_eq_add_one_of_ne_zero hn.ne'
  simp [formFields, h, filledUnitsFirst, ConditionCode.ofSign, allZero, List.replicate_succ]

end

/-! What Form Numeric leaves. -/

/-- The result of Form Numeric fills the destination field and is read back from it. -/
theorem State.formNumeric_stores {s : State} {la lb : Nat} {a b : Operand} {pa pb : Place} (hs : s.Formed)
    (hord : s.Ordinary a b pa (len1 la) pb (len1 lb)) {r : FieldResult}
    (hresult : formFields s.draws (s.field pa (len1 la)) (len1 lb) = r) :
    ∃ t, exec (.formNumeric la lb a b) s = .next t ∧ Finishes s t r.cc ∧ Untouched s t pb (len1 lb) ∧
      t.field pb (len1 lb) = r.chars :=
  State.arithmetic_stores hs hord (by rw [s.field_length, hresult])
    (by rw [← hresult, formFields_length])

/-- Settles O38: the search passes over all of Operand-A, and every position of Operand-B is filled with zero. -/
theorem formNumericBlank : Obligations.FormNumericBlank := by
  intro s la lb a b pa pb hs hord hblank
  have hfield : s.field pa (len1 la) = List.replicate (len1 la) BLANK := by
    refine List.ext_getElem (by simp) fun k hk _ => ?_
    rw [State.field_getElem, List.getElem_replicate, hblank k (by rwa [s.field_length] at hk)]
  have hresult := formFields_of_fits (draw := s.draws) (formDigits_blanks (len1 la)) (Nat.zero_le (len1 lb))
  rw [← hfield] at hresult
  obtain ⟨t, hnext, hfinish, hframe, hstored⟩ := State.formNumeric_stores hs hord hresult
  exact ⟨t, hnext, hfinish, hframe, hstored.trans (List.append_nil _)⟩

/-- Settles O37: each case of the sign fixes what the search finds, and the digits it finds fill Operand-B from the
right or overflow it. -/
theorem formNumericDigits : Obligations.FormNumericDigits := by
  intro s la lb blanks a b pa pb left c hs hord hblank hfield
  refine ⟨fun digits negative hsign => ?_, ?_⟩
  · have hformed : formDigits (s.field pa (len1 la)).reverse = .signed digits negative := by
      rw [hfield]
      obtain ⟨hdigit, rfl, rfl⟩ | ⟨hminus, rfl, rfl⟩ | ⟨rfl, rfl, ds, d, hds, rfl⟩ |
        ⟨hdigit, hminus, hhyphen, rfl, rfl⟩ := hsign
      · exact formDigits_of_units hblank (.inl ⟨hdigit, rfl⟩)
      · exact formDigits_of_units hblank (.inr ⟨hminus, rfl⟩)
      · exact formDigits_of_hyphen hds
      · exact formDigits_of_other hblank hdigit hminus hhyphen
    obtain ⟨t, hnext, hfinish, hframe, hstored⟩ := State.formNumeric_stores hs hord rfl
    refine ⟨t, _, hnext, hfinish, hframe, fun hfits => ?_, fun hover => ?_⟩
    · rw [hstored, formFields_of_fits hformed hfits]
      exact ⟨rfl, rfl⟩
    · rw [hstored, formFields_of_overflow hformed hover]
      exact ⟨rfl, rfl⟩
  · rintro rfl hnone
    have hformed := formDigits_of_hyphenOnly (blanks := blanks) hnone
    rw [← hfield] at hformed
    obtain ⟨t, hnext, hfinish, hframe, hstored⟩ := State.formNumeric_stores hs hord
      (formFields_of_hyphenOnly hformed (len1_pos lb))
    exact ⟨t, _, hnext, hfinish, hframe, hstored⟩

end Sys2Proof.Machine
end

section
/-! SUPPORT. Move Character and Move Numeric: both loops copy a part of a character from left to right, so that a field
inside Operand-A to the right of its beginning takes what the loop has just written (47_move.md R271, R272, R280,
R281). -/

namespace Sys2Proof.Machine

/-! The loop of both moves. -/

/-- Field B rewritten one position at a time from left to right, each character from that of A and that of B. -/
def copyLoop (put : Character → Character → Character) : Memory → Nat → Nat → Nat → Memory
  | m, _, _, 0 => m
  | m, ka, kb, n + 1 => copyLoop put (m.write kb (put (m.read ka) (m.read kb))) (ka + 1) (kb + 1) n

theorem copyLoop_succ (put : Character → Character → Character) (m : Memory) (ka kb n : Nat) :
    copyLoop put m ka kb (n + 1) = copyLoop put (m.write kb (put (m.read ka) (m.read kb))) (ka + 1) (kb + 1) n := rfl

theorem moveLoop_eq_copyLoop (m : Memory) (ka kb n : Nat) : moveLoop m ka kb n = copyLoop (fun a _ => a) m ka kb n := by
  induction n generalizing m ka kb with
  | zero => rfl
  | succ n ih => exact ih _ _ _

theorem moveNumericLoop_eq_copyLoop (m : Memory) (ka kb n : Nat) :
    moveNumericLoop m ka kb n = copyLoop withNumeric m ka kb n := by
  induction n generalizing m ka kb with
  | zero => rfl
  | succ n ih => exact ih _ _ _

section
variable {put : Character → Character → Character} {m : Memory} {ka kb n j : Nat}

theorem copyLoop_outside (h : j < kb ∨ kb + n ≤ j) : (copyLoop put m ka kb n).read j = m.read j := by
  induction n generalizing m ka kb with
  | zero => rfl
  | succ n ih => rw [copyLoop_succ, ih (by omega), Memory.read_write_ne _ _ (by omega)]

/-- A field B that does not begin inside A to the right of its beginning: the loop reads A as it was. -/
theorem copyLoop_ahead (hwf : m.wf = true) (hsep : ¬ (ka < kb ∧ kb < ka + n)) (hj : j < n) :
    (copyLoop put m ka kb n).read (kb + j) = put (m.read (ka + j)) (m.read (kb + j)) := by
  induction n generalizing m ka kb j with
  | zero => exact absurd hj (Nat.not_lt_zero j)
  | succ n ih =>
    rw [copyLoop_succ]
    cases j with
    | zero => rw [copyLoop_outside (by omega)]; exact Memory.read_write_same hwf _ _
    | succ j =>
      have hrest := ih (Memory.wf_write hwf kb (put (m.read ka) (m.read kb))) (ka := ka + 1) (kb := kb + 1) (by omega)
        (Nat.lt_of_succ_lt_succ hj)
      rw [Memory.read_write_ne _ _ (by omega), Memory.read_write_ne _ _ (by omega)] at hrest
      rwa [Nat.add_right_comm ka, Nat.add_right_comm kb] at hrest

/-- A field B to the right of A: what the loop takes at a position of A is what it leaves there. -/
theorem copyLoop_behind (hwf : m.wf = true) (hlt : ka < kb) (hj : j < n) :
    (copyLoop put m ka kb n).read (kb + j) = put ((copyLoop put m ka kb n).read (ka + j)) (m.read (kb + j)) := by
  induction n generalizing m ka kb j with
  | zero => exact absurd hj (Nat.not_lt_zero j)
  | succ n ih =>
    rw [copyLoop_succ]
    cases j with
    | zero =>
      rw [copyLoop_outside (by omega), copyLoop_outside (by omega), Memory.read_write_ne m _ (by omega : ka + 0 ≠ kb)]
      exact Memory.read_write_same hwf _ _
    | succ j =>
      have hrest := ih (Memory.wf_write hwf kb (put (m.read ka) (m.read kb))) (ka := ka + 1) (kb := kb + 1) (by omega)
        (Nat.lt_of_succ_lt_succ hj)
      rw [Memory.read_write_ne m _ (by omega)] at hrest
      rwa [Nat.add_right_comm ka, Nat.add_right_comm kb] at hrest

/-- The part of a character that the loop takes from A, in a field B that begins d positions to the right of A: that of
the first d characters of A over and over (47_move.md R272). -/
theorem copyLoop_repeats {α : Type} {part : Character → α} (hpart : ∀ a b, part (put a b) = part a) (hwf : m.wf = true)
    {d : Nat} (hd : 0 < d) (hj : j < n) :
    part ((copyLoop put m ka (ka + d) n).read (ka + d + j)) = part (m.read (ka + j % d)) := by
  induction j using Nat.strongRecOn with
  | ind j ih =>
    rw [copyLoop_behind hwf (by omega) hj, hpart]
    by_cases hjd : j < d
    · rw [copyLoop_outside (by omega), Nat.mod_eq_of_lt hjd]
    · rw [show ka + j = ka + d + (j - d) by omega, ih (j - d) (by omega) (by omega),
        ← Nat.mod_eq_sub_mod (not_lt.mp hjd)]

/-- A part of a character that the loop leaves as it is in B. -/
theorem copyLoop_keeps {α : Type} {part : Character → α} (hpart : ∀ a b, part (put a b) = part b) (hwf : m.wf = true) :
    part ((copyLoop put m ka kb n).read j) = part (m.read j) := by
  induction n generalizing m ka kb with
  | zero => rfl
  | succ n ih =>
    rw [copyLoop_succ, ih (Memory.wf_write hwf _ _), Memory.read_write hwf]
    split
    · rename_i hkey
      rw [hpart, hkey]
    · rfl

end

/-! The instructions. -/

/-- A part of the characters of field B after a move: that of A, repeated where B begins inside A to the right of its
beginning. -/
abbrev Copies {α : Type} (part : Character → α) (s t : State) (pa pb : Place) (n : Nat) : Prop :=
  (¬ (pa.space = pb.space ∧ pa.loc < pb.loc ∧ pb.loc < pa.loc + n) →
    ∀ k < n, part (t.at pb.space (pb.loc + k)) = part (s.at pa.space (pa.loc + k))) ∧
  (pa.space = pb.space → ∀ d, 0 < d → d < n → pb.loc = pa.loc + d →
    ∀ k < n, part (t.at pb.space (pb.loc + k)) = part (s.at pa.space (pa.loc + k % d)))

/-- The keys of two fields lie as their locations do. -/
theorem Place.key_inside {p q : Place} {n : Nat} (hp : p.loc + n ≤ Config.spaceLimit) (hq : q.loc < Config.spaceLimit)
    (h : p.key < q.key ∧ q.key < p.key + n) : p.space = q.space ∧ p.loc < q.loc ∧ q.loc < p.loc + n := by
  obtain ⟨hspace, hlo, hhi⟩ := (Place.key_in_field hp hq).mp ⟨h.1.le, h.2⟩
  refine ⟨hspace.symm, lt_of_le_of_ne hlo fun heq => ?_, hhi⟩
  rw [Place.key, Place.key, hspace, heq] at h
  omega

theorem copies_of_copyLoop {α : Type} {part : Character → α} {put : Character → Character → Character}
    (hpart : ∀ a b, part (put a b) = part a) {s t : State} {pa pb : Place} {n : Nat} (hwf : s.mem.wf = true)
    (ha : s.CanRead pa n) (hb : s.CanWrite pb n) (ht : t.mem = copyLoop put s.mem pa.key pb.key n) :
    Copies part s t pa pb n := by
  have hale := ha.1.le
  have hble := hb.1.le
  simp only [Copies, State.at, ht, Space.key_add]
  refine ⟨fun hsep k hk => ?_, fun hspace d hd _ hpb k hk => ?_⟩
  · have hkeys : ¬ (pa.key < pb.key ∧ pb.key < pa.key + n) := mt (Place.key_inside hale (by omega)) hsep
    exact (congrArg part (copyLoop_ahead hwf hkeys hk)).trans (hpart _ _)
  · have hkey : pb.key = pa.key + d := by rw [Place.key, Place.key, ← hspace, hpb, Space.key_add]
    rw [show pb.space.key pb.loc = pa.key + d from hkey, hkey]
    exact copyLoop_repeats hpart hwf hd hk

/-- A move of n positions finishes with flag 2 and what its loop leaves in Operand-B. -/
theorem State.move_completes {s : State} {n : Nat} {a b : Operand} {pa pb : Place}
    {put : Character → Character → Character} {loop : Memory → Nat → Nat → Nat → Memory}
    (hloop : ∀ m ka kb, loop m ka kb n = copyLoop put m ka kb n) (hhost : s.host < s.parts.length)
    (he : s.effective a b = .ok (pa, pb)) (ha : s.CanRead pa n) (hb : s.CanWrite pb n) :
    ∃ t, s.outcome (s.move n a b loop) = .next t ∧ Finishes s t (.only .two) ∧ Untouched s t pb n ∧
      t.mem = copyLoop put s.mem pa.key pb.key n := by
  refine ⟨_, State.outcome_next.mpr (State.move_ok.mpr ⟨pa, pb, he, ha, hb, rfl⟩), s.finishes hhost _ _,
    fun sp loc hloc hout => ?_, hloop _ _ _⟩
  have hkey := mt (Place.key_in_field hb.1.le hloc).mp hout
  rw [State.at, State.finish_mem, hloop]
  exact copyLoop_outside (by omega)

/-- Settles O32: a whole character is the part that the loop of Move Character takes from A. -/
theorem moveCharacterCopies : Obligations.MoveCharacterCopies := by
  rintro s la lb n a b pa pb rfl ⟨hhost, hwf⟩ he ha hb
  obtain ⟨t, hnext, hfinish, hframe, hmem⟩ := State.move_completes
    (fun m ka kb => moveLoop_eq_copyLoop m ka kb (len2 la lb)) hhost he ha hb
  exact ⟨t, hnext, hfinish, hframe, copies_of_copyLoop (part := id) (fun _ _ => rfl) hwf ha hb hmem⟩

/-- Settles O33: the loop of Move Numeric takes the numeric portion from A and leaves both zone bits of B. -/
theorem moveNumericCopies : Obligations.MoveNumericCopies := by
  rintro s la lb n a b pa pb rfl ⟨hhost, hwf⟩ he ha hb
  obtain ⟨t, hnext, hfinish, hframe, hmem⟩ := State.move_completes
    (fun m ka kb => moveNumericLoop_eq_copyLoop m ka kb (len2 la lb)) hhost he ha hb
  refine ⟨t, hnext, hfinish, hframe, fun sp loc _ => ?_,
    copies_of_copyLoop (fun _ _ => numeric_character _ _ _) hwf ha hb hmem⟩
  rw [State.at, hmem]
  exact ⟨copyLoop_keeps (fun _ _ => bit7_character _ _ _) hwf,
    copyLoop_keeps (fun _ _ => Laws.EncodesTen.bit5_character _ _ _) hwf⟩

end Sys2Proof.Machine
end

section
/-! SUPPORT. Multiply of decimal operands: the product fits the product field, whose characters are digits, the
rightmost with the sign of the product (48_multiply.md R291, R294, R295). -/

namespace Sys2Proof.Machine

/-- A character is a digit or one of P thru Y when its bit-5 is ON and its numeric portion is a decimal digit. -/
theorem isDigit_or_isMinusDigit {c : Character} (hbit5 : bit5 c = true) (hnum : num c < 10) :
    isDigit c = true ∨ isMinusDigit c = true := by
  revert c
  decide

theorem State.num_at_lt {s : State} {p : Place} {n k : Nat} (h : allDecimal (s.field p n) = true) (hk : k < n) :
    num (s.at p.space (p.loc + k)) < 10 := by
  have hmem : (s.field p n)[k]'(by rwa [s.field_length]) ∈ s.field p n := List.getElem_mem _
  rw [s.field_getElem] at hmem
  exact of_decide_eq_true (List.all_eq_true.mp h _ hmem)

theorem State.take_field_add (s : State) (p : Place) (m n : Nat) : (s.field p (m + n)).take m = s.field p m := by
  rw [s.field_add, List.take_append_of_le_length (s.field_length _ _).ge,
    List.take_of_length_le (s.field_length _ _).le]

/-- The multiplicand x, and y the multiplier in the leftmost positions of the product field. -/
theorem multiplyFields_of_decimal {draw : Nat} {x y field : List Character}
    (hy : field.take (field.length - x.length) = y) (hx : allDecimal x = true) (hydec : allDecimal y = true) :
    multiplyFields draw x field =
      { chars := digitField (digits field.length (magnitude x * magnitude y)) (signOf x ^^ signOf y)
        cc := .ofSign (decide (magnitude x * magnitude y = 0)) (signOf x ^^ signOf y) } := by
  rw [multiplyFields, productResult, hy, hx, hydec, Bool.and_true, if_pos rfl]

/-- A product has at most as many digits as both factors together. -/
theorem magnitude_mul_lt {x y : List Character} (hx : allDecimal x = true) (hy : allDecimal y = true) :
    magnitude x * magnitude y < 10 ^ (y.length + x.length) := by
  rw [pow_add, mul_comm]
  exact Nat.mul_lt_mul'' (magnitude_lt_of_allDecimal hy) (magnitude_lt_of_allDecimal hx)

/-- Settles O26: the product field holds the product in full, as the digit characters that Multiply leaves. -/
theorem multiplyProduct : Obligations.MultiplyProduct := by
  rintro s la lb n a b pa pb x y rfl hs hord hxfield hyfield hx hy
  have hxlen : x.length = len1 la := by rw [hxfield, s.field_length]
  have hylen : y.length = len1 lb := by rw [hyfield, s.field_length]
  have hn : 0 < len1 lb + len1 la := Nat.add_pos_left (len1_pos lb) _
  have hmultiplier : (s.field pb (len1 lb + len1 la)).take
      ((s.field pb (len1 lb + len1 la)).length - x.length) = y := by
    rw [s.field_length, hxlen, Nat.add_sub_cancel, State.take_field_add, hyfield]
  have hresult := multiplyFields_of_decimal (draw := s.draws) hmultiplier hx hy
  rw [s.field_length] at hresult
  obtain ⟨t, hnext, hfinish, hframe, hfield⟩ := State.arithmetic_stores hs hord
    (result := multiplyFields s.draws) (by rw [← hxfield, hresult]) (by simp)
  have hproduct := HoldsDigits.of_digitField hn hfield
  rw [Nat.mod_eq_of_lt (hxlen ▸ hylen ▸ magnitude_mul_lt hx hy)] at hproduct
  refine ⟨t, hnext, ?_, hframe, hproduct.magnitude_eq, ?_, hproduct.isDigit_left,
    isDigit_or_isMinusDigit hproduct.bit5_right (State.num_at_lt hproduct.decimal (by omega))⟩
  · rw [← ConditionCode.ofSign_xor]
    exact hfinish
  · rw [hproduct.signOf_eq, Bool.xor_iff_ne]

end Sys2Proof.Machine
end

section
/-! SUPPORT. Read and Write as instructions: the device, the area and its check, and the faults of them
(49_read_write.md R313 to R317; 60_exceptions.md R362). -/

namespace Sys2Proof.Machine

/-! The device and the area. -/

theorem facDevice_of_mem {device : Nat} (h : device ∈ [0, 1, 2, 3, 4, 8]) : facDevice device = true := by
  revert device
  decide

section
variable {s : State} {device : Nat} {channel : Channel} {a b : Operand} {pa pb : Place}
  {check : Place → Nat → Except FaultKind Unit}

theorem State.transferOf_deviceUnknown (h : device = 5 ∨ device = 6 ∨ device = 7 ∨ device = 9) :
    s.transferOf device .fac a b check = .error .deviceUnknown := by
  rcases h with rfl | rfl | rfl | rfl <;> rfl

/-- On the IOC, and on the FAC for a device that is not a disc, the area has the indexed sum as its length. -/
theorem State.transferOf_plain (hplain : channel = .ioc ∨ device ∈ [0, 1, 2, 3, 4, 8] ∧ s.isDisc device = false)
    (he : s.effective a b = .ok (pa, pb)) :
    s.transferOf device channel a b check =
      check pa (countOf pb.loc) >>= fun _ => .ok { area := pa, count := countOf pb.loc, disc := none } := by
  have hknown : ¬ (channel == .fac && !facDevice device) = true := by
    rcases hplain with rfl | ⟨hdev, -⟩
    · simp
    · simp [facDevice_of_mem hdev]
  have hnot : ¬ (channel == .fac && s.isDisc device) = true := by
    rcases hplain with rfl | ⟨-, hdisc⟩
    · simp
    · simp [hdisc]
  unfold State.transferOf
  rw [if_neg hknown]
  refine (State.effective_bind he _).trans ?_
  exact if_neg hnot

/-- On a disc the area has 100 positions, and the disc address is read from six more (49_read_write.md R315). -/
theorem State.transferOf_disc (hdev : device ∈ [0, 1, 2, 3, 4, 8]) (hdisc : s.isDisc device = true)
    (he : s.effective a b = .ok (pa, pb)) :
    s.transferOf device .fac a b check =
      check pa 100 >>= fun _ => s.checkRead pb 6 >>= fun _ =>
        .ok { area := pa, count := 100, disc := some (s.field pb 6) } := by
  unfold State.transferOf
  rw [if_neg (by simp [facDevice_of_mem hdev])]
  refine (State.effective_bind he _).trans ?_
  exact if_pos (by simp [hdisc])

/-! Faults. -/

theorem State.transferOf_plain_error {kind : FaultKind}
    (hplain : channel = .ioc ∨ device ∈ [0, 1, 2, 3, 4, 8] ∧ s.isDisc device = false)
    (he : s.effective a b = .ok (pa, pb)) (h : check pa (countOf pb.loc) = .error kind) :
    s.transferOf device channel a b check = .error kind := by
  rw [State.transferOf_plain hplain he]
  exact Except.bind_error.mpr (.inl h)

/-- The area is checked before the disc address. -/
theorem State.transferOf_disc_error {kind : FaultKind} (hdev : device ∈ [0, 1, 2, 3, 4, 8])
    (hdisc : s.isDisc device = true) (he : s.effective a b = .ok (pa, pb))
    (h : check pa 100 = .error kind ∨ check pa 100 = .ok () ∧ s.ReadFault pb 6 kind) :
    s.transferOf device .fac a b check = .error kind := by
  rw [State.transferOf_disc hdev hdisc he]
  rw [← State.checkRead_error] at h
  exact Except.checks_error h _

theorem read_stops {mode : FillMode} {kind : FaultKind}
    (h : s.transferOf device channel a b s.checkWrite = .error kind) : s.Stops (.read device channel mode a b) kind :=
  State.outcome_of_error (Except.bind_error.mpr (.inl h))

theorem write_stops {wk : WriteKind} {kind : FaultKind}
    (h : s.transferOf device channel a b s.checkRead = .error kind) : s.Stops (.write device channel wk a b) kind :=
  State.outcome_of_error (Except.bind_error.mpr (.inl h))

end

/-- Settles O59: each fault is that of the first check of the transfer that fails. -/
theorem readWriteFaults : Obligations.ReadWriteFaults := by
  intro s device mode wk a b
  refine ⟨fun hdev => ⟨read_stops (State.transferOf_deviceUnknown hdev),
    write_stops (State.transferOf_deviceUnknown hdev)⟩, ?_, ?_⟩
  · rintro channel pa pb n kind he rfl hplain
    exact ⟨fun h => read_stops (State.transferOf_plain_error hplain he (State.checkWrite_error.mpr h)),
      fun h => write_stops (State.transferOf_plain_error hplain he (State.checkRead_error.mpr h))⟩
  · intro pa pb kind he hdev hdisc
    have herror {check : Place → Nat → Except FaultKind Unit} :=
      State.transferOf_disc_error (kind := kind) (check := check) hdev hdisc he
    exact ⟨fun h => read_stops (herror (.inl (State.checkWrite_error.mpr h))),
      fun hw h => read_stops (herror (.inr ⟨State.checkWrite_ok.mpr hw, h⟩)),
      fun h => write_stops (herror (.inl (State.checkRead_error.mpr h))),
      fun hr h => write_stops (herror (.inr ⟨State.checkRead_ok.mpr hr, h⟩))⟩

/-! What Read and Write do once their checks have passed. -/

section
variable {s : State} {device n : Nat} {channel : Channel} {mode : FillMode} {kind : WriteKind} {a b : Operand}
  {pa pb : Place} (he : s.effective a b = .ok (pa, pb))
include he

theorem read_next (hplain : channel = .ioc ∨ device ∈ [0, 1, 2, 3, 4, 8] ∧ s.isDisc device = false)
    (hn : n = if pb.loc = 0 then 10000 else pb.loc) (hw : s.CanWrite pa n) {r : Transfer}
    (hr : r = { area := pa, count := n, disc := none }) :
    exec (.read device channel mode a b) s =
      .next (s.onChannel (.read mode) device channel a.common r (fun u => u.facRead r)) := by
  subst hn hr
  refine execRead_next.mpr ⟨_, ?_, rfl⟩
  rw [State.transferOf_plain hplain he]
  exact Except.check_ok.mpr ⟨State.checkWrite_ok.mpr hw, rfl⟩

theorem write_next (hplain : channel = .ioc ∨ device ∈ [0, 1, 2, 3, 4, 8] ∧ s.isDisc device = false)
    (hn : n = if pb.loc = 0 then 10000 else pb.loc) (hread : s.CanRead pa n) {r : Transfer}
    (hr : r = { area := pa, count := n, disc := none }) :
    exec (.write device channel kind a b) s =
      .next (s.onChannel (.write kind) device channel a.common r (fun u => u.facWrite device kind r)) := by
  subst hn hr
  refine execWrite_next.mpr ⟨_, ?_, rfl⟩
  rw [State.transferOf_plain hplain he]
  exact Except.check_ok.mpr ⟨State.checkRead_ok.mpr hread, rfl⟩

variable (hdev : device ∈ [0, 1, 2, 3, 4, 8]) (hdisc : s.isDisc device = true) (haddress : s.CanRead pb 6)
include hdev hdisc haddress

theorem read_disc_next (hw : s.CanWrite pa 100) {r : Transfer}
    (hr : r = { area := pa, count := 100, disc := some (s.field pb 6) }) :
    exec (.read device .fac mode a b) s =
      .next (s.discAttempt device (num (s.at pb.space pb.loc)) (fun u => u.facRead r)) := by
  refine execRead_next.mpr ⟨r, ?_, by rw [hr]; rfl⟩
  rw [hr, State.transferOf_disc hdev hdisc he]
  exact Except.check_ok.mpr ⟨State.checkWrite_ok.mpr hw, Except.check_ok.mpr ⟨State.checkRead_ok.mpr haddress, rfl⟩⟩

theorem write_disc_next (hread : s.CanRead pa 100) {r : Transfer}
    (hr : r = { area := pa, count := 100, disc := some (s.field pb 6) }) :
    exec (.write device .fac kind a b) s =
      .next (s.discAttempt device (num (s.at pb.space pb.loc)) (fun u => u.facWrite device kind r)) := by
  refine execWrite_next.mpr ⟨r, ?_, by rw [hr]; rfl⟩
  rw [hr, State.transferOf_disc hdev hdisc he]
  exact Except.check_ok.mpr ⟨State.checkRead_ok.mpr hread, Except.check_ok.mpr ⟨State.checkRead_ok.mpr haddress, rfl⟩⟩

end

end Sys2Proof.Machine
end

section
/-! SUPPORT. What Read and Write leave: an operation issued on the IOC, a transfer through the FAC inside the
instruction, and one attempt of a disc access (49_read_write.md R322, R328, R329). -/

namespace Sys2Proof.Machine

/-! The IOC. -/

/-- The parameters of an operation just issued. -/
def IocOperation.issued (direction : Direction) (device : Nat) (common : Bool) (loc n : Nat) : IocOperation :=
  { direction := direction, device := device, common := common, next := loc, left := n, first := loc, total := n,
    done := none }

theorem State.issue_leaves {s : State} (hhost : s.host < s.parts.length) (direction : Direction) (device : Nat)
    (common : Bool) (r : Transfer) {t : State} (ht : t = s.issue direction device common r) :
    SameMachine s t ∧ SameOthers s t ∧ SameMemory s t ∧ Switched s t ∧
      t.part s.host =
        { s.me with
          pc := { s.me.pc with loc := s.me.pc.loc + 10 }
          io := some (.issued direction device common r.area.loc r.count) } := by
  obtain ⟨f, hf, rfl⟩ : ∃ f : Partition → Partition,
      f s.me = { s.me with
        pc := { s.me.pc with loc := s.me.pc.loc + 10 }
        io := some (.issued direction device common r.area.loc r.count) } ∧ t = (s.modifyMe f).switchPartition :=
    ⟨_, rfl, ht⟩
  obtain ⟨hlen, hothers⟩ := s.sameOthers_modifyMe f
  exact ⟨⟨rfl, rfl, rfl, rfl, rfl, rfl⟩, ⟨hlen, hothers⟩, fun _ _ _ => rfl, ⟨congrArg ((s.host + 1) % ·) hlen, rfl⟩,
    (State.me_modifyMe s f hhost).trans hf⟩

/-- Settles O45: on the IOC both instructions only issue their operation. -/
theorem iocOperationIssued : Obligations.IocOperationIssued := by
  intro s device n a b pa pb hhost he hn
  exact ⟨fun mode hw => ⟨_, read_next he (.inl rfl) hn hw rfl, State.issue_leaves hhost _ _ _ _ rfl⟩,
    fun kind hread => ⟨_, write_next he (.inl rfl) hn hread rfl, State.issue_leaves hhost _ _ _ _ rfl⟩⟩

/-! The transfers through the FAC. -/

section
variable {s : State} {pa : Place} {n : Nat} {disc : Option (List Character)} {r : Transfer}

theorem State.facInput_length (s : State) (answer : FacAnswer) (n : Nat) : (s.facInput answer n).length = n := by
  simp [State.facInput]

/-- A character that the device delivers is the one that is stored. -/
theorem State.facInput_getElem (s : State) {answer : FacAnswer} {n j : Nat} (h : j < answer.delivered.length)
    (hj : j < (s.facInput answer n).length) : (s.facInput answer n)[j] = answer.delivered[j] := by
  simp [State.facInput, h]

theorem State.facRead_leaves (hs : s.Formed) (hw : s.CanWrite pa n)
    (hr : r = { area := pa, count := n, disc := disc }) :
    Finishes s (s.facRead r) (.only (outcomeFlag s.facAnswer.outcome)) ∧ Untouched s (s.facRead r) pa n ∧
      ∀ j (h : j < s.facAnswer.delivered.length), j < n →
        (s.facRead r).at pa.space (pa.loc + j) = s.facAnswer.delivered[j] := by
  subst hr
  have hlen := s.facInput_length s.facAnswer n
  have hfield := State.field_of_stored_of_length hs.2 (t := s.facRead { area := pa, count := n, disc := disc }) hlen rfl
  exact ⟨s.finishes hs.1 _ _, State.untouched_of_stored hw hlen.le rfl, fun j h hj =>
    (State.at_of_field hfield (by omega)).trans (s.facInput_getElem h _)⟩

theorem facSent_le (answer : FacAnswer) (n : Nat) : facSent answer n ≤ n := by
  unfold facSent
  split
  · exact le_rfl
  · exact min_le_right _ _

theorem State.facWrite_leaves (hhost : s.host < s.parts.length)
    (hr : r = { area := pa, count := n, disc := disc }) (device : Nat) (kind : WriteKind) :
    ∃ sent ≤ n, (s.facAnswer.outcome = .normal → sent = n) ∧ SameMemory s (s.facWrite device kind r) ∧
      (s.facWrite device kind r).outputs = s.outputs ++ facEvents device kind disc ((s.field pa n).take sent) ∧
      Finishes s { s.facWrite device kind r with outputs := s.outputs } (.only (outcomeFlag s.facAnswer.outcome)) := by
  subst hr
  exact ⟨_, facSent_le s.facAnswer _, fun hnormal => if_pos hnormal, fun _ _ _ => rfl, rfl, s.finishes hhost s.mem _⟩

end

/-- Settles O55: the area holds what the FAC delivers. -/
theorem facRead : Obligations.FacRead := by
  intro s device n mode a b pa pb hs hdev hdisc he hn hw
  exact ⟨_, read_next he (.inr ⟨hdev, hdisc⟩) hn hw rfl, State.facRead_leaves hs hw rfl⟩

/-- Settles O56: the characters sent are the first ones of the area. -/
theorem facWrite : Obligations.FacWrite := by
  intro s device n kind a b pa pb hhost hdev hdisc he hn hread
  obtain ⟨sent, hle, hleaves⟩ := State.facWrite_leaves (pa := pa) (n := n) (disc := none) hhost rfl device kind
  exact ⟨_, sent, write_next he (.inr ⟨hdev, hdisc⟩) hn hread rfl, hle, hleaves⟩

/-! The discs that are bound. -/

section
variable (s : State) {device unit d u : Nat}

theorem State.boundTo_unbind_same : (s.unbind device unit).boundTo device unit = none := by
  simp only [State.boundTo, State.unbind_bound, List.find?_filter, Option.map_eq_none_iff, List.find?_eq_none]
  simp [imp_iff_not_or]

theorem State.boundTo_unbind_ne (h : ¬ (d = device ∧ u = unit)) :
    (s.unbind device unit).boundTo d u = s.boundTo d u := by
  rw [State.boundTo, State.unbind_bound, List.find?_filter, State.boundTo]
  congr 2
  funext x
  have hx : x.device = d ∧ x.unit = u → ¬ (x.device = device ∧ x.unit = unit) := by
    rintro ⟨rfl, rfl⟩
    exact h
  rw [Bool.eq_iff_iff]
  simp only [Bool.not_eq_true', Bool.and_eq_true, decide_eq_true_eq, beq_iff_eq]
  rw [← Bool.not_eq_true, Bool.and_eq_true, beq_iff_eq, beq_iff_eq]
  exact and_iff_right_of_imp hx

theorem State.boundTo_bindDisc_same : (s.bindDisc device unit).boundTo device unit = some s.host := by
  simp [State.boundTo]

theorem State.boundTo_bindDisc_ne (h : ¬ (d = device ∧ u = unit)) :
    (s.bindDisc device unit).boundTo d u = s.boundTo d u := by
  have hother : ¬ (device = d ∧ unit = u) := fun ⟨hd, hu⟩ => h ⟨hd.symm, hu.symm⟩
  rw [← State.boundTo_unbind_ne s h, State.boundTo, State.bindDisc_bound,
    List.find?_cons_of_neg (by simpa using hother)]
  rfl

end

/-! One attempt. -/

section
variable {s : State} {device unit : Nat} {transfer : State → State} {t : State}

theorem State.discAttempt_elsewhere (h : ∃ q, s.boundTo device unit = some q ∧ q ≠ s.host) :
    s.discAttempt device unit transfer = s.switchPartition := by
  obtain ⟨q, hq, hne⟩ := h
  exact if_pos (by simpa [hq] using hne)

section
variable (hfree : ∀ q, s.boundTo device unit = some q → q = s.host)
include hfree

theorem State.discAttempt_free : s.discAttempt device unit transfer =
    if s.facAnswer.wait then (s.bindDisc device unit).switchPartition
    else (transfer (s.bindDisc device unit)).unbind device unit := by
  refine if_neg ?_
  cases h : s.boundTo device unit with
  | none => simp
  | some q => simp [hfree q h]

/-- While the heads move, the disc is bound and control passes on. -/
theorem State.discAttempt_seeking (hwait : s.facAnswer.wait = true) (ht : t = s.discAttempt device unit transfer) :
    SameMachine s { t with bound := s.bound } ∧ t.parts = s.parts ∧ SameMemory s t ∧ Switched s t ∧
      t.boundTo device unit = some s.host ∧ ∀ d u, ¬ (d = device ∧ u = unit) → t.boundTo d u = s.boundTo d u := by
  rw [State.discAttempt_free hfree, if_pos hwait] at ht
  subst ht
  exact ⟨⟨rfl, rfl, rfl, rfl, rfl, rfl⟩, rfl, fun _ _ _ => rfl, ⟨rfl, rfl⟩, s.boundTo_bindDisc_same,
    fun _ _ h => s.boundTo_bindDisc_ne h⟩

/-- A transfer that does not depend on the discs bound is made, and the disc is free. -/
theorem State.discAttempt_transfers (hwait : s.facAnswer.wait = false)
    (hmake : ∀ bound, transfer { s with bound := bound } = { transfer s with bound := bound })
    (hbound : (transfer s).bound = s.bound) :
    s.discAttempt device unit transfer = (transfer s).unbind device unit := by
  have hbind : transfer (s.bindDisc device unit) = { transfer s with bound := (s.bindDisc device unit).bound } :=
    hmake _
  rw [State.discAttempt_free hfree, hwait, hbind]
  simp [State.unbind, State.bindDisc, hbound, List.filter_filter]

end

/-- Control passes on when another partition has the disc. -/
theorem State.discAttempt_passes (h : ∃ q, s.boundTo device unit = some q ∧ q ≠ s.host)
    (ht : t = s.discAttempt device unit transfer) :
    SameMachine s t ∧ t.parts = s.parts ∧ SameMemory s t ∧ Switched s t := by
  rw [State.discAttempt_elsewhere h] at ht
  subst ht
  exact ⟨⟨rfl, rfl, rfl, rfl, rfl, rfl⟩, rfl, fun _ _ _ => rfl, rfl, rfl⟩

end

/-- Settles O57: where the disc can be read at once, the attempt is a Read of 100 characters, and the disc is free. -/
theorem discRead : Obligations.DiscRead := by
  rintro s device unit mode a b pa pb hs hdev hdisc he hw haddress rfl
  obtain ⟨r, hr⟩ : ∃ r : Transfer, r = { area := pa, count := 100, disc := some (s.field pb 6) } := ⟨_, rfl⟩
  have hnext := read_disc_next (mode := mode) he hdev hdisc haddress hw hr
  refine ⟨fun h => ⟨_, hnext, State.discAttempt_passes h rfl⟩,
    fun hfree hwait => ⟨_, hnext, State.discAttempt_seeking hfree hwait rfl⟩, fun hfree hwait => ?_⟩
  rw [State.discAttempt_transfers hfree hwait (fun _ => rfl) rfl] at hnext
  obtain ⟨hfinish, hframe, hdelivered⟩ := State.facRead_leaves hs hw hr
  exact ⟨_, hnext, hfinish, hframe, hdelivered, State.boundTo_unbind_same _, fun _ _ h => State.boundTo_unbind_ne _ h⟩

/-- Settles O58: where the disc can be written at once, the attempt sends the record with its address, and the disc is
free. -/
theorem discWrite : Obligations.DiscWrite := by
  rintro s device unit kind a b pa pb hhost hdev hdisc he hread haddress rfl
  obtain ⟨r, hr⟩ : ∃ r : Transfer, r = { area := pa, count := 100, disc := some (s.field pb 6) } := ⟨_, rfl⟩
  have hnext := write_disc_next (kind := kind) he hdev hdisc haddress hread hr
  refine ⟨fun h => ⟨_, hnext, State.discAttempt_passes h rfl⟩,
    fun hfree hwait => ⟨_, hnext, State.discAttempt_seeking hfree hwait rfl⟩, fun hfree hwait => ?_⟩
  rw [State.discAttempt_transfers hfree hwait (fun _ => rfl) rfl] at hnext
  obtain ⟨sent, hle, hnormal, hmem, houtputs, hfinish⟩ := State.facWrite_leaves hhost hr device kind
  exact ⟨_, sent, hnext, hle, hnormal, hmem, houtputs, hfinish, State.boundTo_unbind_same _,
    fun _ _ h => State.boundTo_unbind_ne _ h⟩

end Sys2Proof.Machine
end

section
/-! SUPPORT. The service of one IOC, signal by signal, and what the partition in control does with an operation that has
not ended or has (49_read_write.md R323 to R327; 60_exceptions.md R372, R386). -/

namespace Sys2Proof.Machine

/-! The operation and the signal of one partition. -/

section
variable {s : State} {q : Nat} {o o' : IocOperation} {x : IocSignal}

theorem State.setOperation_part (hq : q < s.parts.length) :
    (s.setOperation q o).part q = { s.part q with signal := none, io := some o } := by
  show (s.modifyPart q _).part q = _
  rw [State.part_modifyPart, if_pos ⟨rfl, hq⟩]

theorem State.setOperation_part_ne {q' : Nat} (h : q' ≠ q) : (s.setOperation q o).part q' = s.part q' := by
  show (s.modifyPart q _).part q' = _
  rw [State.part_modifyPart, if_neg fun hc => h hc.1]

section
variable (hio : (s.part q).io = some o) (hdone : o.done = none) (hsignal : (s.part q).signal = some x)
include hio hdone hsignal

theorem State.service_of_read {mode : FillMode} (hdir : o.direction = .read mode) :
    s.service q = s.serviceRead q mode o x := by
  simp [State.service, hio, hsignal, hdone, hdir]

theorem State.service_of_write {kind : WriteKind} (hdir : o.direction = .write kind) :
    s.service q = s.serviceWrite q kind o x := by
  simp [State.service, hio, hsignal, hdone, hdir]

end

/-- What a service step that stores leaves as it is, and the operation it leaves. -/
theorem State.stored_operation (hq : q < s.parts.length) (m : Memory) {t : State}
    (ht : t = (s.setMem m).setOperation q o') :
    SameMachine s t ∧ Stayed s t ∧ (∀ q', q' ≠ q → t.part q' = s.part q') ∧
      t.part q = { s.part q with signal := none, io := some o' } := by
  subst ht
  exact ⟨⟨rfl, rfl, rfl, rfl, rfl, rfl⟩, ⟨rfl, rfl⟩, fun _ h => State.setOperation_part_ne h,
    State.setOperation_part (s := s.setMem m) hq⟩

end

/-! The service of a Read. -/

theorem SameMemory.of_mem_eq {s t : State} (h : t.mem = s.mem) : SameMemory s t := fun _ _ _ => by
  rw [State.at, h, State.at]

/-- A field stored leaves every location outside it as it is, wherever the field lies below the limit. -/
theorem State.untouched_of_limit {s t : State} {p : Place} {n : Nat} {cs : List Character}
    (hn : p.loc + n ≤ Config.spaceLimit) (hcs : cs.length ≤ n) (ht : t.mem = s.stored p cs) : Untouched s t p n := by
  intro sp loc hloc hout
  rw [State.at, ht]
  exact s.stored_outside hcs hn hloc hout

/-- Settles O47: the character of the signal is the one that is stored. -/
theorem iocReadStoresCharacter : Obligations.IocReadStoresCharacter := by
  rintro s q mode o c k p hwf hq hio hdone hdir hsignal hleft hnext rfl
  have hservice := (State.service_of_read hio hdone hsignal hdir).trans
    (show _ = (s.setMem (s.stored (o.place q) [c])).setOperation q _ from rfl)
  obtain ⟨hmachine, hstayed, hothers, hpart⟩ := State.stored_operation hq _ hservice
  refine ⟨State.untouched_of_limit (cs := [c]) hnext le_rfl (congrArg State.mem hservice), ?_, hmachine, hstayed,
    hothers, ?_⟩
  · rw [hservice]
    exact Memory.read_write_same hwf _ _
  · rw [hpart, if_congr (show o.step.left = 0 ↔ o.left = 1 by rw [IocOperation.step_left]; omega) rfl rfl]
    rfl

/-- Settles O48: what the Unit Separator stores is blanks or nothing. -/
theorem unitSeparatorEndsRead : Obligations.UnitSeparatorEndsRead := by
  rintro s q mode o k p hwf hq hio hdone hdir hsignal hlimit rfl
  have hservice := State.service_of_read hio hdone hsignal hdir
  cases mode with
  | fill =>
    obtain ⟨hmachine, -, hothers, hpart⟩ := State.stored_operation hq _ hservice
    have hlen : (List.replicate o.left BLANK).length = o.left := List.length_replicate
    have hmem : (s.service q).mem = s.stored (o.place q) (List.replicate o.left BLANK) := congrArg State.mem hservice
    refine ⟨State.untouched_of_limit hlimit hlen.le hmem, fun _ j hj => ?_, fun h => (nomatch h), hmachine, hothers,
      hpart⟩
    have hfield := State.field_of_stored_of_length hwf hlen hmem
    exact (State.at_of_field hfield (hj.trans_eq hlen.symm)).trans (List.getElem_replicate _)
  | nonfill =>
    obtain ⟨hmachine, -, hothers, hpart⟩ := State.stored_operation hq s.mem hservice
    have hmem : SameMemory s (s.service q) := .of_mem_eq (by rw [hservice]; rfl)
    exact ⟨fun sp loc hloc _ => hmem sp loc hloc, fun h => (nomatch h), fun _ => hmem, hmachine, hothers, hpart⟩

/-! The service of a Write. -/

/-- Settles O49: the signal ends the operation or sends one character. -/
theorem iocWriteSendsCharacter : Obligations.IocWriteSendsCharacter := by
  rintro s q kind o k p hq hio hdone hdir hsignal rfl
  have hservice := (State.service_of_write hio hdone hsignal hdir).trans (show _ = ite _ _ _ from rfl)
  by_cases hleft : o.left = 0
  · rw [if_pos hleft] at hservice
    rw [hservice]
    exact ⟨rfl, fun _ => State.setOperation_part_ne, fun _ => ⟨rfl, State.setOperation_part hq⟩,
      fun h => absurd hleft h⟩
  · rw [if_neg hleft] at hservice
    rw [hservice]
    exact ⟨rfl, fun _ => State.setOperation_part_ne, fun h => absurd h hleft,
      fun _ => ⟨rfl, State.setOperation_part (s := s.emit _) hq⟩⟩

/-! An abnormal end. -/

theorem abnormalOutcome_named (how : AbnormalEnd) :
    (how = .error → abnormalOutcome how = .error) ∧ (how = .flag → abnormalOutcome how = .flag) ∧
      (how = .fault → abnormalOutcome how = .fault) := by
  cases how <;> simp [abnormalOutcome]

theorem Direction.read_or_write (d : Direction) : (∃ mode, d = .read mode) ∨ ∃ kind, d = .write kind := by
  cases d with
  | read mode => exact .inl ⟨mode, rfl⟩
  | write kind => exact .inr ⟨kind, rfl⟩

/-- Settles O50: the end of a Read leaves the rest of its area free, that of a Write stores nothing. -/
theorem iocAbnormalEnd : Obligations.IocAbnormalEnd := by
  rintro s q o how p hq hio hdone hsignal hlimit rfl
  obtain ⟨herror, hflag, hfault⟩ := abnormalOutcome_named how
  obtain ⟨mode, hdir⟩ | ⟨kind, hdir⟩ := o.direction.read_or_write
  · have hservice := State.service_of_read hio hdone hsignal hdir
    obtain ⟨hmachine, -, hothers, hpart⟩ := State.stored_operation hq _ hservice
    exact ⟨State.untouched_of_limit hlimit (freeInput_length s.draws q o.left).le (congrArg State.mem hservice),
      fun _ h => (nomatch hdir.symm.trans h), hmachine, hothers, _, herror, hflag, hfault, hpart⟩
  · have hservice := State.service_of_write hio hdone hsignal hdir
    obtain ⟨hmachine, -, hothers, hpart⟩ := State.stored_operation hq s.mem hservice
    have hmem : SameMemory s (s.service q) := .of_mem_eq (by rw [hservice]; rfl)
    exact ⟨fun sp loc hloc _ => hmem sp loc hloc, fun _ _ => hmem, hmachine, hothers, _, herror, hflag, hfault,
      hpart⟩

/-! The partition in control. -/

theorem Partition.waiting_eq_true {p : Partition} {o : IocOperation} (hio : p.io = some o) (hdone : o.done = none) :
    p.waiting = true := by
  simp [Partition.waiting, hio, hdone]

theorem Partition.collect_of_done {p : Partition} {o : IocOperation} {k : DeviceOutcome} (hio : p.io = some o)
    (hdone : o.done = some k) : p.collect = { p with io := none, cc := .only (outcomeFlag k) } := by
  simp [Partition.collect, hio, hdone]

theorem State.finished_iff {s : State} : s.finished = true ↔ s.me.pc ∈ s.me.setting.stop := List.contains_iff_mem

/-- Settles O46: the boundary is over, and the three cases are those of the loop of 60_exceptions.md R372. -/
theorem iocWaitAndResume : Obligations.IocWaitAndResume := by
  rintro s t rfl hhost
  refine ⟨fun ⟨o, hio, hdone⟩ => ⟨_, step_next.mpr (.inl ⟨Partition.waiting_eq_true hio hdone, rfl⟩),
    ⟨rfl, rfl, rfl, rfl, rfl, rfl⟩, rfl, rfl, rfl, rfl⟩, State.resume_of_no_operation _, fun o k hio hdone => ?_,
    fun hended => ⟨fun hstop => ?_, fun hstop => ?_⟩⟩
  · exact ⟨⟨rfl, rfl, rfl, rfl, rfl, rfl⟩, State.sameOthers_modifyMe _ _, rfl, ⟨rfl, rfl⟩,
      (State.resume_me _).trans (Partition.collect_of_done hio hdone)⟩
  · exact step_eq_runInstruction hended (by simpa using hstop)
  · have hlen : s.boundary.resume.parts.length = s.boundary.parts.length := State.modifyPart_length _ _ _
    exact ⟨_, step_next.mpr (.inr (.inl ⟨Partition.waiting_eq_false hended, State.finished_iff.mpr hstop, rfl⟩)),
      ⟨rfl, rfl, rfl, rfl, rfl, rfl⟩, rfl, rfl, congrArg ((s.boundary.host + 1) % ·) hlen, rfl⟩

end Sys2Proof.Machine
end

section
/-! SUPPORT. Which instructions finish with a memory and a Condition Code, and that no instruction but Branch on Service
Request takes a held request away (60_exceptions.md R366, R371). -/

namespace Sys2Proof.Machine

/-- Every instruction but Branch, Read and Write that answers a next state ends as 10_state.md R36 and R39 say. -/
theorem exec_finishes {i : Instr} {s t : State} (h : exec i s = .next t) (hread : i.fields.f ≠ 0)
    (hwrite : i.fields.f ≠ 1) (hbranch : i.fields.f ≠ 11) : ∃ m cc, t = s.finish m cc := by
  cases i with
  | read device channel mode a b => exact absurd rfl hread
  | write device channel kind a b => exact absurd rfl hwrite
  | unassigned2 | unassigned3 | unassigned10 => cases h
  | add la lb a b | subtract la lb a b | multiply la lb a b | divide la lb a b | formNumeric la lb a b =>
    obtain ⟨pa, pb, -, -, -, r, -, rfl⟩ := State.arithmetic_ok.mp (State.outcome_next.mp h)
    exact ⟨_, _, rfl⟩
  | moveCharacter la lb a b | moveNumeric la lb a b =>
    obtain ⟨pa, pb, -, -, -, rfl⟩ := State.move_ok.mp (State.outcome_next.mp h)
    exact ⟨_, _, rfl⟩
  | exchange la lb a b =>
    obtain ⟨pa, pb, -, -, -, rfl⟩ := State.exchange_ok.mp (State.outcome_next.mp h)
    exact ⟨_, _, rfl⟩
  | compare la lb a b =>
    obtain ⟨pa, pb, -, -, -, rfl⟩ := State.compare_ok.mp (State.outcome_next.mp h)
    exact ⟨_, _, rfl⟩
  | edit la lb a b =>
    obtain ⟨pa, pb, m, -, -, -, -, r, -, rfl⟩ := State.edit_ok.mp (State.outcome_next.mp h)
    exact ⟨_, _, rfl⟩
  | branch0 lb a b | branch1 lb a b | branch2 lb a b | branch3 lb a b | branch4 lb a b | branch5 lb a b
  | link lb a b | serviceRequest lb a b | branch8 lb a b | branch9 lb a b => exact absurd rfl hbranch

/-- Settles O15: finishing an instruction changes neither the partition in control nor its timer. -/
theorem controlStays : Obligations.ControlStays := by
  intro i s t h hread hwrite hbranch
  obtain ⟨m, cc, rfl⟩ := exec_finishes h hread hwrite hbranch
  exact ⟨rfl, rfl⟩

/-! Held requests. -/

/-- A device number that a partition holds in s it holds in t. -/
def KeepsRequests (s t : State) : Prop := ∀ q d, (s.part q).srq = some d → (t.part q).srq = some d

theorem KeepsRequests.refl (s : State) : KeepsRequests s s := fun _ _ h => h

theorem KeepsRequests.trans {s t u : State} (h : KeepsRequests s t) (h' : KeepsRequests t u) : KeepsRequests s u :=
  fun q d hd => h' q d (h q d hd)

theorem KeepsRequests.modifyPart {s : State} {q : Nat} {f : Partition → Partition}
    (hf : ∀ p d, p.srq = some d → (f p).srq = some d) : KeepsRequests s (s.modifyPart q f) := by
  intro q' d hd
  rw [State.part_modifyPart]
  split
  · exact hf _ d hd
  · exact hd

theorem KeepsRequests.modifyMe {s : State} {f : Partition → Partition} (hf : ∀ p, (f p).srq = p.srq) :
    KeepsRequests s (s.modifyMe f) :=
  .modifyPart fun p _ hd => (hf p).trans hd

theorem KeepsRequests.resume (s : State) : KeepsRequests s s.resume := .modifyMe Partition.collect_srq

theorem KeepsRequests.finish (s : State) (m : Memory) (cc : ConditionCode) : KeepsRequests s (s.finish m cc) :=
  have hcc : KeepsRequests s ((s.setMem m).setCC cc) := KeepsRequests.modifyMe (s := s.setMem m) fun _ => rfl
  hcc.trans (.modifyMe fun _ => rfl)

theorem KeepsRequests.taken (s : State) (target : InstrAddress) (forced : Bool) :
    KeepsRequests s (s.taken target forced) := by
  have hgoto : KeepsRequests s (s.goto target) := .modifyMe fun _ => rfl
  unfold State.taken
  split <;> exact hgoto

theorem branch_keepsRequests {s t : State} {variant : Nat} {lb : Numeric} {a b : BranchAddress}
    (h : s.branch variant lb a b = .ok t) : KeepsRequests s t := by
  rcases State.branch_ok.mp h with ⟨-, -, rfl⟩ | ⟨-, -, -, -, rfl⟩ | ⟨-, -, -, rfl⟩
  · exact .taken s _ _
  · exact .taken s _ _
  · exact .modifyMe fun _ => rfl

theorem link_keepsRequests {s t : State} {lb : Numeric} {a b : BranchAddress} (h : s.link lb a b = .ok t) :
    KeepsRequests s t := by
  obtain ⟨-, ⟨-, rfl⟩ | ⟨-, -, -, -, -, rfl⟩⟩ := State.link_ok.mp h
  · exact .modifyMe fun _ => rfl
  · exact fun q d hd => KeepsRequests.taken (s.setMem _) _ _ q d hd

/-- Read and Write on their channel, for any transfer that keeps the requests. -/
theorem onChannel_keepsRequests {s : State} {direction : Direction} {device : Nat} {channel : Channel} {common : Bool}
    {r : Transfer} {transfer : State → State} (htransfer : ∀ u, KeepsRequests u (transfer u)) :
    KeepsRequests s (s.onChannel direction device channel common r transfer) := by
  obtain ⟨area, count, disc⟩ := r
  rcases channel with _ | _
  · cases disc with
    | none => exact htransfer s
    | some address =>
      rcases s.discAttempt_cases device (discAddress address).device transfer with
        ⟨-, hcase⟩ | ⟨-, -, hcase⟩ | ⟨-, -, hcase⟩ <;> rw [State.onChannel_disc, hcase]
      · exact .refl s
      · exact .refl s
      · exact htransfer (s.bindDisc device _)
  · exact KeepsRequests.modifyMe (s := s) fun _ => rfl

theorem exec_keepsRequests {i : Instr} {s t : State} (h : exec i s = .next t)
    (hother : ∀ lb a b, i ≠ .serviceRequest lb a b) : KeepsRequests s t := by
  cases i with
  | read device channel mode a b =>
    obtain ⟨r, -, rfl⟩ := execRead_next.mp h
    exact onChannel_keepsRequests fun u => KeepsRequests.finish (u.setMem _) _ _
  | write device channel kind a b =>
    obtain ⟨r, -, rfl⟩ := execWrite_next.mp h
    exact onChannel_keepsRequests fun u => KeepsRequests.finish (u.emit _) _ _
  | link lb a b => exact link_keepsRequests (State.outcome_next.mp h)
  | serviceRequest lb a b => exact absurd rfl (hother lb a b)
  | branch0 lb a b | branch1 lb a b | branch2 lb a b | branch3 lb a b | branch4 lb a b | branch5 lb a b
  | branch8 lb a b | branch9 lb a b => exact branch_keepsRequests (State.outcome_next.mp h)
  | unassigned2 | unassigned3 | unassigned10 => cases h
  | add la lb a b | subtract la lb a b | multiply la lb a b | divide la lb a b | formNumeric la lb a b
  | moveCharacter la lb a b | moveNumeric la lb a b | exchange la lb a b | compare la lb a b | edit la lb a b =>
    obtain ⟨m, cc, rfl⟩ := exec_finishes h (by simp [Instr.fields]) (by simp [Instr.fields]) (by simp [Instr.fields])
    exact .finish s m cc

end Sys2Proof.Machine
end

section
/-! SUPPORT. The instruction boundary: the channels are served in a permutation of the partitions, P, the timer and the
held requests are kept, and memory changes in the rest of input areas alone (60_exceptions.md R366, R367;
49_read_write.md R325). -/

namespace Sys2Proof.Machine

/-! The order of service. -/

theorem nodup_eraseDups : (l : List Nat) → l.eraseDups.Nodup
  | [] => List.nodup_nil
  | a :: l => by
    rw [List.eraseDups_cons, List.nodup_cons, List.mem_eraseDups]
    exact ⟨by simp, nodup_eraseDups _⟩
termination_by l => l.length
decreasing_by exact Nat.lt_succ_of_le (List.length_filter_le _ _)

theorem eraseDups_eq_self {l : List Nat} (h : l.Nodup) : l.eraseDups = l := by
  induction l with
  | nil => rfl
  | cons a l ih =>
    obtain ⟨ha, hl⟩ := List.nodup_cons.mp h
    have hfilter : l.filter (fun b => !b == a) = l := by
      refine List.filter_eq_self.mpr fun b hb => ?_
      have hne : b ≠ a := fun heq => ha (heq ▸ hb)
      simpa using hne
    rw [List.eraseDups_cons, hfilter, ih hl]

theorem serviceOrder_perm (named : List Nat) (n : Nat) : (serviceOrder named n).Perm (List.range n) := by
  unfold serviceOrder
  refine (List.perm_ext_iff_of_nodup ?_ List.nodup_range).mpr fun q => ?_
  · refine (nodup_eraseDups _).append (List.nodup_range.filter _) fun q hfirst hrest => ?_
    have hnot := (List.mem_filter.mp hrest).2
    simp only [List.contains_iff_mem.mpr hfirst, Bool.not_true, Bool.false_eq_true] at hnot
  · simp only [List.mem_append, List.mem_eraseDups, List.mem_filter, List.mem_range, decide_eq_true_eq,
      Bool.not_eq_true', ← Bool.not_eq_true, List.contains_iff_mem]
    tauto

/-- An order that names every partition once is the order of service. -/
theorem serviceOrder_of_perm {named : List Nat} {n : Nat} (h : named.Perm (List.range n)) :
    serviceOrder named n = named := by
  have hfirst : (named.filter (fun q => decide (q < n))).eraseDups = named := by
    rw [List.filter_eq_self.mpr fun q hq => decide_eq_true (List.mem_range.mp (h.mem_iff.mp hq)),
      eraseDups_eq_self (h.nodup_iff.mpr List.nodup_range)]
  have hrest : (List.range n).filter (fun q => !named.contains q) = [] := by
    refine List.filter_eq_nil_iff.mpr fun q hq => ?_
    simp [h.mem_iff.mpr hq]
  simp only [serviceOrder, hfirst, hrest, List.append_nil]

/-- Settles O51: the channels are served in the order of the input, completed to a permutation. -/
theorem eachIocServedOnce : Obligations.EachIocServedOnce :=
  fun _ => ⟨rfl, fun _ => ⟨_, serviceOrder_perm _ _, serviceOrder_of_perm, rfl⟩⟩

/-! What devices and the service change. -/

/-- The location lies in the rest of the input area of this operation of partition q, a Read in progress. -/
def IocOperation.Awaits (o : IocOperation) (q : Nat) (sp : Space) (loc : Nat) : Prop :=
  o.done = none ∧ (∃ mode, o.direction = .read mode) ∧ sp = (o.place q).space ∧ o.next ≤ loc ∧ loc < o.next + o.left

/-- The location lies in the rest of the input area of a Read in progress. -/
def State.Awaits (s : State) (sp : Space) (loc : Nat) : Prop := ∃ q o, (s.part q).io = some o ∧ o.Awaits q sp loc

/-- From s to t, as devices act and channels are served: legal states are kept, and so are the timer, every P and the
held requests; the rest of every input area shrinks, and from a legal state nothing outside it is stored. -/
structure BoundaryChange (s t : State) : Prop where
  keepsLegal : KeepsLegal s t
  timer : t.timer = s.timer
  pc : ∀ q, (t.part q).pc = (s.part q).pc
  requests : KeepsRequests s t
  rest : ∀ sp loc, t.Awaits sp loc → s.Awaits sp loc
  stored : s.Legal → ∀ sp loc, loc < Config.spaceLimit → t.at sp loc ≠ s.at sp loc → s.Awaits sp loc

theorem BoundaryChange.refl (s : State) : BoundaryChange s s :=
  ⟨.refl s, rfl, fun _ => rfl, .refl s, fun _ _ h => h, fun _ _ _ _ h => absurd rfl h⟩

theorem BoundaryChange.trans {s t u : State} (h : BoundaryChange s t) (h' : BoundaryChange t u) :
    BoundaryChange s u where
  keepsLegal := h.keepsLegal.trans h'.keepsLegal
  timer := h'.timer.trans h.timer
  pc q := (h'.pc q).trans (h.pc q)
  requests := h.requests.trans h'.requests
  rest sp loc hu := h.rest sp loc (h'.rest sp loc hu)
  stored hs sp loc hloc hne := by
    by_cases hfirst : t.at sp loc = s.at sp loc
    · exact h.rest sp loc (h'.stored (h.keepsLegal.legal hs) sp loc hloc (by rwa [hfirst]))
    · exact h.stored hs sp loc hloc hfirst

theorem BoundaryChange.foldl {α : Type} {f : State → α → State} (h : ∀ s x, BoundaryChange s (f s x)) (s : State)
    (xs : List α) : BoundaryChange s (xs.foldl f s) :=
  List.foldlRecOn xs f (motive := BoundaryChange s) (.refl s) fun t ht x _ => ht.trans (h t x)

/-- A change of one partition and of memory, by what it does to the operation of that partition. -/
theorem BoundaryChange.modifyPart {s u : State} {q : Nat} {f : Partition → Partition}
    (hlegal : KeepsLegal s (u.modifyPart q f)) (hparts : u.parts = s.parts) (htimer : u.timer = s.timer)
    (hpc : ∀ p, (f p).pc = p.pc) (hsrq : ∀ p d, p.srq = some d → (f p).srq = some d)
    (hrest : ∀ o' sp loc, (f (s.part q)).io = some o' → o'.Awaits q sp loc → s.Awaits sp loc)
    (hstored : s.Legal → ∀ sp loc, loc < Config.spaceLimit → u.at sp loc ≠ s.at sp loc → s.Awaits sp loc) :
    BoundaryChange s (u.modifyPart q f) := by
  have hpart (q' : Nat) : u.part q' = s.part q' := by rw [State.part, hparts, State.part]
  refine ⟨hlegal, htimer, fun q' => ?_, fun q' d hd => KeepsRequests.modifyPart hsrq q' d (by rwa [hpart]), ?_, hstored⟩
  · rw [State.part_modifyPart, hpart]
    split
    · exact hpc _
    · rfl
  · rintro sp loc ⟨q', o', hio, hawaits⟩
    rw [State.part_modifyPart, hpart] at hio
    split at hio
    · rename_i hq
      obtain ⟨rfl, -⟩ := hq
      exact hrest o' sp loc hio hawaits
    · exact ⟨q', o', hio, hawaits⟩

theorem arriveOne_boundaryChange (s : State) (e : DeviceEvent) : BoundaryChange s (s.arriveOne e) := by
  have hlegal := arriveOne_keepsLegal s e
  cases e with
  | signal q x =>
    exact .modifyPart hlegal rfl rfl (fun _ => rfl) (fun _ _ hd => hd) (fun o' _ _ hio h => ⟨q, o', hio, h⟩)
      fun _ _ _ _ hne => absurd rfl hne
  | request q devices =>
    exact .modifyPart hlegal rfl rfl (fun _ => rfl) (fun p d hd => by simp [hd]) (fun o' _ _ hio h => ⟨q, o', hio, h⟩)
      fun _ _ _ _ hne => absurd rfl hne

/-! The service. -/

theorem IocOperation.not_awaits_of_ended {o : IocOperation} {k : DeviceOutcome} (hdone : o.done = some k) {q : Nat}
    {sp : Space} {loc : Nat} : ¬ o.Awaits q sp loc := by
  rintro ⟨hnone, -⟩
  exact nomatch hdone.symm.trans hnone

theorem IocOperation.awaits_of_step {o : IocOperation} {done : Option DeviceOutcome} {mode : FillMode}
    (hdone : o.done = none) (hdir : o.direction = .read mode) {q : Nat} {sp : Space} {loc : Nat}
    (h : ({ o.step with done := done } : IocOperation).Awaits q sp loc) : o.Awaits q sp loc := by
  obtain ⟨-, -, hspace, hlo, hhi⟩ := h
  simp only [IocOperation.step_next, IocOperation.step_left] at hlo hhi
  exact ⟨hdone, ⟨mode, hdir⟩, hspace, by omega, by omega⟩

section
variable {s : State} {q : Nat} {o : IocOperation} (hio : (s.part q).io = some o)
include hio

/-- A service step of a Read that stores at the next locations of its area, at most as many as are left. -/
theorem BoundaryChange.storeInput {mode : FillMode} (hdone : o.done = none) (hdir : o.direction = .read mode)
    {cs : List Character} (hcs : s.Legal → cs.length ≤ o.left) {o' : IocOperation}
    (hlegal : KeepsLegal s ((s.setMem (s.stored (o.place q) cs)).setOperation q o'))
    (hrest : ∀ sp loc, o'.Awaits q sp loc → o.Awaits q sp loc) :
    BoundaryChange s ((s.setMem (s.stored (o.place q) cs)).setOperation q o') := by
  refine .modifyPart hlegal rfl rfl (fun _ => rfl) (fun _ _ hd => hd) (fun _ sp loc ho' hawaits => ?_)
    fun hs sp loc hloc hne => ?_
  · cases ho'
    exact ⟨q, o, hio, hrest sp loc hawaits⟩
  · by_contra hnot
    exact hne (s.stored_outside (hcs hs) (hs.operation hio).inRange.le hloc
      fun hin => hnot ⟨q, o, hio, hdone, ⟨mode, hdir⟩, hin⟩)

theorem serviceRead_boundaryChange {mode : FillMode} (hdone : o.done = none) (hdir : o.direction = .read mode)
    (x : IocSignal) : BoundaryChange s (s.serviceRead q mode o x) := by
  have hlegal := serviceRead_keepsLegal x hio hdir hdone
  have hended {k : DeviceOutcome} (sp : Space) (loc : Nat)
      (h : ({ o with done := some k } : IocOperation).Awaits q sp loc) : o.Awaits q sp loc :=
    absurd h (IocOperation.not_awaits_of_ended rfl)
  cases x with
  | character c outcome =>
    exact .storeInput (cs := [c]) hio hdone hdir (fun hs => hs.read_left hio hdir hdone) hlegal
      fun _ _ => IocOperation.awaits_of_step hdone hdir
  | unitSeparator outcome =>
    cases mode with
    | fill => exact .storeInput hio hdone hdir (fun _ => List.length_replicate.le) hlegal hended
    | nonfill => exact .storeInput (cs := []) hio hdone hdir (fun _ => Nat.zero_le _) hlegal hended
  | ended how => exact .storeInput hio hdone hdir (fun _ => (freeInput_length _ _ _).le) hlegal hended
  | ready outcome => exact .refl s

end

/-- A service step of a Write stores nothing, whatever it does to the output events. -/
theorem BoundaryChange.setOutput {s u : State} {q : Nat} {kind : WriteKind} {o : IocOperation}
    (hdir : o.direction = .write kind) (hlegal : KeepsLegal s (u.setOperation q o)) (hparts : u.parts = s.parts)
    (htimer : u.timer = s.timer) (hmem : u.mem = s.mem) : BoundaryChange s (u.setOperation q o) := by
  refine .modifyPart hlegal hparts htimer (fun _ => rfl) (fun _ _ hd => hd) (fun _ sp loc ho hawaits => ?_)
    fun _ sp loc _ hne => absurd (by rw [State.at, hmem, State.at]) hne
  cases ho
  obtain ⟨-, ⟨mode, hread⟩, -⟩ := hawaits
  exact nomatch hdir.symm.trans hread

theorem serviceWrite_boundaryChange {s : State} {q : Nat} {o : IocOperation} {kind : WriteKind}
    (hio : (s.part q).io = some o) (hdir : o.direction = .write kind) (x : IocSignal) :
    BoundaryChange s (s.serviceWrite q kind o x) := by
  have hlegal := serviceWrite_keepsLegal x hio hdir
  cases x with
  | ready outcome =>
    dsimp only [State.serviceWrite] at hlegal ⊢
    split at hlegal
    · rename_i hleft
      rw [if_pos hleft]
      exact .setOutput hdir hlegal rfl rfl rfl
    · rename_i hleft
      rw [if_neg hleft]
      exact .setOutput hdir hlegal rfl rfl rfl
  | ended how => exact .setOutput hdir hlegal rfl rfl rfl
  | character c outcome => exact .refl s
  | unitSeparator outcome => exact .refl s

theorem service_boundaryChange (s : State) (q : Nat) : BoundaryChange s (s.service q) := by
  rcases s.service_cases q with h | ⟨o, x, hio, -, hdone, ⟨mode, hdir, h⟩ | ⟨kind, hdir, h⟩⟩
  · rw [h]; exact .refl s
  · rw [h]; exact serviceRead_boundaryChange hio hdone hdir x
  · rw [h]; exact serviceWrite_boundaryChange hio hdir x

/-! The boundary. -/

/-- The bookkeeping of a boundary, which advances the timer, is all that follows. -/
theorem boundary_change (s : State) :
    ∃ u, BoundaryChange s u ∧ s.boundary = u.tick s.nextInput :=
  have harrive : ∀ u events, BoundaryChange u (u.arrive events) := .foldl arriveOne_boundaryChange
  ⟨_, ((harrive s _).trans (.foldl service_boundaryChange _ _)).trans (harrive _ _), rfl⟩

/-- Settles O52: each act of a device and each service step changes no more than a boundary may. -/
theorem boundaryChangesOnlyInputAreas : Obligations.BoundaryChangesOnlyInputAreas := by
  intro s hs
  obtain ⟨hhost, hcc⟩ := boundary_keepsCodes s
  obtain ⟨u, hchange, htick⟩ := boundary_change s
  rw [htick] at hhost hcc ⊢
  refine ⟨hhost, congrArg (· + s.nextInput.elapsed) hchange.timer, fun q => ⟨hchange.pc q, hcc q⟩,
    fun sp loc hloc hne => ?_⟩
  obtain ⟨q, o, hio, hdone, ⟨mode, hdir⟩, hspace, hlo, hhi⟩ := hchange.stored hs sp loc hloc hne
  exact ⟨q, o, mode, hio, hdone, hdir, hspace, hlo, hhi⟩

/-! Service requests. -/

/-- Polling answers the first device that requests, in the cyclic order from POLL on. -/
theorem firstRequest_eq {poll k : Nat} {devices : List Nat} (hk : k < 10) (hmem : (poll + k) % 10 ∈ devices)
    (hfirst : ∀ j < k, (poll + j) % 10 ∉ devices) : firstRequest poll devices = some ((poll + k) % 10) := by
  have hfind : (List.range 10).find? ((fun d => devices.contains d) ∘ fun i => (poll + i) % 10) = some k := by
    rw [List.find?_range_eq_some]
    exact ⟨by simpa using hmem, by simpa using hk, fun j hj => by simpa using hfirst j hj⟩
  rw [firstRequest, List.find?_map, hfind, Option.map_some]

theorem State.part_arriveOne_request {s : State} {q : Nat} (hq : q < s.parts.length) (devices : List Nat) :
    (s.arriveOne (.request q devices)).part q =
      { s.part q with
        srq := if (s.part q).srq.isNone then firstRequest (s.part q).poll devices else (s.part q).srq } := by
  show (s.modifyPart q _).part q = _
  rw [State.part_modifyPart, if_pos ⟨rfl, hq⟩]

/-- A step takes a held request away only by Branch on Service Request of its partition. -/
theorem step_keepsRequest {s t : State} {q d : Nat} (h : step s = .next t) (hd : (s.part q).srq = some d) :
    (t.part q).srq = some d ∨ q = s.host ∧ ∃ lb a b, s.boundary.resume.fetch = .ok (.serviceRequest lb a b) := by
  obtain ⟨u, hchange, htick⟩ := boundary_change s
  have hboundary : (s.boundary.part q).srq = some d := by
    rw [htick]
    exact hchange.requests q d hd
  have hresume := KeepsRequests.resume s.boundary q d hboundary
  rcases step_next.mp h with ⟨-, rfl⟩ | ⟨-, -, rfl⟩ | ⟨-, -, i, hfetch, hexec⟩
  · exact .inl hboundary
  · exact .inl hresume
  · by_cases hreport : ∃ lb a b, i = .serviceRequest lb a b
    · obtain ⟨lb, a, b, rfl⟩ := hreport
      by_cases hq : q = s.host
      · exact .inr ⟨hq, lb, a, b, hfetch⟩
      · have hother : q ≠ s.boundary.resume.host := by rwa [State.resume_host, (boundary_keepsCodes s).host]
        exact .inl (by rwa [(exec_keepsPartition hexec hother).part])
    · exact .inl (exec_keepsRequests hexec (fun lb a b hi => hreport ⟨lb, a, b, hi⟩) q d hresume)

/-- Settles O54: an act of a device latches the first request of the poll when none is held, and a held one stays. -/
theorem serviceRequestLatched : Obligations.ServiceRequestLatched := by
  refine ⟨fun s q devices hq => ⟨fun hheld => ?_, fun k hnone hk hmem hfirst => ?_⟩,
    fun s t q d h hd => step_keepsRequest h hd⟩
  · rw [State.part_arriveOne_request hq, if_neg (by simpa using hheld)]
  · rw [State.part_arriveOne_request hq, if_pos (by simpa using hnone), firstRequest_eq hk hmem hfirst]

end Sys2Proof.Machine
end

section
/-! SUPPORT. The external code of a character under write control (49_read_write.md R336). -/

namespace Sys2Proof.Machine

/-- The bits of an external code. -/
theorem externalBits_getLsbD (b7 b6 : Bool) (low : BitVec 5) :
    (externalBits b7 b6 low).getLsbD 6 = b7 ∧ (externalBits b7 b6 low).getLsbD 5 = b6 ∧
      ∀ k < 5, (externalBits b7 b6 low).getLsbD k = low.getLsbD k := by
  simp only [externalBits, BitVec.getLsbD_cast, BitVec.getLsbD_append]
  refine ⟨by simp, by simp, fun k hk => by simp [hk]⟩

/-- Settles O60: the five low bits are bit-5 and the numeric portion. -/
theorem writeControlCode : Obligations.WriteControlCode := by
  intro c
  obtain ⟨h7, h6, hlow⟩ := externalBits_getLsbD false (!bit7 c) (lowBits c)
  refine ⟨h7, h6, (hlow 4 (by decide)).trans ?_, fun k hk => (hlow k (by omega)).trans ?_⟩
  · simp [lowBits, bit5]
  · rw [lowBits, numeric, BitVec.getLsbD_setWidth, BitVec.getLsbD_setWidth, decide_eq_true hk,
      decide_eq_true (by omega : k < 5)]

end Sys2Proof.Machine
end
